-- ==== Sys2Proof/Word.lean ====
section
/-! DEFINITION. The word types of the FES (00_scope.md R11: every value is unsigned). -/

namespace Sys2Proof

/-- A byte of a frame, of host memory or of the staging buffer. -/
abbrev Byte := BitVec 8

/-- A 16-bit field: the bit count of a frame (R56), the `COUNT` of a command word (R63). -/
abbrev Half := BitVec 16

/-- A 32-bit control register or command word (R20, R63), a host memory address (R41). -/
abbrev Word := BitVec 32

end Sys2Proof
end

