-- ==== Sys2Proof/Config.lean ====
section
/-! DEFINITION. What an implementation fixes (00_scope.md R10) and the free values of the model.

Constants with a body are values the spec states. An `opaque` constant has no body: it is a value the
spec leaves open, nothing in Lean can evaluate it, and a theorem about it holds for every value. -/

namespace Sys2Proof

/-- `HDR_FMT` (R10, R57, R58): the on-wire header format. -/
inductive HdrFmt where
  | h4
  | h8
  deriving DecidableEq, Repr

/-- `STAGE_CAP` (R10): the size of the staging buffer in bytes. -/
def Config.stageCap : Nat := 4096

/-- `EXT_R1` (R10 OPEN, I2): free value (log 2). -/
opaque Config.extR1 : Byte
/-- `EXT_R2` (R10 OPEN, I2): free value (log 2). -/
opaque Config.extR2 : Byte
/-- `EXT_DUP` (R10 OPEN, I2): free value per opcode (log 2). -/
opaque Config.extDup : Byte → Byte
/-- `EXT_EX` (R10 OPEN, I2): free value per opcode (log 2). -/
opaque Config.extEx : Byte → Byte
/-- The byte of `STAGE` at an index no append has written since power-on or reset number `epoch` (R31, R39,
I12): free value of (epoch, index) (log 4). -/
opaque Config.stageByte : Nat → Nat → Byte
/-- Whether the link answers `Ok` (R7, I17): free value of the answer's number (log 7). -/
opaque Config.linkOk : Nat → Bool
/-- How many bytes of a failed `LinkOut` reached the device (R50, I16): free value of the answer's number
(log 9). -/
opaque Config.linkSent : Nat → Nat
/-- A byte the link delivers (R7, R89, I15, I17): free value of (answer's number, index) (log 7, log 10). -/
opaque Config.linkByte : Nat → Nat → Byte
/-- `CURSOR`, `DEC_HDR` or `DEC_INFO` read while `BUSY = 1` (R24 to R26, I13): free value of the draw (log 11). -/
opaque Config.busyRead : Nat → Word
/-- Which of the values a raced host memory byte held is seen (R43, R44, I14): free value of
(draw, index) (log 12, log 13). -/
opaque Config.raceChoice : Nat → Nat → Nat

end Sys2Proof
end

