-- ==== Sys2Proof/Machine/Bits.lean ====
section
/-! DEFINITION. Bit fields, byte order and length arithmetic (00_scope.md R11 to R13, 20_memory.md R45,
30_encoding.md R59, R63). -/

namespace Sys2Proof

/-- `ceil8(n) = (n + 7) div 8` (R13). -/
def ceil8 (n : Nat) : Nat := (n + 7) / 8

/-- `u8(x)`: the low 8 bits, the one truncation on purpose (R12). -/
def u8 (x : Nat) : Byte := BitVec.ofNat 8 x

/-- `LE16(v)`: least significant byte first (R12, R45). -/
def le16 (v : Half) : List Byte := [v.extractLsb' 0 8, v.extractLsb' 8 8]

/-- The 16-bit field whose low and high bytes are given (R45). -/
def ofLe16 (lo hi : Byte) : Half := lo.setWidth 16 ||| hi.setWidth 16 <<< 8

/-- A field's value placed with its lowest bit at bit `i` of a 32-bit word: `zext_32(v) << i` (R11). -/
def placed {n : Nat} (v : BitVec n) (i : Nat) : Word := v.setWidth 32 <<< i

/-- A one-bit field. -/
def placedBit (b : Bool) (i : Nat) : Word := placed (BitVec.ofBool b) i

/-- `HSZ` (R10): the header size in bytes. -/
def HdrFmt.hsz : HdrFmt → Nat
  | .h4 => 4
  | .h8 => 8

/-- `F = HSZ + ceil8(n)`: the length of a frame (R56). -/
def HdrFmt.frameLen (fmt : HdrFmt) (n : Half) : Nat := fmt.hsz + ceil8 n.toNat

/-- `CMDOP = w[3:0]` (R63). -/
def cmdopOf (w : Word) : BitVec 4 := w.extractLsb' 0 4
/-- `RSV = w[7:4]` (R63). -/
def rsvOf (w : Word) : BitVec 4 := w.extractLsb' 4 4
/-- `FOPC = w[15:8]` (R63). -/
def fopcOf (w : Word) : Byte := w.extractLsb' 8 8
/-- `COUNT = w[31:16]` (R63). -/
def countOf (w : Word) : Half := w.extractLsb' 16 16

/-- The command word with these fields and `RSV = 0` (R63). -/
def packCommand (cmdop : BitVec 4) (fopc : Byte) (count : Half) : Word :=
  placed cmdop 0 ||| placed fopc 8 ||| placed count 16

/-- The word of an APPEND of opcode `op` and bit count `n` (R65, R69). -/
def appendWord (op : Byte) (n : Half) : Word := packCommand 0x1 op n
/-- The word of `read.resp K` (R65, R69). -/
def readRespWord (k : Half) : Word := packCommand 0x2 0 k
/-- The word of `decode` (R65, R69). -/
def decodeWord : Word := packCommand 0x3 0 0
/-- The word of `sreset` (R65, R69). -/
def sresetWord : Word := packCommand 0xF 0 0

/-- The shift-data frame opcode (R60). -/
def opSd : Byte := 0x00
/-- The shift-TMS frame opcode (R60). -/
def opTms : Byte := 0x01
/-- The hello frame opcode (R60). -/
def opHello : Byte := 0xFF

/-- A reserved frame opcode, `0x02` to `0xFE` (R60). -/
def opReserved (op : Byte) : Bool := op != opSd && op != opTms && op != opHello

end Sys2Proof
end

