-- ==== Sys2Proof/Syntax.lean ====
section
/-! DEFINITION. The two encoded languages (00_scope.md R2): the six commands a host writes to `CMD`
(30_encoding.md R63 to R65) and the wire frames (R56 to R60), one constructor per row of
opcode_table.json. -/

namespace Sys2Proof

/-- Header bytes 2 to 5 of an H8 frame (R58). -/
structure Filler where
  reserved1 : Byte
  reserved2 : Byte
  opcodeDup : Byte
  opcodeEx : Byte
  deriving DecidableEq, Repr

/-- One constructor per row of the opcode table. A command carries its `COUNT` where the command uses it;
its address operand is the register `ADDR` (R63). A frame carries every field of its layout (R57, R58):
the header length byte as it stands, since a reader must not take the length from it (R59). -/
inductive Instr where
  | appendSd (count : Half)
  | appendTms (count : Half)
  | appendHello
  | readResp (count : Half)
  | decode
  | sreset
  | frameSdH4 (headerLen : Byte) (bitCount : Half) (payload : List Byte)
  | frameTmsH4 (headerLen : Byte) (bitCount : Half) (payload : List Byte)
  | frameHelloH4 (headerLen : Byte) (bitCount : Half) (payload : List Byte)
  | frameReservedH4 (headerLen opcode : Byte) (bitCount : Half) (payload : List Byte)
  | frameSdH8 (headerLen : Byte) (filler : Filler) (bitCount : Half) (payload : List Byte)
  | frameTmsH8 (headerLen : Byte) (filler : Filler) (bitCount : Half) (payload : List Byte)
  | frameHelloH8 (headerLen : Byte) (filler : Filler) (bitCount : Half) (payload : List Byte)
  | frameReservedH8 (headerLen opcode : Byte) (filler : Filler) (bitCount : Half) (payload : List Byte)
  deriving DecidableEq, Repr

end Sys2Proof
end

