-- ==== Sys2Proof/WellFormed.lean ====
section
/-! DEFINITION. Which terms of `Instr` are instructions the encoding admits. -/

namespace Sys2Proof

/-- The payload is `ceil8(n)` bytes (30_encoding.md R56). -/
def payloadFits (n : Half) (payload : List Byte) : Bool := payload.length == ceil8 n.toNat

/-- Every command term is an instruction: R63 gives `COUNT` its whole range. A frame term is one when its
payload has the length its bit count says (R56), and a reserved frame's opcode is reserved (R60). A hello
frame with a nonzero bit count is a frame a parser can meet (R61; DECODE reports it, R92). -/
def Instr.wellFormed : Instr → Bool
  | .appendSd _ => true
  | .appendTms _ => true
  | .appendHello => true
  | .readResp _ => true
  | .decode => true
  | .sreset => true
  | .frameSdH4 _ n p => payloadFits n p
  | .frameTmsH4 _ n p => payloadFits n p
  | .frameHelloH4 _ n p => payloadFits n p
  | .frameReservedH4 _ op n p => opReserved op && payloadFits n p
  | .frameSdH8 _ _ n p => payloadFits n p
  | .frameTmsH8 _ _ n p => payloadFits n p
  | .frameHelloH8 _ _ n p => payloadFits n p
  | .frameReservedH8 _ op _ n p => opReserved op && payloadFits n p

end Sys2Proof
end

