-- ==== Sys2Proof/Decode.lean ====
section
/-! DEFINITION. The decoders of the two languages (30_encoding.md R61, R66), total and rejecting by name,
and after them the encoders (R57, R58, R65, R69). -/

namespace Sys2Proof

/-- Why a word or a byte sequence is no instruction. -/
inductive DecodeError where
  /-- A reserved `CMDOP`, `RSV ≠ 0` or a nonzero unused field (R67 a to c). -/
  | illegalCommand
  /-- APPEND with a reserved `FOPC` (R67 d). -/
  | illegalOpcode
  /-- APPEND of hello with `COUNT ≠ 0` (R67 e). -/
  | helloPayload
  /-- The bytes end inside a frame's header (R61 reads `HSZ` bytes). -/
  | truncatedHeader
  /-- The bytes end inside a frame's payload (R61 reads `ceil8(n)` bytes). -/
  | truncatedPayload
  /-- Bytes follow the one frame that was asked for. -/
  | trailingBytes
  deriving DecidableEq, Repr

/-- `classify(w)` (R66), its checks in its order. -/
def decodeCommand (w : Word) : Except DecodeError Instr :=
  if rsvOf w ≠ 0 then .error .illegalCommand
  else if cmdopOf w = 0x1 then
    if fopcOf w = opSd then .ok (.appendSd (countOf w))
    else if fopcOf w = opTms then .ok (.appendTms (countOf w))
    else if fopcOf w = opHello then
      if countOf w ≠ 0 then .error .helloPayload else .ok .appendHello
    else .error .illegalOpcode
  else if cmdopOf w = 0x2 then
    if fopcOf w ≠ 0 then .error .illegalCommand else .ok (.readResp (countOf w))
  else if cmdopOf w = 0x3 then
    if fopcOf w ≠ 0 ∨ countOf w ≠ 0 then .error .illegalCommand else .ok .decode
  else if cmdopOf w = 0xF then
    if fopcOf w ≠ 0 ∨ countOf w ≠ 0 then .error .illegalCommand else .ok .sreset
  else .error .illegalCommand

/-- The fields of a frame header (R57, R58); `filler` is present in H8. -/
structure Header where
  headerLen : Byte
  opcode : Byte
  filler : Option Filler
  bitCount : Half
  deriving DecidableEq, Repr

/-- The format a header is of (R57, R58). -/
def Header.format (h : Header) : HdrFmt :=
  match h.filler with
  | none => .h4
  | some _ => .h8

/-- The header whose bytes are `h[0..HSZ)` (R57, R58, R92). -/
def headerOfBytes (fmt : HdrFmt) (h : List Byte) : Header :=
  match fmt with
  | .h4 =>
    { headerLen := h.getD 0 0, opcode := h.getD 1 0, filler := none
      bitCount := ofLe16 (h.getD 2 0) (h.getD 3 0) }
  | .h8 =>
    { headerLen := h.getD 0 0, opcode := h.getD 1 0
      filler := some ⟨h.getD 2 0, h.getD 3 0, h.getD 4 0, h.getD 5 0⟩
      bitCount := ofLe16 (h.getD 6 0) (h.getD 7 0) }

/-- The bytes of a header (R57, R58). -/
def Header.bytes (h : Header) : List Byte :=
  match h.filler with
  | none => [h.headerLen, h.opcode] ++ le16 h.bitCount
  | some x =>
    [h.headerLen, h.opcode, x.reserved1, x.reserved2, x.opcodeDup, x.opcodeEx] ++ le16 h.bitCount

/-- The instruction that a header and a payload are: the row of the frame's opcode and format (R60). -/
def frameInstr (h : Header) (p : List Byte) : Instr :=
  match h.filler with
  | none =>
    if h.opcode = opSd then .frameSdH4 h.headerLen h.bitCount p
    else if h.opcode = opTms then .frameTmsH4 h.headerLen h.bitCount p
    else if h.opcode = opHello then .frameHelloH4 h.headerLen h.bitCount p
    else .frameReservedH4 h.headerLen h.opcode h.bitCount p
  | some x =>
    if h.opcode = opSd then .frameSdH8 h.headerLen x h.bitCount p
    else if h.opcode = opTms then .frameTmsH8 h.headerLen x h.bitCount p
    else if h.opcode = opHello then .frameHelloH8 h.headerLen x h.bitCount p
    else .frameReservedH8 h.headerLen h.opcode x h.bitCount p

/-- One frame at the head of a byte stream, and the bytes after it (R61). -/
def decodeFrame (fmt : HdrFmt) (bs : List Byte) : Except DecodeError (Instr × List Byte) :=
  if bs.length < fmt.hsz then .error .truncatedHeader
  else
    let h := headerOfBytes fmt bs
    let rest := bs.drop fmt.hsz
    let len := ceil8 h.bitCount.toNat
    if rest.length < len then .error .truncatedPayload
    else .ok (frameInstr h (rest.take len), rest.drop len)

/-- The frames of a byte stream, parsed from offset 0 (R61); `fuel` bounds their number. DESIGN CHOICE (log 28): R61
parses whole frames only; a stream whose last bytes are no whole frame is rejected by name as a whole, with the
whole frames before them. -/
def decodeFrames (fmt : HdrFmt) : Nat → List Byte → Except DecodeError (List Instr)
  | _, [] => .ok []
  | 0, _ :: _ => .error .trailingBytes
  | fuel + 1, b :: bs =>
    match decodeFrame fmt (b :: bs) with
    | .error e => .error e
    | .ok (i, rest) =>
      match decodeFrames fmt fuel rest with
      | .error e => .error e
      | .ok is => .ok (i :: is)

/-- The whole stream `w`, parsed (R61): a frame takes at least one byte, so its length is fuel enough. -/
def decodeStream (fmt : HdrFmt) (w : List Byte) : Except DecodeError (List Instr) :=
  decodeFrames fmt w.length w

/-- The words and bytes of both languages (R2). -/
inductive Code where
  | word (w : Word)
  | wire (bytes : List Byte)
  deriving DecidableEq, Repr

/-- The bytes of a wire frame; a command word is a register write and has none (R45). -/
def Code.bytes : Code → List Byte
  | .word _ => []
  | .wire bs => bs

/-- The instruction a command word, or the bytes of exactly one frame, is. -/
def decode (fmt : HdrFmt) : Code → Except DecodeError Instr
  | .word w => decodeCommand w
  | .wire bs =>
    match decodeFrame fmt bs with
    | .error e => .error e
    | .ok (i, []) => .ok i
    | .ok (_, _ :: _) => .error .trailingBytes

/-- The bytes of a frame: header, then payload (R57, R58). -/
def frameBytes (headerLen opcode : Byte) (filler : Option Filler) (n : Half) (p : List Byte) :
    List Byte :=
  Header.bytes ⟨headerLen, opcode, filler, n⟩ ++ p

/-- The word of a command (R69) or the bytes of a frame (R57, R58). -/
def encode : Instr → Code
  | .appendSd n => .word (appendWord opSd n)
  | .appendTms n => .word (appendWord opTms n)
  | .appendHello => .word (appendWord opHello 0)
  | .readResp k => .word (readRespWord k)
  | .decode => .word decodeWord
  | .sreset => .word sresetWord
  | .frameSdH4 hl n p => .wire (frameBytes hl opSd none n p)
  | .frameTmsH4 hl n p => .wire (frameBytes hl opTms none n p)
  | .frameHelloH4 hl n p => .wire (frameBytes hl opHello none n p)
  | .frameReservedH4 hl op n p => .wire (frameBytes hl op none n p)
  | .frameSdH8 hl x n p => .wire (frameBytes hl opSd (some x) n p)
  | .frameTmsH8 hl x n p => .wire (frameBytes hl opTms (some x) n p)
  | .frameHelloH8 hl x n p => .wire (frameBytes hl opHello (some x) n p)
  | .frameReservedH8 hl op x n p => .wire (frameBytes hl op (some x) n p)

/-- The header format an instruction's code is read in: a frame row's own; none for a command, whose word is
the same in both. -/
def Instr.format : Instr → Option HdrFmt
  | .appendSd _ | .appendTms _ | .appendHello | .readResp _ | .decode | .sreset => none
  | .frameSdH4 _ _ _ | .frameTmsH4 _ _ _ | .frameHelloH4 _ _ _ | .frameReservedH4 _ _ _ _ => some .h4
  | .frameSdH8 _ _ _ _ | .frameTmsH8 _ _ _ _ | .frameHelloH8 _ _ _ _
  | .frameReservedH8 _ _ _ _ _ => some .h8

/-- The instruction whose bits, numbered as opcode_table.json numbers them, are `w` (log 16). A row of more
than 8 bits is a command word, its bits above `nbits` zero. A row of 8 bits is a frame row: its bits are
the opcode byte (the table's matched field, frame byte 1), every other byte of the frame is zero, and the
format is the default `H4` (R10). -/
def decodeTableWord (nbits w : Nat) : Option Instr :=
  if nbits ≤ 8 then (decode .h4 (.wire [0, BitVec.ofNat 8 w, 0, 0])).toOption
  else if nbits ≤ 32 then (decode .h4 (.word (BitVec.ofNat 32 w))).toOption
  else none

end Sys2Proof
end

