-- ==== Sys2Proof/Machine/State.lean ====
section
/-! DEFINITION. The state of the machine: the FES (10_state.md), host memory and the link streams
(20_memory.md R40), and the inputs of the host and the link (00_scope.md R6). Plain data throughout. -/

namespace Sys2Proof.Machine

/-- A sparse byte memory: (address, byte) pairs, addresses strictly rising. -/
abbrev Memory := List Host.Cell

/-- The parameters of one FES (R10, R38). They are no FES state and no step changes them; the machine's
state carries them so that a statement ranges over all of them (log 1). `hmemSize` is `HMEM_SIZE`.
A filler parameter that is not pinned has the free value of `Config` (log 2). -/
structure Params where
  hdrFmt : HdrFmt
  hmemSize : Nat
  extR1 : Option Byte
  extR2 : Option Byte
  extDup : List (Byte × Byte)
  extEx : List (Byte × Byte)
  deriving DecidableEq, Repr

/-- The bound R10 states on `HMEM_SIZE`. -/
abbrev Params.Legal (p : Params) : Prop := 1 ≤ p.hmemSize ∧ p.hmemSize ≤ 2 ^ 32

/-- The fault causes (60_exceptions.md R105). -/
inductive Cause where
  | none
  | capacityExceeded
  | illegalCommand
  | illegalOpcode
  | helloPayload
  | hostBusError
  | cmdWhileBusy
  deriving DecidableEq, Repr

/-- `PHASE` (R33), with the outstanding link transaction it implies (R36): the bytes of the pending
`LinkOut`, or the count of the pending `LinkIn`. -/
inductive Phase where
  | idle
  | exec
  | waitOut (bytes : List Byte)
  | waitIn (count : Nat)
  deriving DecidableEq, Repr

/-- A link transaction (R36), with whether the link session was open when it was issued (R126 1). -/
inductive LinkTxn where
  | out (bytes : List Byte) (issuedOpen : Bool)
  | inn (count : Nat) (issuedOpen : Bool)
  deriving DecidableEq, Repr

/-- One answer of the link (R7, R50): `Ok` or `TransferError`; how many bytes of a failed `LinkOut` reached
the device; the bytes a `LinkIn` delivered. A byte it does not list is a free value (log 7). -/
structure LinkAnswer where
  ok : Bool
  sent : Nat
  data : List Byte
  deriving DecidableEq, Repr

/-- A `LinkOut` that has been answered (R138 a): its bytes, whether the answer was `Ok`, how many bytes reached
the device (R50), and whether a reset had cut it off, so that the answer was discarded (R123). -/
structure OutRecord where
  bytes : List Byte
  ok : Bool
  delivered : Nat
  discarded : Bool
  deriving DecidableEq, Repr

/-- A `LinkIn` that has been answered (R138 b): its count, the answer, the bytes of an `Ok`, and whether a reset
had cut it off (R123). -/
structure InRecord where
  count : Nat
  ok : Bool
  data : List Byte
  discarded : Bool
  deriving DecidableEq, Repr

/-- The width of a host access to the control-register window (R30). DESIGN CHOICE (log 18): the spec names no set
of widths; the model has 8 and 16 bits beside 32, so an access wider than 32 bits, which R30 (b) refuses like
these two, is not written down. -/
inductive AccessWidth where
  | w8
  | w16
  | w32
  deriving DecidableEq, Repr

/-- What the outside world can do to the machine in one step (R9, R123, R126): access a control register or
host memory, assert reset, open or close the link session. -/
inductive HostOp where
  | csrRead (width : AccessWidth) (offset : Byte)
  | csrWrite (width : AccessWidth) (offset : Byte) (value : Word)
  | memRead (addr : Word) (count : Nat)
  | memWrite (addr : Word) (bytes : List Byte)
  | reset
  | session (isOpen : Bool)
  deriving DecidableEq, Repr

/-- A host access to come: it is made after `after` further device steps, or as soon as the device has none
(log 5). -/
structure HostAccess where
  after : Nat
  op : HostOp
  deriving DecidableEq, Repr

/-- What a read of the host returned. -/
inductive HostRead where
  | csr (offset : Byte) (value : Word)
  | mem (addr : Word) (bytes : List Byte)
  deriving DecidableEq, Repr

/-- The interval R43 and R44 speak of, for one command: from its acceptance until the host has seen
`BUSY = 0`. `dst` and `len` are a READ.RESP's destination range (`len = 0` for the other commands);
`held` lists the (address, byte) values host memory held in the interval and no longer holds. -/
structure Window where
  dst : Nat
  len : Nat
  held : List Host.Cell
  deriving DecidableEq, Repr

/-- Why a step stops. The FES's own faults are no stops: they are next states (R108). -/
inductive Fault where
  /-- Raised by a host access to an address host memory does not have (R41). Safe: the model stops. -/
  | hostOutsideHmem
  /-- Raised by an EXEC or answer step whose host memory range is not in range; acceptance excludes it (R42,
  R96), so no state that meets the invariant raises it. Safe: the model stops. -/
  | hmemOutOfRange
  /-- Raised by an EXEC step whose frame does not fit `STAGE`; acceptance excludes it (R79, R96), so no state
  that meets the invariant raises it. Safe: the model stops. -/
  | stageOverrun
  /-- Raised by a device step whose `LCMD` is no command; acceptance excludes it (R96), so no state that meets
  the invariant raises it. Safe: the model stops. -/
  | latchIllegal
  deriving DecidableEq, Repr

/-- Why the machine gives a step no meaning. -/
inductive Refusal where
  /-- An instruction with no meaning yet, refused in `exec`'s own arm. Safe: the model stops. -/
  | notModelled (mnemonic : String)
  /-- A control-register access that is not 32 bits wide or not at a multiple of 4: R30 (b) says the model
  refuses it (I21). Raised by the host's access. Safe: the model stops. -/
  | csrAccess
  deriving DecidableEq, Repr

/-- The state. Fields are grouped: parameters; registers (10_state.md R20 to R28); staging buffer and hidden
state (R31 to R36); host memory and streams (R40); inputs; the model's own bookkeeping. -/
structure State where
  /-- The parameters of this FES (R10); no step changes them. -/
  cfg : Params
  /-- `ADDR` (R23). -/
  addr : Word
  /-- `STATUS.FAULT` (R21). -/
  fault : Bool
  /-- `STATUS.LINK_ERR` (R21). -/
  linkErr : Bool
  /-- `STATUS.CAUSE` (R21, R105). -/
  cause : Cause
  /-- `DEC_HDR` (R25). -/
  decHdr : Word
  /-- `DEC_INFO` (R26). -/
  decInfo : Word
  /-- `FAULT_CMD` (R27). -/
  faultCmd : Word
  /-- `FAULT_ADDR` (R28). -/
  faultAddr : Word
  /-- `STAGE` (R31): the bytes appends have written since power-on or reset; any other index holds a free
  value (log 4). -/
  stage : Memory
  /-- Which power-on or reset the free bytes of `STAGE` date from (the model's own, log 4). -/
  stageEpoch : Nat
  /-- `CUR` (R32). -/
  cur : BitVec 13
  /-- `PHASE` (R33) and the outstanding link transaction (R36). -/
  phase : Phase
  /-- `LCMD` (R34). -/
  lcmd : Word
  /-- `LADDR` (R34). -/
  laddr : Word
  /-- The word a host write is driving on `CMD` in this very step (R22); `none` when there is no such write. -/
  cmdPort : Option Word
  /-- Link transactions a reset cut off, oldest first; their answers are discarded on arrival (R123). -/
  abandoned : List LinkTxn
  /-- Host memory (R35, R41). -/
  hmem : Memory
  /-- The bulk OUT stream (R40 d), oldest first. -/
  outStream : List OutRecord
  /-- The bulk IN stream (R40 d), oldest first. -/
  inStream : List InRecord
  /-- Whether the link session is open (R126 1). -/
  linkOpen : Bool
  /-- Whether the link session was open when the outstanding transaction was issued (R126 1; log 8). -/
  issuedOpen : Bool
  /-- The link's answers to come, oldest first; past its end every answer is a free value (log 7). -/
  answers : List LinkAnswer
  /-- How many answers the link has given: the number of the next one (the model's own, log 7). -/
  answered : Nat
  /-- The host's accesses to come, in the host's order (log 5). -/
  host : List HostAccess
  /-- What the host's reads returned, oldest first (the model's own). -/
  hostReads : List HostRead
  /-- Whether the host has read `STATUS` with `BUSY = 0` since a command was last accepted (R52, R138; log 21). -/
  seenIdle : Bool
  /-- The open intervals of R43 and R44, newest first (the model's own). -/
  windows : List Window
  /-- How many free values have been drawn (the model's own). -/
  draws : Nat
  deriving DecidableEq, Repr

/-- The parameters at `State.reset`: the default format (R10), the whole 32-bit space of host memory (DESIGN
CHOICE, log 1), no filler byte pinned (log 2). -/
def Params.reset : Params :=
  { hdrFmt := .h4, hmemSize := 2 ^ 32, extR1 := none, extR2 := none, extDup := [], extEx := [] }

/-- The machine right after reset (R39, R123, R124), no input waiting. -/
def State.reset : State :=
  { cfg := Params.reset
    addr := 0, fault := false, linkErr := false, cause := .none
    decHdr := 0, decInfo := 0, faultCmd := 0, faultAddr := 0
    stage := [], stageEpoch := 0, cur := 0, phase := .idle, lcmd := 0, laddr := 0
    cmdPort := none, abandoned := []
    hmem := [], outStream := [], inStream := []
    linkOpen := true, issuedOpen := true, answers := [], answered := 0
    host := [], hostReads := [], seenIdle := false
    windows := [], draws := 0 }

end Sys2Proof.Machine
end

