-- ==== Sys2Proof/Machine/Flags.lean ====
section
/-! DEFINITION. The status word, the read-only registers computed from state, and the flags of DECODE
(10_state.md R21, R24 to R29; 41_read_decode.md R92). -/

namespace Sys2Proof.Machine

/-- The code of a cause (R105). -/
def Cause.code : Cause → Byte
  | .none => 0x00
  | .capacityExceeded => 0x01
  | .illegalCommand => 0x02
  | .illegalOpcode => 0x03
  | .helloPayload => 0x04
  | .hostBusError => 0x05
  | .cmdWhileBusy => 0x06

/-- The cause of an illegal word (R66, R67). The frame errors are no answer of `classify`; they stand with the
reserved encodings. -/
def Cause.ofDecode : DecodeError → Cause
  | .illegalCommand => .illegalCommand
  | .illegalOpcode => .illegalOpcode
  | .helloPayload => .helloPayload
  | .truncatedHeader => .illegalCommand
  | .truncatedPayload => .illegalCommand
  | .trailingBytes => .illegalCommand

/-- `STATUS.BUSY = 1` exactly when `PHASE ≠ IDLE` (R33). -/
def State.busy (s : State) : Bool := s.phase != .idle

/-- `STATUS` (R21). -/
def State.statusWord (s : State) : Word :=
  placedBit s.busy 0 ||| placedBit s.fault 1 ||| placedBit s.linkErr 2 ||| placed s.cause.code 8

/-- `CURSOR` while `BUSY = 0` (R24). -/
def State.cursorWord (s : State) : Word := placed s.cur 0

/-- `CONFIG` (R29). -/
def Params.configWord (p : Params) : Word :=
  placedBit (p.hdrFmt == .h8) 0 ||| placed (BitVec.ofNat 4 p.hdrFmt.hsz) 4
    ||| placed (BitVec.ofNat 13 Config.stageCap) 16

/-- `EXT_R1` (R10): the pinned value, or the free one (log 2). -/
def Params.r1 (p : Params) : Byte := p.extR1.getD Config.extR1
/-- `EXT_R2` (R10). -/
def Params.r2 (p : Params) : Byte := p.extR2.getD Config.extR2
/-- `EXT_DUP(op)` (R10). -/
def Params.dup (p : Params) (op : Byte) : Byte := (p.extDup.lookup op).getD (Config.extDup op)
/-- `EXT_EX(op)` (R10). -/
def Params.ex (p : Params) (op : Byte) : Byte := (p.extEx.lookup op).getD (Config.extEx op)

/-- Header bytes 2 to 5 of the FES's own frames: none in H4, the four parameters in H8 (R57, R58). -/
def Params.fillerFor (p : Params) (op : Byte) : Option Filler :=
  match p.hdrFmt with
  | .h4 => none
  | .h8 => some ⟨p.r1, p.r2, p.dup op, p.ex op⟩

/-- `DLEN_MISMATCH` (R26, R92). -/
def lenMismatch (p : Params) (h : Header) : Bool := h.headerLen != u8 (p.hdrFmt.frameLen h.bitCount)

/-- `DOPC_UNDEF` (R26, R92). -/
def opcodeUndef (h : Header) : Bool := opReserved h.opcode

/-- `DHELLO_BITS` (R26, R92). -/
def helloBits (h : Header) : Bool := h.opcode == opHello && h.bitCount != 0

/-- `DEXT_MISMATCH` (R26, R92): always 0 in H4. -/
def extMismatch (p : Params) (h : Header) : Bool :=
  match p.hdrFmt with
  | .h4 => false
  | .h8 => h.filler != p.fillerFor h.opcode

/-- `DVALID` (R26): 1 exactly when the four flags are 0. -/
def headerValid (p : Params) (h : Header) : Bool :=
  !(lenMismatch p h || opcodeUndef h || helloBits h || extMismatch p h)

/-- `DEC_HDR` for a header (R25, R92). -/
def decHdrWord (h : Header) : Word := placed h.headerLen 0 ||| placed h.opcode 8 ||| placed h.bitCount 16

/-- `DEC_INFO` for a header (R26, R92). -/
def decInfoWord (p : Params) (h : Header) : Word :=
  placed (BitVec.ofNat 14 (ceil8 h.bitCount.toNat)) 0 ||| placedBit (headerValid p h) 16
    ||| placedBit (lenMismatch p h) 17 ||| placedBit (opcodeUndef h) 18 ||| placedBit (helloBits h) 19
    ||| placedBit (extMismatch p h) 20

end Sys2Proof.Machine
end

