-- ==== Sys2Proof/Machine/Operands.lean ====
section
/-! DEFINITION. The operands of the commands (30_encoding.md R63): counts, host memory ranges, and the frame an
APPEND builds (R56 to R59, 40_append.md R74). -/

namespace Sys2Proof.Machine

/-- Range check (20_memory.md R42): no byte, or `a + n ≤ HMEM_SIZE` in unbounded naturals. -/
def Params.inRange (p : Params) (a : Word) (n : Nat) : Bool := n == 0 || a.toNat + n ≤ p.hmemSize

/-- `encode(op, n, p)` (R74): the frame in the FES's own format, its `header_len` truncated (R59). -/
def Params.encodeFrame (p : Params) (op : Byte) (n : Half) (payload : List Byte) : List Byte :=
  frameBytes (u8 (p.hdrFmt.frameLen n)) op (p.fillerFor op) n payload

/-- The payload length in bytes of the APPEND whose word is latched (R73, R76). -/
def State.latchedLen (s : State) : Nat := ceil8 (countOf s.lcmd).toNat

/-- The destination length of a command word: `K` for READ.RESP, 0 for every other command (R131). -/
def destLen (w : Word) : Nat :=
  match decodeCommand w with
  | .ok (.readResp k) => k.toNat
  | _ => 0

end Sys2Proof.Machine
end

