-- ==== Sys2Proof/Machine/Ops.lean ====
section
/-! DEFINITION. The named operations over memory, registers and the link, which every meaning shares: memory
reads and writes, taking a fault and leaving it, acceptance, staging, link transactions and their answers. -/

namespace Sys2Proof.Machine

/-! ## Memory -/

/-- The byte listed at an address. -/
def Memory.cell? : Memory → Nat → Option Byte
  | [], _ => none
  | (k, b) :: m, a => if k = a then some b else Memory.cell? m a

/-- What a host memory byte that nothing has written reads as (DESIGN CHOICE, log 3). -/
def Memory.unwritten : Byte := 0x00

/-- A byte of host memory. -/
def Memory.read (m : Memory) (a : Nat) : Byte := (m.cell? a).getD Memory.unwritten

/-- The bytes at `a..a+n-1`, in ascending order (R43). -/
def Memory.readBlock (m : Memory) (a n : Nat) : List Byte :=
  (List.range n).map fun i => m.read (a + i)

/-- The cells of a byte sequence laid out from address `a`. -/
def blockCells (a : Nat) : List Byte → Memory
  | [] => []
  | b :: bs => (a, b) :: blockCells (a + 1) bs

/-- The memory with the bytes laid out from address `a`; what the cells held before is dropped. -/
def Memory.put (m : Memory) (a : Nat) (bs : List Byte) : Memory :=
  m.filter (fun c => c.1 < a) ++ blockCells a bs ++ m.filter (fun c => a + bs.length ≤ c.1)

/-- `MemWrite` (R44) in the canonical form: a byte equal to what an unlisted address reads as is not
listed. -/
def Memory.write (m : Memory) (a : Nat) (bs : List Byte) : Memory :=
  m.filter (fun c => c.1 < a) ++ (blockCells a bs).filter (fun c => c.2 != Memory.unwritten)
    ++ m.filter (fun c => a + bs.length ≤ c.1)

/-- Addresses strictly rising. -/
def Memory.rising : Memory → Bool
  | [] => true
  | [_] => true
  | c :: d :: m => c.1 < d.1 && Memory.rising (d :: m)

/-- The canonical form of host memory: addresses strictly rising, no entry equal to what an unlisted address
reads as. -/
def Memory.wf (m : Memory) : Bool := m.rising && m.all fun c => c.2 != Memory.unwritten

/-- A byte of `STAGE` (R31): the byte last appended there, else a free value (log 4). -/
def State.stageByte (s : State) (i : Nat) : Byte := (s.stage.cell? i).getD (Config.stageByte s.stageEpoch i)

/-- `STAGE[0..n)`. -/
def State.stageBytes (s : State) (n : Nat) : List Byte := (List.range n).map s.stageByte

/-! ## Values raced between the host and a command (R43, R44) -/

/-- The values an address held in an interval and no longer holds. -/
def heldAt (held : List Host.Cell) (a : Nat) : List Byte := (held.filter fun c => c.1 == a).map Prod.snd

/-- One of the values a byte held: the only one, or the one the free choice names. -/
def chooseHeld (draw index : Nat) (now : Byte) : List Byte → Byte
  | [] => now
  | b :: bs => (now :: b :: bs).getD (Config.raceChoice draw index % (bs.length + 2)) now

/-- The values displaced since the command in progress was accepted. -/
def State.displaced (s : State) : List Host.Cell :=
  match s.windows with
  | [] => []
  | w :: _ => w.held

/-- Open intervals that take note of bytes that memory at `a` holds in them and need not hold at their end. -/
def noteHeld (a : Nat) (bs : List Byte) (ws : List Window) : List Window :=
  ws.map fun w => { w with held := blockCells a bs ++ w.held }

/-- `MemRead(a, n)` of a command's EXEC step (R43): what memory holds; where the host has written a byte since
acceptance, any value it held since then (log 12). -/
def State.fetch (a n : Nat) (s : State) : List Byte × State :=
  match s.displaced with
  | [] => (s.hmem.readBlock a n, s)
  | c :: cs =>
    ((List.range n).map fun i =>
        chooseHeld s.draws i (s.hmem.read (a + i)) (heldAt (c :: cs) (a + i)),
      { s with draws := s.draws + 1 })

/-- `MemWrite(a, |bs|, bs)` (R44); the open intervals note the bytes it displaces. -/
def State.storeHmem (a : Nat) (bs : List Byte) (s : State) : State :=
  { s with hmem := s.hmem.write a bs, windows := noteHeld a (s.hmem.readBlock a bs.length) s.windows }

/-! ## Faults, soft reset, acceptance, completion -/

/-- Fault entry, `raise Fault(c)` for the offered word `w` (R108): these four, and nothing else. -/
def State.raise (c : Cause) (w : Word) (s : State) : State :=
  { s with fault := true, cause := c, faultCmd := w, faultAddr := s.addr }

/-- `sreset()` (R101): the way out of the fault halt (R113). `STAGE` is not cleared. -/
def State.softReset (s : State) : State :=
  { s with
    cur := 0, fault := false, cause := .none, linkErr := false
    addr := 0, decHdr := 0, decInfo := 0, faultCmd := 0, faultAddr := 0
    lcmd := 0, laddr := 0, phase := .idle }

/-- The latching of an accepted command (R96): from now on `BUSY` reads 1. The interval of R43 and R44 opens,
and the host has the command's end to see (R138). -/
def State.accept (w : Word) (s : State) : State :=
  { s with
    lcmd := w, laddr := s.addr, linkErr := false, phase := .exec, seenIdle := false
    windows := ⟨s.addr.toNat, destLen w, []⟩ :: s.windows }

/-- The word has left the `CMD` port. -/
def State.clearPort (s : State) : State := { s with cmdPort := none }

/-- Acceptance of an offered word `w` (R96, R97, R110): the fault halt, then the busy check, then `run`. The word
leaves the `CMD` port. -/
def State.offer (w : Word) (run : State → State) (s : State) : State :=
  if s.fault then
    if !s.busy && w == sresetWord then s.clearPort.softReset else s.clearPort
  else if s.busy then s.clearPort.raise .cmdWhileBusy w
  else run s.clearPort

/-- Acceptance of a command whose check may refuse it (R96). -/
def State.offerChecked (w : Word) (check : State → Option Cause) (s : State) : State :=
  s.offer w fun t =>
    match check t with
    | some c => t.raise c w
    | none => t.accept w

/-- `complete` (R14, R33, R100). -/
def State.complete (s : State) : State := { s with phase := .idle }

/-! ## Staging and flushing -/

/-- `check_append(op, n)` (R77), with `ADDR` for `LADDR` (R96); the opcode plays no part. -/
def checkAppend (n : Half) (s : State) : Option Cause :=
  if s.cur.toNat + s.cfg.hdrFmt.frameLen n > Config.stageCap then some .capacityExceeded
  else if !s.cfg.inRange s.addr (ceil8 n.toNat) then some .hostBusError
  else none

/-- Whether a frame of these bytes fits behind the staged ones (R79). -/
def State.frameFits (f : List Byte) (s : State) : Bool := s.cur.toNat + f.length ≤ Config.stageCap

/-- The stage write (R78): the frame at the cursor, and the cursor past it. -/
def State.stageFrame (f : List Byte) (s : State) : State :=
  { s with
    stage := s.stage.put s.cur.toNat f
    cur := BitVec.ofNat 13 (s.cur.toNat + f.length) }

/-- `LinkOut(STAGE[0..CUR))` is issued (R80), the session as it then is (R126 1). -/
def State.issueOut (s : State) : State :=
  { s with phase := .waitOut (s.stageBytes s.cur.toNat), issuedOpen := s.linkOpen }

/-- `LinkIn(k)` is issued (R88), the session as it then is (R126 1). -/
def State.issueIn (k : Nat) (s : State) : State := { s with phase := .waitIn k, issuedOpen := s.linkOpen }

/-- A frame reaches the stager (R60, R78, R80): shift-data flushes, any other opcode is kept and the command
completes. -/
def State.stageAndMaybeFlush (op : Byte) (f : List Byte) (s : State) :
    Host.Outcome State Fault Refusal :=
  if s.frameFits f then
    if op = opSd then .next (s.stageFrame f).issueOut else .next (s.stageFrame f).complete
  else .fault .stageOverrun

/-- The EXEC step of an APPEND (R76, R78, R80, R98): read the payload, encode, stage, flush or complete. -/
def State.appendExec (op : Byte) (n : Half) (s : State) : Host.Outcome State Fault Refusal :=
  if s.cfg.inRange s.laddr (ceil8 n.toNat) then
    let r := s.fetch s.laddr.toNat (ceil8 n.toNat)
    r.2.stageAndMaybeFlush op (s.cfg.encodeFrame op n r.1)
  else .fault .hmemOutOfRange

/-! ## The link -/

/-- The answer the link gives after `k` others (R7, R99): the one listed, else a free one (log 7). -/
def State.answerAt (k : Nat) (s : State) : LinkAnswer :=
  s.answers.getD k { ok := Config.linkOk (s.answered + k), sent := Config.linkSent (s.answered + k), data := [] }

/-- A byte of that answer: the one it lists, else a free one (log 7, log 10). -/
def State.answerByteAt (k i : Nat) (s : State) : Byte :=
  (s.answerAt k).data.getD i (Config.linkByte (s.answered + k) i)

/-- The next answer, to a transaction issued with the session open or not: without an open session it is
`TransferError` (R126 1). That nothing but the issue counts is a DESIGN CHOICE (log 8). -/
def State.answerTo (issuedOpen : Bool) (s : State) : LinkAnswer :=
  { s.answerAt 0 with ok := (s.answerAt 0).ok && issuedOpen }

/-- The next answer, to the transaction that is outstanding. -/
def State.nextAnswer (s : State) : LinkAnswer := s.answerTo s.issuedOpen

/-- The answer has been given. -/
def State.dropAnswer (s : State) : State :=
  { s with answers := s.answers.tail, answered := s.answered + 1, draws := s.draws + 1 }

/-- The `n` bytes of the next answer. -/
def State.answerBytes (n : Nat) (s : State) : List Byte := (List.range n).map fun i => s.answerByteAt 0 i

/-- How many of the bytes of a `LinkOut` reached the device: all on `Ok`, any number of the first ones on
`TransferError` (R50; log 9). -/
def deliveredOf (a : LinkAnswer) (bytes : List Byte) : Nat :=
  if a.ok then bytes.length else min a.sent bytes.length

/-- The answer of the outstanding `LinkOut` (R81, R82). -/
def State.answerOut (bytes : List Byte) (s : State) : State :=
  let a := s.nextAnswer
  let t := s.dropAnswer
  { t with
    cur := 0, linkErr := t.linkErr || !a.ok, phase := .idle
    outStream := t.outStream ++ [⟨bytes, a.ok, deliveredOf a bytes, false⟩] }

/-- What the bytes `r` of a READ.RESP leave in its destination at `a` (R44, R131): the bytes themselves; where the
host has written a byte since acceptance, any value the byte was given since then (log 13). -/
def State.landed (a : Nat) (r : List Byte) (s : State) : List Byte :=
  match s.displaced with
  | [] => r
  | c :: cs =>
    (List.range r.length).map fun i =>
      match heldAt (c :: cs) (a + i) with
      | [] => r.getD i 0
      | b :: bs => chooseHeld s.draws i (r.getD i 0) (s.hmem.read (a + i) :: b :: bs)

/-- The answer of the outstanding `LinkIn(K)` (R88, R89): the bytes of an `Ok` go to the destination; after a
`TransferError` the destination holds free bytes. The open intervals note the bytes received, since a raced byte of the
destination held its one, whatever it is left with (R44, R131; log 13). -/
def State.answerIn (k : Nat) (s : State) : State :=
  let a := s.nextAnswer
  let r := s.answerBytes k
  let t := s.dropAnswer.storeHmem s.laddr.toNat (s.landed s.laddr.toNat r)
  { t with
    windows := noteHeld s.laddr.toNat r t.windows
    linkErr := t.linkErr || !a.ok, phase := .idle
    inStream := t.inStream ++ [⟨k, a.ok, if a.ok then r else [], false⟩] }

/-- The answer of a transaction that a reset cut off is discarded (R123). -/
def State.discardAnswer (x : LinkTxn) (s : State) : State :=
  let t := s.dropAnswer
  match x with
  | .out bytes issuedOpen =>
    let a := s.answerTo issuedOpen
    { t with outStream := t.outStream ++ [⟨bytes, a.ok, deliveredOf a bytes, true⟩] }
  | .inn k issuedOpen =>
    let a := s.answerTo issuedOpen
    { t with inStream := t.inStream ++ [⟨k, a.ok, if a.ok then s.answerBytes k else [], true⟩] }

/-! ## Decoding a frame header -/

/-- The results of a DECODE that found header `h` (R92). -/
def State.setDecoded (h : Header) (s : State) : State :=
  { s with decHdr := decHdrWord h, decInfo := decInfoWord s.cfg h }

/-! ## Reset -/

/-- The transaction that is outstanding (R36). -/
def State.outstanding (s : State) : List LinkTxn :=
  match s.phase with
  | .idle => []
  | .exec => []
  | .waitOut bytes => [.out bytes s.issuedOpen]
  | .waitIn k => [.inn k s.issuedOpen]

/-- The reset input (R39, R123): every piece of FES state at its reset value, `STAGE` unspecified again; an
outstanding transaction is cut off. -/
def State.hardReset (s : State) : State :=
  { s.softReset with
    stage := [], stageEpoch := s.draws + 1, draws := s.draws + 1, cmdPort := none
    abandoned := s.abandoned ++ s.outstanding }

end Sys2Proof.Machine
end

