-- ==== Sys2Proof/Machine/Append.lean ====
section
/-! DEFINITION. The APPEND family (40_append.md R73 to R85). A meaning covers its command's whole life, the state
saying which part this step is: a word on the `CMD` port is the acceptance (R96), `PHASE = EXEC` the EXEC step
(R98), `WAIT_OUT` the link's answer (R99). Elsewhere the FES has no step for it, and nothing changes (log 26). -/

namespace Sys2Proof.Machine

/-- `append.sd COUNT` (R83): appends a shift-data frame and flushes. -/
def execAppendSd (n : Half) (s : State) : Host.Outcome State Fault Refusal :=
  match s.cmdPort with
  | some w => .next (s.offerChecked w (checkAppend n))
  | none =>
    match s.phase with
    | .exec => s.appendExec opSd n
    | .waitOut bytes => .next (s.answerOut bytes)
    | .idle => .next s
    | .waitIn _ => .next s

/-- `append.tms COUNT` (R84): appends a shift-TMS frame and does not flush. -/
def execAppendTms (n : Half) (s : State) : Host.Outcome State Fault Refusal :=
  match s.cmdPort with
  | some w => .next (s.offerChecked w (checkAppend n))
  | none =>
    match s.phase with
    | .exec => s.appendExec opTms n
    | .idle => .next s
    | .waitOut _ => .next s
    | .waitIn _ => .next s

/-- `append.hello` (R85): appends a hello frame, which has no payload, and does not flush. -/
def execAppendHello (s : State) : Host.Outcome State Fault Refusal :=
  match s.cmdPort with
  | some w => .next (s.offerChecked w (checkAppend 0))
  | none =>
    match s.phase with
    | .exec => s.appendExec opHello 0
    | .idle => .next s
    | .waitOut _ => .next s
    | .waitIn _ => .next s

end Sys2Proof.Machine
end

