-- ==== Sys2Proof/Machine/Control.lean ====
section
/-! DEFINITION. SRESET (42_control.md R101). -/

namespace Sys2Proof.Machine

/-- `sreset` (R101): runs within the acceptance step. It is never latched (R96), so it has no EXEC step. -/
def execSreset (s : State) : Host.Outcome State Fault Refusal :=
  match s.cmdPort with
  | some w => .next (s.offer w State.softReset)
  | none => .next s

end Sys2Proof.Machine
end

