-- ==== Sys2Proof/Machine/Frames.lean ====
section
/-! DEFINITION. The wire frames (30_encoding.md R56 to R62): what the FES does with a frame in its own format. A
frame meets the FES in two places (log 15): in the EXEC step of a DECODE, which parses it (R92), and in the EXEC
step of the APPEND that emits it, whose effect on the stager is R60's. With no such command in its EXEC step
the FES does nothing with a frame. -/

namespace Sys2Proof.Machine

/-- The EXEC step of a DECODE is running (R92, R98). -/
def State.parsing (s : State) : Bool := s.phase == .exec && s.lcmd == decodeWord

/-- The EXEC step of the APPEND of this opcode and bit count is running (R73, R98). -/
def State.emitting (op : Byte) (n : Half) (s : State) : Bool :=
  s.phase == .exec && s.lcmd == appendWord op n

/-- What the FES does with a frame of format `fmt`: parse it (R92), stage it if the FES emits such frames (R60,
R67), or nothing. DESIGN CHOICE (log 15): the APPEND in its EXEC step is matched by opcode and bit count alone; a row
whose `header_len`, filler or payload is not what that APPEND builds (R58, R59, R46) is staged as it stands. -/
def State.handleFrame (fmt : HdrFmt) (emitted : Bool) (h : Header) (payload : List Byte) (s : State) :
    Host.Outcome State Fault Refusal :=
  if s.cfg.hdrFmt = fmt then
    if s.parsing then .next (s.setDecoded h).complete
    else if emitted && s.emitting h.opcode h.bitCount then
      s.stageAndMaybeFlush h.opcode (h.bytes ++ payload)
    else .next s
  else .next s

/-- `frame.sd` in H4 (R57, R60): triggers a flush. -/
def execFrameSdH4 (hl : Byte) (n : Half) (p : List Byte) (s : State) : Host.Outcome State Fault Refusal :=
  s.handleFrame .h4 true ⟨hl, opSd, none, n⟩ p

/-- `frame.tms` in H4 (R57, R60): staged only. -/
def execFrameTmsH4 (hl : Byte) (n : Half) (p : List Byte) (s : State) : Host.Outcome State Fault Refusal :=
  s.handleFrame .h4 true ⟨hl, opTms, none, n⟩ p

/-- `frame.hello` in H4 (R57, R60): staged only; the FES emits it with `n = 0` alone (R67 e). -/
def execFrameHelloH4 (hl : Byte) (n : Half) (p : List Byte) (s : State) : Host.Outcome State Fault Refusal :=
  s.handleFrame .h4 (n == 0) ⟨hl, opHello, none, n⟩ p

/-- `frame.reserved` in H4 (R57, R60): never emitted (R67 d), reported by DECODE (R92). -/
def execFrameReservedH4 (hl op : Byte) (n : Half) (p : List Byte) (s : State) :
    Host.Outcome State Fault Refusal :=
  s.handleFrame .h4 false ⟨hl, op, none, n⟩ p

/-- `frame.sd` in H8 (R58, R60). -/
def execFrameSdH8 (hl : Byte) (x : Filler) (n : Half) (p : List Byte) (s : State) :
    Host.Outcome State Fault Refusal :=
  s.handleFrame .h8 true ⟨hl, opSd, some x, n⟩ p

/-- `frame.tms` in H8 (R58, R60). -/
def execFrameTmsH8 (hl : Byte) (x : Filler) (n : Half) (p : List Byte) (s : State) :
    Host.Outcome State Fault Refusal :=
  s.handleFrame .h8 true ⟨hl, opTms, some x, n⟩ p

/-- `frame.hello` in H8 (R58, R60). -/
def execFrameHelloH8 (hl : Byte) (x : Filler) (n : Half) (p : List Byte) (s : State) :
    Host.Outcome State Fault Refusal :=
  s.handleFrame .h8 (n == 0) ⟨hl, opHello, some x, n⟩ p

/-- `frame.reserved` in H8 (R58, R60). -/
def execFrameReservedH8 (hl op : Byte) (x : Filler) (n : Half) (p : List Byte) (s : State) :
    Host.Outcome State Fault Refusal :=
  s.handleFrame .h8 false ⟨hl, op, some x, n⟩ p

end Sys2Proof.Machine
end

