-- ==== Sys2Proof/Machine/ReadDecode.lean ====
section
/-! DEFINITION. READ.RESP and DECODE (41_read_decode.md R88 to R95). As in the APPEND family, the state says which
part of the command's life this step is (log 26). -/

namespace Sys2Proof.Machine

/-- The acceptance check of READ.RESP (R88, R96): no address is used when `K = 0` (R42). -/
def checkReadResp (k : Half) (s : State) : Option Cause :=
  if s.cfg.inRange s.addr k.toNat then none else some .hostBusError

/-- The acceptance check of DECODE (R92, R96). -/
def checkDecode (s : State) : Option Cause :=
  if s.cfg.inRange s.addr s.cfg.hdrFmt.hsz then none else some .hostBusError

/-- The EXEC step of READ.RESP (R88, R90): `K = 0` completes, any other `K` issues `LinkIn(K)`. -/
def State.readRespExec (k : Half) (s : State) : State :=
  if k = 0 then s.complete else s.issueIn k.toNat

/-- The answer step of READ.RESP (R88, R89); acceptance has checked the range (R96). -/
def State.readRespAnswer (k : Nat) (s : State) : Host.Outcome State Fault Refusal :=
  if s.cfg.inRange s.laddr k then .next (s.answerIn k) else .fault .hmemOutOfRange

/-- The EXEC step of DECODE (R92): the header at `LADDR`, its fields and flags; the payload is not read. -/
def State.decodeExec (s : State) : Host.Outcome State Fault Refusal :=
  if s.cfg.inRange s.laddr s.cfg.hdrFmt.hsz then
    let r := s.fetch s.laddr.toNat s.cfg.hdrFmt.hsz
    .next (r.2.setDecoded (headerOfBytes s.cfg.hdrFmt r.1)).complete
  else .fault .hmemOutOfRange

/-- `read.resp COUNT` (R88): reads a response from the link into host memory. -/
def execReadResp (k : Half) (s : State) : Host.Outcome State Fault Refusal :=
  match s.cmdPort with
  | some w => .next (s.offerChecked w (checkReadResp k))
  | none =>
    match s.phase with
    | .exec => .next (s.readRespExec k)
    | .waitIn m => s.readRespAnswer m
    | .idle => .next s
    | .waitOut _ => .next s

/-- `decode` (R92): parses the frame header at `ADDR` into the decode result registers. -/
def execDecode (s : State) : Host.Outcome State Fault Refusal :=
  match s.cmdPort with
  | some w => .next (s.offerChecked w checkDecode)
  | none =>
    match s.phase with
    | .exec => s.decodeExec
    | .idle => .next s
    | .waitOut _ => .next s
    | .waitIn _ => .next s

end Sys2Proof.Machine
end

