-- ==== Sys2Proof/Machine/Dispatch.lean ====
section
/-! DEFINITION. One arm per constructor of Instr, each a direct call of the instruction's meaning. -/

namespace Sys2Proof.Machine

def exec (i : Instr) (s : State) : Host.Outcome State Fault Refusal :=
  match i with
  | .appendSd n => Sys2Proof.Machine.execAppendSd n s
  | .appendTms n => Sys2Proof.Machine.execAppendTms n s
  | .appendHello => Sys2Proof.Machine.execAppendHello s
  | .readResp k => Sys2Proof.Machine.execReadResp k s
  | .decode => Sys2Proof.Machine.execDecode s
  | .sreset => Sys2Proof.Machine.execSreset s
  | .frameSdH4 hl n p => Sys2Proof.Machine.execFrameSdH4 hl n p s
  | .frameTmsH4 hl n p => Sys2Proof.Machine.execFrameTmsH4 hl n p s
  | .frameHelloH4 hl n p => Sys2Proof.Machine.execFrameHelloH4 hl n p s
  | .frameReservedH4 hl op n p => Sys2Proof.Machine.execFrameReservedH4 hl op n p s
  | .frameSdH8 hl x n p => Sys2Proof.Machine.execFrameSdH8 hl x n p s
  | .frameTmsH8 hl x n p => Sys2Proof.Machine.execFrameTmsH8 hl x n p s
  | .frameHelloH8 hl x n p => Sys2Proof.Machine.execFrameHelloH8 hl x n p s
  | .frameReservedH8 hl op x n p => Sys2Proof.Machine.execFrameReservedH8 hl op x n p s

end Sys2Proof.Machine
end

