-- ==== Sys2Proof/Machine/HostPort.lean ====
section
/-! DEFINITION. What a host access does (10_state.md R20 to R30, 20_memory.md R43, R44, R52; 42_control.md R96). -/

namespace Sys2Proof.Machine

/-- A control-register access must be 32 bits wide at a multiple of 4 (R30 b). -/
def csrAccessOk (width : AccessWidth) (offset : Byte) : Bool := width == .w32 && offset.toNat % 4 == 0

/-- Whether the register at this offset has no fixed value while `BUSY = 1` (R24 to R26, R128). -/
def freeWhileBusy (offset : Byte) : Bool := offset == 0x0C || offset == 0x10 || offset == 0x14

/-- What a 32-bit read at an aligned offset returns (R20 to R30): `CMD` and the reserved offsets read 0. -/
def State.csrValue (offset : Byte) (s : State) : Word :=
  if s.busy && freeWhileBusy offset then Config.busyRead s.draws
  else if offset = 0x04 then s.addr
  else if offset = 0x08 then s.statusWord
  else if offset = 0x0C then s.cursorWord
  else if offset = 0x10 then s.decHdr
  else if offset = 0x14 then s.decInfo
  else if offset = 0x18 then s.faultCmd
  else if offset = 0x1C then s.faultAddr
  else if offset = 0x20 then s.cfg.configWord
  else 0

/-- A read of a register: no register changes (R30 c). A read of `STATUS` that returns `BUSY = 0` is the
synchronization point of R52, which closes the intervals of R43 and R44;
it is one of the conditions of R138. -/
def State.csrRead (offset : Byte) (s : State) : State :=
  { s with
    hostReads := s.hostReads ++ [.csr offset (s.csrValue offset)]
    draws := if s.busy && freeWhileBusy offset then s.draws + 1 else s.draws
    seenIdle := if offset = 0x08 ∧ s.busy = false then true else s.seenIdle
    windows := if offset = 0x08 ∧ s.busy = false then [] else s.windows }

/-- A word is offered (R96): the step of the instruction it is, or its fault. -/
def offerWord (w : Word) (s : State) : Host.Outcome State Fault Refusal :=
  match decodeCommand w with
  | .ok i => exec i { s with cmdPort := some w }
  | .error e => .next (s.offer w (State.raise (Cause.ofDecode e) w))

/-- A 32-bit write at an aligned offset (R20, R22, R23, R30 a): `CMD` offers the word, `ADDR` takes the value,
nothing else changes. -/
def State.csrWrite (offset : Byte) (v : Word) (s : State) : Host.Outcome State Fault Refusal :=
  if offset = 0x00 then offerWord v s
  else if offset = 0x04 then .next { s with addr := v }
  else .next s

/-- Whether an address lies in the destination range of an open interval (R44). -/
def Window.covers (a : Nat) (w : Window) : Bool := w.dst ≤ a && a < w.dst + w.len

/-- The values an address held, and no longer holds, in those of these intervals whose destination it lies in. -/
def coveredHeld (a : Nat) (ws : List Window) : List Byte :=
  (ws.filter (Window.covers a)).flatMap fun w => heldAt w.held a

/-- What the READ.RESP in progress gives an address of its destination: the byte of the answer it waits for, before
which come the answers of the transactions a reset cut off (R44, log 14). -/
def State.arriving (a : Nat) (s : State) : List Byte :=
  match s.windows with
  | [] => []
  | w :: _ =>
    if s.busy && w.covers a then [s.answerByteAt s.abandoned.length (a - w.dst)] else []

/-- What the host sees at an address (R44): what memory holds; in the destination of a READ.RESP, until the host has
seen `BUSY = 0`, any value the byte held in the interval, the received one too (log 13). -/
def State.hostByte (index a : Nat) (s : State) : Byte :=
  chooseHeld s.draws index (s.hmem.read a) (s.arriving a ++ coveredHeld a s.windows)

/-- A host read of memory. -/
def State.hostMemRead (a : Word) (n : Nat) (s : State) : State :=
  { s with
    hostReads := s.hostReads ++ [.mem a ((List.range n).map fun i => s.hostByte i (a.toNat + i))]
    draws := if s.windows = [] then s.draws else s.draws + 1 }

/-- The open intervals whose command is done, its end not yet seen by the host. -/
def State.doneWindows (s : State) : List Window := if s.busy then s.windows.tail else s.windows

/-- What a host write of `bs` at `a` leaves (R131): the bytes; in the destination of a READ.RESP that is done, before
the host has seen `BUSY = 0`, any value the byte was given in the interval (log 13). -/
def State.keptBytes (a : Nat) (bs : List Byte) (s : State) : List Byte :=
  (List.range bs.length).map fun i =>
    if s.doneWindows.any (Window.covers (a + i)) then
      chooseHeld s.draws i (bs.getD i 0) (s.hmem.read (a + i) :: coveredHeld (a + i) s.doneWindows)
    else bs.getD i 0

/-- Before such a write: the open intervals take note of the bytes, which it need not leave. -/
def State.noteWritten (a : Nat) (bs : List Byte) (s : State) : State :=
  if s.doneWindows = [] then s
  else { s with windows := noteHeld a bs s.windows, draws := s.draws + 1 }

/-- The payload bytes of an outstanding flush, where a host write of `bs` at `a`, which leaves `kept` there, lands on
their source: each such byte is the one read before or, freely, the one memory now holds or the one written (R43:
any value held until completion; log 12). -/
def State.lateBytes (a : Nat) (bs kept payload : List Byte) (s : State) : List Byte :=
  (List.range payload.length).map fun i =>
    let x := s.laddr.toNat + i
    if a ≤ x ∧ x < a + bs.length then
      chooseHeld s.draws i (payload.getD i 0) [kept.getD (x - a) 0, bs.getD (x - a) 0]
    else payload.getD i 0

/-- Whether a host write of `n` bytes at `a` lands on the payload source of the flush in progress. -/
def State.hitsPayload (a n : Nat) (s : State) : Bool :=
  a < s.laddr.toNat + s.latchedLen && s.laddr.toNat < a + n

/-- The effect of a host memory write of `bs`, which leaves `kept`, on a flush that is still outstanding (R43; log 12). -/
def State.raceFlush (a : Nat) (bs kept : List Byte) (s : State) : State :=
  match s.phase with
  | .waitOut out =>
    if s.hitsPayload a bs.length then
      let at' := out.length - s.latchedLen
      let p := s.lateBytes a bs kept (out.drop at')
      { s with
        phase := .waitOut (out.take at' ++ p), stage := s.stage.put at' p, draws := s.draws + 1 }
    else s
  | .idle => s
  | .exec => s
  | .waitIn _ => s

/-- A host write of memory. -/
def State.hostMemWrite (a : Word) (bs : List Byte) (s : State) : State :=
  let kept := s.keptBytes a.toNat bs
  ((s.noteWritten a.toNat bs).raceFlush a.toNat bs kept).storeHmem a.toNat kept

/-- One host access. -/
def State.hostOp (op : HostOp) (s : State) : Host.Outcome State Fault Refusal :=
  match op with
  | .csrRead width offset =>
    if csrAccessOk width offset then .next (s.csrRead offset) else .refused .csrAccess
  | .csrWrite width offset v =>
    if csrAccessOk width offset then s.csrWrite offset v else .refused .csrAccess
  | .memRead a n => if s.cfg.inRange a n then .next (s.hostMemRead a n) else .fault .hostOutsideHmem
  | .memWrite a bs =>
    if s.cfg.inRange a bs.length then .next (s.hostMemWrite a bs) else .fault .hostOutsideHmem
  | .reset => .next s.hardReset
  | .session isOpen => .next { s with linkOpen := isOpen }

end Sys2Proof.Machine
end

