-- ==== Sys2Proof/Machine/Agents.lean ====
section
/-! DEFINITION. Whose step it is (00_scope.md R6, R9), and how an instruction comes to be the next one. -/

namespace Sys2Proof.Machine

/-- The FES or the link has an enabled step (R98, R99): a command is in progress, or the answer of a transaction
that a reset cut off is still to come (R123). -/
def State.deviceReady (s : State) : Bool := s.busy || !s.abandoned.isEmpty

/-- The step of the FES or the link. Answers a reset made void arrive first (log 14); then the command in `LCMD`
runs (R98, R99). With nothing in progress there is no step, and the state stays (log 24). -/
def deviceStep (s : State) : Host.Outcome State Fault Refusal :=
  match s.abandoned with
  | x :: rest => .next (State.discardAnswer x { s with abandoned := rest })
  | [] =>
    if s.busy then
      match decodeCommand s.lcmd with
      | .ok i => exec i s
      | .error _ => .fault .latchIllegal
    else .next s

/-- One step of the whole machine: a word on the `CMD` port is handled in its own step (R96); else the host's next
access is made when it is due, and the device moves otherwise (log 5). -/
def nextStep (s : State) : Host.Outcome State Fault Refusal :=
  match s.cmdPort with
  | some w => offerWord w s
  | none =>
    match s.host with
    | [] => deviceStep s
    | h :: rest =>
      if h.after = 0 ∨ s.deviceReady = false then { s with host := rest }.hostOp h.op
      else deviceStep { s with host := { h with after := h.after - 1 } :: rest }

/-- The host's next access waits for one device step more. -/
def holdHost : List HostAccess → List HostAccess
  | [] => []
  | h :: rest => { h with after := h.after + 1 } :: rest

/-- A frame whose opcode byte is `op` and whose other bytes are 0, in the FES's format (log 16). -/
def blankFrame (fmt : HdrFmt) (op : Byte) : List Byte :=
  match fmt with
  | .h4 => [0, op, 0, 0]
  | .h8 => [0, op, 0, 0, 0, 0, 0, 0]

/-- The state whose very next step runs this instruction (log 6, log 16): a command word stands on the `CMD` port;
a frame stands in host memory at `LADDR` with a DECODE in its EXEC step. -/
def State.placeInstr (s : State) (nbits w : Nat) : State :=
  if nbits ≤ 8 then
    { s with
      cmdPort := none, seenIdle := false, host := holdHost s.host, abandoned := [], windows := []
      lcmd := decodeWord, phase := .exec
      hmem := s.hmem.write s.laddr.toNat (blankFrame s.cfg.hdrFmt (BitVec.ofNat 8 w)) }
  else { s with cmdPort := some (BitVec.ofNat 32 w) }

end Sys2Proof.Machine
end

