-- ==== Sys2Proof/Machine/Step.lean ====
section
/-! DEFINITION. The step of the machine (00_scope.md R9). -/

namespace Sys2Proof.Machine

/-- One step: a host access, an EXEC step of the FES, or an answer of the link. -/
def step (s : State) : Host.Outcome State Fault Refusal := nextStep s

/-- `s` with an instruction placed where `step` takes its next one (log 6). -/
def State.withFetchWord (s : State) (nbits w : Nat) : State := s.placeInstr nbits w

end Sys2Proof.Machine
end

