-- ==== Sys2Proof/Machine/HostProgram.lean ====
section
/-! DEFINITION. The written forms of 30_encoding.md: the assembler of the commands (R68, R69), the host programs of the
spec's examples (R70) with their pseudo-instructions (R71), and the disassembly of frames (R72). No part of the
machine's step (log 27). -/

namespace Sys2Proof.Machine

/-! ## The assembler (R69) -/

/-- A line of assembly, `COUNT` being the number written (R69). -/
inductive AsmLine where
  | appendSd (count : Nat)
  | appendTms (count : Nat)
  | appendHello
  | readResp (count : Nat)
  | decode
  | sreset
  deriving DecidableEq, Repr

/-- Why a line is refused. -/
inductive AsmError where
  /-- `COUNT` is outside 0..65535 (R69). -/
  | countOutOfRange
  /-- No mnemonic of R69 with these operands. -/
  | badSyntax
  deriving DecidableEq, Repr

/-- The word with this `COUNT` above these low 16 bits, refused where `COUNT` has no 16-bit form (R69). -/
def countedWord (count low : Nat) : Except AsmError Word :=
  if count ≤ 65535 then .ok (BitVec.ofNat 32 (count * 65536 + low)) else .error .countOutOfRange

/-- The word a line assembles to (R69). -/
def assemble : AsmLine → Except AsmError Word
  | .appendSd n => countedWord n 0x0001
  | .appendTms n => countedWord n 0x0101
  | .appendHello => .ok 0x0000FF01
  | .readResp k => countedWord k 0x0002
  | .decode => .ok 0x00000003
  | .sreset => .ok 0x0000000F

/-- The largest bit count an APPEND into an empty buffer can have (R68). -/
def maxCount (fmt : HdrFmt) : Nat := 8 * (Config.stageCap - fmt.hsz)

/-- Whether the assembler warns that every run of this line faults (R68, R69). -/
def AsmLine.warns (fmt : HdrFmt) : AsmLine → Bool
  | .appendSd n => maxCount fmt < n
  | .appendTms n => maxCount fmt < n
  | .appendHello => false
  | .readResp _ => false
  | .decode => false
  | .sreset => false

/-- The value of a digit in base 10 or 16. -/
def digitValue (c : Char) : Option Nat :=
  if '0' ≤ c ∧ c ≤ '9' then some (c.toNat - 48)
  else if 'A' ≤ c ∧ c ≤ 'F' then some (c.toNat - 55)
  else if 'a' ≤ c ∧ c ≤ 'f' then some (c.toNat - 87)
  else none

/-- The number with these digits behind the value read so far. -/
def digitsFrom (base : Nat) : Nat → List Char → Option Nat
  | acc, [] => some acc
  | acc, c :: cs =>
    match digitValue c with
    | some d => if d < base then digitsFrom base (acc * base + d) cs else none
    | none => none

/-- A decimal or `0x` hexadecimal number (R69). -/
def parseNumber : List Char → Option Nat
  | [] => none
  | '0' :: 'x' :: [] => none
  | '0' :: 'x' :: c :: cs => digitsFrom 16 0 (c :: cs)
  | c :: cs => digitsFrom 10 0 (c :: cs)

/-- A line, from its mnemonic and its operands (R69). -/
def parseLine (mnemonic : String) (operands : List String) : Except AsmError AsmLine :=
  match operands with
  | [] =>
    if mnemonic = "append.hello" then .ok .appendHello
    else if mnemonic = "decode" then .ok .decode
    else if mnemonic = "sreset" then .ok .sreset
    else .error .badSyntax
  | [c] =>
    match parseNumber c.toList with
    | none => .error .badSyntax
    | some n =>
      if mnemonic = "append.sd" then .ok (.appendSd n)
      else if mnemonic = "append.tms" then .ok (.appendTms n)
      else if mnemonic = "read.resp" then .ok (.readResp n)
      else .error .badSyntax
  | _ :: _ :: _ => .error .badSyntax

/-! ## Host programs (R70, R71) -/

/-- The control registers by name (R20). -/
inductive Csr where
  | cmd
  | addr
  | status
  | cursor
  | decHdr
  | decInfo
  | faultCmd
  | faultAddr
  | config
  deriving DecidableEq, Repr

/-- The offset of a control register (R20). -/
def Csr.offset : Csr → Byte
  | .cmd => 0x00
  | .addr => 0x04
  | .status => 0x08
  | .cursor => 0x0C
  | .decHdr => 0x10
  | .decInfo => 0x14
  | .faultCmd => 0x18
  | .faultAddr => 0x1C
  | .config => 0x20

/-- A host expression: a number, a host variable, arithmetic (R12), or the field `e[hi:lo]` (R11). -/
inductive HostExpr where
  | num (n : Nat)
  | var (x : String)
  | add (x y : HostExpr)
  | sub (x y : HostExpr)
  | mul (x y : HostExpr)
  | div (x y : HostExpr)
  | field (x : HostExpr) (hi lo : Nat)
  deriving DecidableEq, Repr

/-- A label: a name, or a number, to which `1b` branches backward (R70, R71). -/
inductive HostLabel where
  | name (x : String)
  | number (n : Nat)
  deriving DecidableEq, Repr

/-- A host-side instruction (R70); `command` is a mnemonic of R69 written alone. DESIGN CHOICE (log 27): the bytes of
`memw` are written out as numbers; R70 does not say whether they may be host values. -/
inductive HostInstr where
  | csrw (reg : Csr) (v : HostExpr)
  | command (line : AsmLine)
  | csrr (reg : Csr) (t : String)
  | memw (a : HostExpr) (bytes : List Byte)
  | memr (a n : HostExpr) (t : String)
  | label (l : HostLabel)
  | bnz (t : String) (k : Nat) (dest : HostLabel)
  | beq (x y : HostExpr) (dest : HostLabel)
  | bne (x y : HostExpr) (dest : HostLabel)
  | b (dest : HostLabel)
  | assign (x : String) (e : HostExpr)
  deriving DecidableEq, Repr

/-- A pseudo-instruction (R71). -/
inductive Pseudo where
  | wait
  | sd (n : Nat) (a : HostExpr)
  | tms (n : Nat) (a : HostExpr)
  | hello
  | resp (k : Nat) (a : HostExpr)
  | scan (n : Nat) (src dst : HostExpr)
  | flush
  | dec (a : HostExpr)
  deriving DecidableEq, Repr

/-- `wait`: poll until `BUSY = 0` (R71). -/
def expandWait : List HostInstr := [.label (.number 1), .csrr .status "t", .bnz "t" 0 (.number 1)]

/-- `csrw ADDR, a ; <command> ; wait` (R71). -/
def expandAt (a : HostExpr) (line : AsmLine) : List HostInstr :=
  [.csrw .addr a, .command line] ++ expandWait

/-- The expansion of a pseudo-instruction (R71). -/
def Pseudo.expand : Pseudo → List HostInstr
  | .wait => expandWait
  | .sd n a => expandAt a (.appendSd n)
  | .tms n a => expandAt a (.appendTms n)
  | .hello => [.command .appendHello] ++ expandWait
  | .resp k a => expandAt a (.readResp k)
  | .scan n src dst => expandAt src (.appendSd n) ++ expandAt dst (.readResp (ceil8 n))
  | .flush => expandAt (.num 0) (.appendSd 0)
  | .dec a => expandAt a .decode

/-- What a host variable holds: a number, or the bytes `memr` read. -/
inductive HostValue where
  | num (n : Nat)
  | bytes (bs : List Byte)
  deriving DecidableEq, Repr

/-- A host program being run: its text, its place, its variables. -/
structure HostRun where
  prog : List HostInstr
  pc : Nat
  vars : List (String × HostValue)
  deriving DecidableEq, Repr

/-- The number an expression is; none where the spec gives it no value (an unset variable, a difference below 0, a
division by 0, an empty field). DESIGN CHOICE (log 27): the bytes `memr` read are no number, so arithmetic, a
field, an address, a count or a `bnz` of them leaves the program stuck. -/
def HostExpr.eval (vars : List (String × HostValue)) : HostExpr → Option Nat
  | .num n => some n
  | .var x =>
    match vars.lookup x with
    | some (.num n) => some n
    | some (.bytes _) => none
    | none => none
  | .add x y => do return (← x.eval vars) + (← y.eval vars)
  | .sub x y => do
    let m ← x.eval vars
    let n ← y.eval vars
    if n ≤ m then return m - n else none
  | .mul x y => do return (← x.eval vars) * (← y.eval vars)
  | .div x y => do
    let m ← x.eval vars
    let n ← y.eval vars
    if n = 0 then none else return m / n
  | .field x hi lo => do
    let m ← x.eval vars
    if lo ≤ hi then return m / 2 ^ lo % 2 ^ (hi - lo + 1) else none

/-- The host value of an expression (R70): a variable's own, the bytes `memr` read too; else the number it is. -/
def HostExpr.value (vars : List (String × HostValue)) (e : HostExpr) : Option HostValue :=
  match e with
  | .var x => vars.lookup x
  | .num _ | .add _ _ | .sub _ _ | .mul _ _ | .div _ _ | .field _ _ _ => do return .num (← e.eval vars)

/-- Whether two host values are equal (R70). DESIGN CHOICE (log 27): a number and bytes are not compared. -/
def HostValue.same : HostValue → HostValue → Option Bool
  | .num m, .num n => some (m == n)
  | .bytes xs, .bytes ys => some (xs == ys)
  | .num _, .bytes _ => none
  | .bytes _, .num _ => none

/-- A value that fits a 32-bit field (R12). -/
def wordOfNat? (n : Nat) : Option Word := if n < 2 ^ 32 then some (BitVec.ofNat 32 n) else none

/-- The access the instruction at the host's place makes; `some none` where it makes none. -/
def HostRun.access (h : HostRun) : HostInstr → Option (Option HostOp)
  | .csrw reg v => do
    let w ← wordOfNat? (← v.eval h.vars)
    return some (.csrWrite .w32 reg.offset w)
  | .command line => do return some (.csrWrite .w32 0x00 (← (assemble line).toOption))
  | .csrr reg _ => some (some (.csrRead .w32 reg.offset))
  | .memw a bytes => do
    let w ← wordOfNat? (← a.eval h.vars)
    return some (.memWrite w bytes)
  | .memr a n _ => do
    let w ← wordOfNat? (← a.eval h.vars)
    return some (.memRead w (← n.eval h.vars))
  | .label _ => some none
  | .bnz _ _ _ => some none
  | .beq _ _ _ => some none
  | .bne _ _ _ => some none
  | .b _ => some none
  | .assign _ _ => some none

/-- The index of the first instruction that is this label. -/
def labelIndex (l : HostLabel) : List HostInstr → Option Nat
  | [] => none
  | i :: is => if i = .label l then some 0 else (labelIndex l is).map (· + 1)

/-- Where a branch to a label goes: a name anywhere, a number backward (R70, R71). DESIGN CHOICE (log 27): where a program
has the same label more than once, a name is its first place in the program and a number its nearest place behind
the branch; the spec does not say. -/
def HostRun.target (h : HostRun) (l : HostLabel) : Option Nat :=
  match l with
  | .name _ => labelIndex l h.prog
  | .number _ => (labelIndex l (h.prog.take h.pc).reverse).map fun k => h.pc - 1 - k

/-- The host at its next instruction. -/
def HostRun.advance (h : HostRun) : HostRun := { h with pc := h.pc + 1 }

/-- The host with a variable set. -/
def HostRun.set (h : HostRun) (x : String) (v : HostValue) : HostRun := { h with vars := (x, v) :: h.vars }

/-- A branch: taken or not. -/
def HostRun.branch (h : HostRun) (taken : Bool) (l : HostLabel) : Option HostRun :=
  if taken then do return { h with pc := ← h.target l } else some h.advance

/-- The host after an instruction, `seen` being what its read returned. -/
def HostRun.after (h : HostRun) (seen : Option HostRead) : HostInstr → Option HostRun
  | .csrw _ _ => some h.advance
  | .command _ => some h.advance
  | .csrr _ t =>
    match seen with
    | some (.csr _ v) => some (h.set t (.num v.toNat)).advance
    | some (.mem _ _) => none
    | none => none
  | .memw _ _ => some h.advance
  | .memr _ _ t =>
    match seen with
    | some (.mem _ bs) => some (h.set t (.bytes bs)).advance
    | some (.csr _ _) => none
    | none => none
  | .label _ => some h.advance
  | .bnz t k l => do h.branch (((← (HostExpr.var t).eval h.vars) / 2 ^ k) % 2 == 1) l
  | .beq x y l => do h.branch (← HostValue.same (← x.value h.vars) (← y.value h.vars)) l
  | .bne x y l => do h.branch (!(← HostValue.same (← x.value h.vars) (← y.value h.vars))) l
  | .b l => h.branch true l
  | .assign x e => do return (h.set x (← e.value h.vars)).advance

/-- What the host's turn comes to. -/
inductive HostTurn where
  /-- The program is over. -/
  | ended
  /-- The instruction has no meaning (a value that does not fit, bytes where a number is asked for, a label that is not
  there; log 27). -/
  | stuck
  /-- The host and the machine after the instruction. -/
  | next (h : HostRun) (s : State)
  /-- The machine stopped at the instruction's access. -/
  | fault (f : Fault)
  /-- The machine refused the instruction's access. -/
  | refused (r : Refusal)
  deriving DecidableEq, Repr

/-- One instruction of a host program, beside the machine in state `s` (R70). -/
def hostTurn (h : HostRun) (s : State) : HostTurn :=
  match h.prog[h.pc]? with
  | none => .ended
  | some i =>
    match h.access i with
    | none => .stuck
    | some none =>
      match h.after none i with
      | none => .stuck
      | some h' => .next h' s
    | some (some op) =>
      match s.hostOp op with
      | .fault f => .fault f
      | .refused r => .refused r
      | .next t =>
        match h.after t.hostReads.getLast? i with
        | none => .stuck
        | some h' => .next h' t

/-! ## Disassembly of frames (R72) -/

/-- A hexadecimal digit. -/
def hexDigit (n : Nat) : Char := if n < 10 then Char.ofNat (48 + n) else Char.ofNat (55 + n)

/-- A byte in two hexadecimal digits. -/
def hexByte (b : Byte) : String := String.ofList [hexDigit (b.toNat / 16), hexDigit (b.toNat % 16)]

/-- Byte texts with a space between them. -/
def spaced : List String → String
  | [] => ""
  | [x] => x
  | x :: y :: ys => x ++ " " ++ spaced (y :: ys)

/-- ` N` and the payload in braces (R72). -/
def payloadText (n : Half) (p : List Byte) : String :=
  " " ++ toString n.toNat ++ " " ++ String.ofList [Char.ofNat 123] ++ spaced (p.map hexByte)
    ++ String.ofList [Char.ofNat 125]

/-- The text of a parsed wire frame (R72); a command has none. -/
def disassemble : Instr → Option String
  | .frameSdH4 _ n p => some ("sd" ++ payloadText n p)
  | .frameTmsH4 _ n p => some ("tms" ++ payloadText n p)
  | .frameHelloH4 _ _ _ => some "hello"
  | .frameReservedH4 _ op n p => some ("frame.0x" ++ hexByte op ++ payloadText n p)
  | .frameSdH8 _ _ n p => some ("sd" ++ payloadText n p)
  | .frameTmsH8 _ _ n p => some ("tms" ++ payloadText n p)
  | .frameHelloH8 _ _ _ _ => some "hello"
  | .frameReservedH8 _ op _ n p => some ("frame.0x" ++ hexByte op ++ payloadText n p)
  | .appendSd _ => none
  | .appendTms _ => none
  | .appendHello => none
  | .readResp _ => none
  | .decode => none
  | .sreset => none

end Sys2Proof.Machine
end

