-- ==== Sys2Proof/Safety.lean ====
section
/-! DEFINITION. What the statements about the machine are made of: the observation of a run and its fault outcomes
(60_exceptions.md R121, 70_reset_and_hazards.md R138), and the invariants of the state. -/

namespace Sys2Proof.Machine

/-- A state that a fault has halted (R97): `STATUS.FAULT = 1`. -/
abbrev State.Halted (s : State) : Prop := s.fault = true

/-- A run of `n` steps leads from `s` to `t`. -/
def State.RunsTo : Nat → State → State → Prop
  | 0, s, t => t = s
  | n + 1, s, t => ∃ u, step s = .next u ∧ State.RunsTo n u t

/-- A fault outcome (R121): in a run of `n` steps `STATUS.FAULT = 1` has been reached, at its end or before. -/
def State.FaultOutcome (n : Nat) (s : State) : Prop := ∃ m u, m ≤ n ∧ s.RunsTo m u ∧ u.Halted

/-- The end of a run (R138): the host has written its last word to `CMD` and made its last access, and it has read
`STATUS` with `BUSY = 0` since a command was last accepted. A word that was refused and an SRESET start nothing and need
no later read (log 21). -/
abbrev State.Finished (s : State) : Prop := s.host = [] ∧ s.cmdPort = none ∧ s.seenIdle = true

/-- A run of `n` steps that succeeds (R121, R138): it ends, and no state on its way is halted. -/
def State.SucceedsAt (n : Nat) (s t : State) : Prop := s.RunsTo n t ∧ t.Finished ∧ ¬ s.FaultOutcome n

/-- What a run shows (R138): the OUT stream, the IN stream, host memory and the control registers; and the
transactions that a reset cut off and whose answer has not come (log 21). -/
structure Observation where
  outStream : List OutRecord
  inStream : List InRecord
  unanswered : List LinkTxn
  hmem : Memory
  registers : List Word
  deriving DecidableEq, Repr

/-- The observation of a state whose command is done (R138). -/
def State.observation (s : State) : Observation :=
  { outStream := s.outStream, inStream := s.inStream, unanswered := s.abandoned, hmem := s.hmem
    registers :=
      [s.addr, s.statusWord, s.cursorWord, s.decHdr, s.decInfo, s.faultCmd, s.faultAddr,
        s.cfg.configWord] }

/-- The fault registers say nothing while no fault is recorded, and a cause while one is (R21, R27, R28). -/
abbrev State.FaultRegistersOk (s : State) : Prop :=
  (s.fault = false → s.cause = .none ∧ s.faultCmd = 0 ∧ s.faultAddr = 0) ∧
    (s.fault = true → s.cause ≠ .none)

/-- The cursor stays in `0..4096` (R32, R37). -/
abbrev State.CursorOk (s : State) : Prop := s.cur.toNat ≤ Config.stageCap

/-- The reserved bits of the decode result registers read 0, and `DVALID` is 1 exactly when the four flags are 0,
once a DECODE has completed (R26, I26). -/
abbrev State.DecInfoOk (s : State) : Prop :=
  s.decInfo.extractLsb' 21 11 = 0 ∧ s.decInfo.extractLsb' 14 2 = 0

/-- Host memory is in the canonical form and lies inside `0..HMEM_SIZE-1` (R41). -/
abbrev State.HmemOk (s : State) : Prop :=
  s.hmem.wf = true ∧ ∀ c ∈ s.hmem, c.1 < s.cfg.hmemSize

/-- What acceptance establishes of a command for its EXEC step (R96): its frame fits, its host memory range is in
range. SRESET and frames are never latched. -/
def State.LatchFits (s : State) : Instr → Prop
  | .appendSd n =>
    s.cur.toNat + s.cfg.hdrFmt.frameLen n ≤ Config.stageCap ∧
      s.cfg.inRange s.laddr (ceil8 n.toNat) = true
  | .appendTms n =>
    s.cur.toNat + s.cfg.hdrFmt.frameLen n ≤ Config.stageCap ∧
      s.cfg.inRange s.laddr (ceil8 n.toNat) = true
  | .appendHello => s.cur.toNat + s.cfg.hdrFmt.hsz ≤ Config.stageCap
  | .readResp k => s.cfg.inRange s.laddr k.toNat = true
  | .decode => s.cfg.inRange s.laddr s.cfg.hdrFmt.hsz = true
  | .sreset => False
  | .frameSdH4 _ _ _ => False
  | .frameTmsH4 _ _ _ => False
  | .frameHelloH4 _ _ _ => False
  | .frameReservedH4 _ _ _ _ => False
  | .frameSdH8 _ _ _ _ => False
  | .frameTmsH8 _ _ _ _ => False
  | .frameHelloH8 _ _ _ _ => False
  | .frameReservedH8 _ _ _ _ _ => False

/-- What holds of the command in progress, for the rest of that command (R96): in EXEC, what acceptance has
established; a pending flush is an APPEND.SD's, of the bytes `STAGE[0..CUR)`, its payload the last of them
(R37, R80); a pending read is the READ.RESP's own, its destination in range (R88). -/
def State.LatchOk (s : State) : Prop :=
  match s.phase with
  | .idle => True
  | .exec => ∃ i, decodeCommand s.lcmd = .ok i ∧ s.LatchFits i
  | .waitOut bytes =>
    bytes = s.stageBytes s.cur.toNat ∧
      ∃ n : Half, decodeCommand s.lcmd = .ok (.appendSd n) ∧ ceil8 n.toNat ≤ s.cur.toNat
  | .waitIn m =>
    ∃ k : Half, decodeCommand s.lcmd = .ok (.readResp k) ∧ m = k.toNat ∧
      s.cfg.inRange s.laddr k.toNat = true

/-- Once the host has read `BUSY = 0`, nothing is in progress until a command is accepted again (R52). -/
abbrev State.SeenIdleOk (s : State) : Prop := s.seenIdle = true → s.busy = false

/-- The invariant of the machine. -/
def State.Inv (s : State) : Prop :=
  s.CursorOk ∧ s.FaultRegistersOk ∧ s.DecInfoOk ∧ s.HmemOk ∧ s.LatchOk ∧ s.SeenIdleOk

/-- Two states that agree on everything but the bytes of `STAGE` at or past the cursor (R31). -/
def State.AgreesUpToStage (s t : State) : Prop :=
  t = { s with stage := t.stage, stageEpoch := t.stageEpoch } ∧
    ∀ i < s.cur.toNat, t.stageByte i = s.stageByte i

/-- The values that a byte of a command's host memory source may be read as (R43): what memory holds now, and
what the host has displaced since the command's acceptance. -/
def State.sourceValues (s : State) (a : Nat) : List Byte := s.hmem.read a :: heldAt s.displaced a

/-- The values a host read may return for a byte (R44): what memory holds; in the destination of a READ.RESP whose end
the host has not seen, what the byte held in the interval too, and the byte that is to arrive. -/
def State.visibleValues (s : State) (a : Nat) : List Byte :=
  s.hmem.read a :: (s.arriving a ++ coveredHeld a s.windows)

/-- The address lies in the destination of a READ.RESP that is done, its end not yet seen by the host (R131). -/
abbrev State.Unseen (s : State) (a : Nat) : Prop := ∃ w ∈ s.doneWindows, w.covers a = true

/-- A link transaction is outstanding (R36). -/
abbrev State.Waiting (s : State) : Prop := s.phase ≠ .idle ∧ s.phase ≠ .exec

/-- The host writes `a` to `ADDR` and the command `i` to `CMD`; the FES accepts it, and its EXEC step leads to `t`. -/
def State.RunsCommand (s : State) (i : Instr) (a : Word) (t : State) : Prop :=
  ∃ w u, encode i = .word w ∧ exec i { s with addr := a, cmdPort := some w } = .next u ∧
    u.phase = .exec ∧ exec i u = .next t

/-- The same for commands one after another. -/
def State.RunsBatch : State → List (Instr × Word) → State → Prop
  | s, [], t => t = s
  | s, c :: cs, t => ∃ u, s.RunsCommand c.1 c.2 u ∧ State.RunsBatch u cs t

/-- The frame of an APPEND whose payload stands in host memory at `a` (R74, R76). -/
def State.frameOf (s : State) (i : Instr) (a : Word) : List Byte :=
  match i with
  | .appendSd n => s.cfg.encodeFrame 0x00 n (s.hmem.readBlock a.toNat (ceil8 n.toNat))
  | .appendTms n => s.cfg.encodeFrame 0x01 n (s.hmem.readBlock a.toNat (ceil8 n.toNat))
  | .appendHello => s.cfg.encodeFrame 0xFF 0 []
  | _ => []

/-- What R96 asks of an open FES before it accepts a command: capacity (R79), then the host memory range (R42). -/
def State.Acceptable (s : State) : Instr → Prop
  | .appendSd n =>
    s.cur.toNat + s.cfg.hdrFmt.hsz + ceil8 n.toNat ≤ 4096 ∧
      (ceil8 n.toNat = 0 ∨ s.addr.toNat + ceil8 n.toNat ≤ s.cfg.hmemSize)
  | .appendTms n =>
    s.cur.toNat + s.cfg.hdrFmt.hsz + ceil8 n.toNat ≤ 4096 ∧
      (ceil8 n.toNat = 0 ∨ s.addr.toNat + ceil8 n.toNat ≤ s.cfg.hmemSize)
  | .appendHello => s.cur.toNat + s.cfg.hdrFmt.hsz ≤ 4096
  | .readResp k => k = 0 ∨ s.addr.toNat + k.toNat ≤ s.cfg.hmemSize
  | .decode => s.addr.toNat + s.cfg.hdrFmt.hsz ≤ s.cfg.hmemSize
  | _ => False

/-- `t` is `s` with the frame `f` staged (R78): its bytes at the cursor, every other byte of `STAGE` as it was, the
cursor past it; besides `STAGE`, `CUR`, `PHASE`, the note of the session a flush is issued in (log 8) and the count of
free values drawn, nothing changes, and so no byte of host memory. -/
def State.Staged (s : State) (f : List Byte) (t : State) : Prop :=
  t.cur.toNat = s.cur.toNat + f.length ∧
    (∀ i < f.length, t.stageByte (s.cur.toNat + i) = f.getD i 0) ∧
    (∀ i, (i < s.cur.toNat ∨ s.cur.toNat + f.length ≤ i) → t.stageByte i = s.stageByte i) ∧
    t = { s with
      stage := t.stage, cur := t.cur, phase := t.phase, issuedOpen := t.issuedOpen, draws := t.draws } ∧
    ∀ a, t.hmem.read a = s.hmem.read a

/-- `DEC_HDR` and `DEC_INFO` of `t` report a header with these fields, on an FES with parameters `p`, field by field
and bit by bit as R25 and R26 lay them out. -/
def State.Reports (t : State) (p : Params) (h : Header) : Prop :=
  t.decHdr.extractLsb' 0 8 = h.headerLen ∧
    t.decHdr.extractLsb' 8 8 = h.opcode ∧
    t.decHdr.extractLsb' 16 16 = h.bitCount ∧
    (t.decInfo.extractLsb' 0 14).toNat = ceil8 h.bitCount.toNat ∧
    t.decInfo.extractLsb' 14 2 = 0 ∧
    (t.decInfo.getLsbD 17 = true ↔ h.headerLen.toNat ≠ (p.hdrFmt.hsz + ceil8 h.bitCount.toNat) % 256) ∧
    (t.decInfo.getLsbD 18 = true ↔ h.opcode ≠ 0x00 ∧ h.opcode ≠ 0x01 ∧ h.opcode ≠ 0xFF) ∧
    (t.decInfo.getLsbD 19 = true ↔ h.opcode = 0xFF ∧ h.bitCount ≠ 0) ∧
    (t.decInfo.getLsbD 20 = true ↔
      p.hdrFmt = .h8 ∧ h.filler ≠ some ⟨p.r1, p.r2, p.dup h.opcode, p.ex h.opcode⟩) ∧
    (t.decInfo.getLsbD 16 = true ↔
      t.decInfo.getLsbD 17 = false ∧ t.decInfo.getLsbD 18 = false ∧ t.decInfo.getLsbD 19 = false ∧
        t.decInfo.getLsbD 20 = false) ∧
    t.decInfo.extractLsb' 21 11 = 0

/-- The header a wire frame carries. -/
def frameHeader : Instr → Option Header
  | .frameSdH4 hl n _ => some ⟨hl, 0x00, none, n⟩
  | .frameTmsH4 hl n _ => some ⟨hl, 0x01, none, n⟩
  | .frameHelloH4 hl n _ => some ⟨hl, 0xFF, none, n⟩
  | .frameReservedH4 hl op n _ => some ⟨hl, op, none, n⟩
  | .frameSdH8 hl x n _ => some ⟨hl, 0x00, some x, n⟩
  | .frameTmsH8 hl x n _ => some ⟨hl, 0x01, some x, n⟩
  | .frameHelloH8 hl x n _ => some ⟨hl, 0xFF, some x, n⟩
  | .frameReservedH8 hl op x n _ => some ⟨hl, op, some x, n⟩
  | _ => none

/-- The host asserts reset in this step. -/
def State.ResetDue (s : State) : Prop :=
  s.cmdPort = none ∧
    ∃ a rest, s.host = a :: rest ∧ a.op = .reset ∧ (a.after = 0 ∨ s.deviceReady = false)

/-- The host offers the word `w` in this step. -/
def State.OfferDue (s : State) (w : Word) : Prop :=
  s.cmdPort = some w ∨
    (s.cmdPort = none ∧
      ∃ a rest, s.host = a :: rest ∧ a.op = .csrWrite .w32 0x00 w ∧ (a.after = 0 ∨ s.deviceReady = false))

end Sys2Proof.Machine
end

