-- ==== Sys2Proof/Certificates/Slice0/Obligations.lean ====
section
/-! DEFINITION. The statements for the provers. Each follows a rule of spec/ (see OBLIGATIONS.json); none is about a
program. -/

open Sys2Proof Sys2Proof.Machine

/-! ## The two languages -/

/-- R57, R58, R65: the code of a well-formed instruction, command or frame, decodes to that instruction, with
every operand at every value. -/
def Obligations.DecodeReadsBackEveryEncoding : Prop :=
  ∀ (i : Instr) (fmt : HdrFmt), i.wellFormed = true → (i.format = none ∨ i.format = some fmt) →
    decode fmt (encode i) = .ok i

/-- R63, R65: a word that is a command is that command's own word: no other word means the same. -/
def Obligations.EveryCommandHasOneWord : Prop :=
  ∀ (w : Word) (i : Instr), decodeCommand w = .ok i → encode i = .word w

/-- R61: the concatenation of well-formed frames of one format parses to exactly those frames, in order. -/
def Obligations.FrameStreamsParseBack : Prop :=
  ∀ (fmt : HdrFmt) (frames : List Instr),
    (∀ i ∈ frames, i.wellFormed = true ∧ i.format = some fmt) →
    decodeStream fmt (frames.flatMap fun i => (encode i).bytes) = .ok frames

/-- R65, R67 and 95_test_vectors.md V4: words written out by hand. -/
def Obligations.SpecWordsDecodeAsListed : Prop :=
  decodeCommand 0x00080001 = .ok (.appendSd 8) ∧
    decodeCommand 0xFFFF0101 = .ok (.appendTms 65535) ∧
    decodeCommand 0x0000FF01 = .ok .appendHello ∧
    decodeCommand 0x00010002 = .ok (.readResp 1) ∧
    decodeCommand 0x00000003 = .ok .decode ∧
    decodeCommand 0x0000000F = .ok .sreset ∧
    decodeCommand 0x00000000 = .error .illegalCommand ∧
    decodeCommand 0x0000FE01 = .error .illegalOpcode ∧
    decodeCommand 0x0001FF01 = .error .helloPayload ∧
    decodeCommand 0x00000211 = .error .illegalCommand ∧
    decode .h4 (.wire [0x05, 0x00, 0x08, 0x00, 0xA5]) = .ok (.frameSdH4 0x05 8 [0xA5]) ∧
    decode .h4 (.wire [0x05, 0x02, 0x08, 0x00, 0xA5]) = .ok (.frameReservedH4 0x05 0x02 8 [0xA5])

/-- R69, R68: the word each line of assembly gives, and that it decodes to the command the line names; a `COUNT` above
65535 is refused; a warning goes with an APPEND that no empty buffer can take. -/
def Obligations.AssemblyGivesTheListedWords : Prop :=
  (∀ n : Nat, n ≤ 65535 →
    (∃ w : Word, assemble (.appendSd n) = .ok w ∧ w.toNat = n * 65536 + 0x0001 ∧
        decodeCommand w = .ok (.appendSd (BitVec.ofNat 16 n))) ∧
      (∃ w : Word, assemble (.appendTms n) = .ok w ∧ w.toNat = n * 65536 + 0x0101 ∧
        decodeCommand w = .ok (.appendTms (BitVec.ofNat 16 n))) ∧
      ∃ w : Word, assemble (.readResp n) = .ok w ∧ w.toNat = n * 65536 + 0x0002 ∧
        decodeCommand w = .ok (.readResp (BitVec.ofNat 16 n))) ∧
    (∀ n : Nat, 65535 < n → ∀ l : AsmLine, (l = .appendSd n ∨ l = .appendTms n ∨ l = .readResp n) →
      assemble l = .error .countOutOfRange) ∧
    assemble .appendHello = .ok 0x0000FF01 ∧ assemble .decode = .ok 0x00000003 ∧
    assemble .sreset = .ok 0x0000000F ∧
    (∀ n : Nat, ∀ l : AsmLine, (l = .appendSd n ∨ l = .appendTms n) →
      (l.warns .h4 = true ↔ 32736 < n) ∧ (l.warns .h8 = true ↔ 32704 < n))

/-- R57, R58, R59: the frame the FES builds, byte by byte, in each format; `header_len` is the frame's length
modulo 256. -/
def Obligations.FramesHaveTheirLayout : Prop :=
  ∀ (p : Params) (op : Byte) (n : Half) (payload : List Byte),
    (p.hdrFmt = .h4 →
      p.encodeFrame op n payload =
        [BitVec.ofNat 8 (4 + ceil8 n.toNat), op, n.extractLsb' 0 8, n.extractLsb' 8 8] ++ payload) ∧
    (p.hdrFmt = .h8 →
      p.encodeFrame op n payload =
        [BitVec.ofNat 8 (8 + ceil8 n.toNat), op, p.r1, p.r2, p.dup op, p.ex op, n.extractLsb' 0 8,
          n.extractLsb' 8 8] ++ payload)

/-! ## Which instruction a step runs -/

/-- R96, R98, R99: a word on the `CMD` port, a due host write to `CMD`, and a latched command are run by `exec` of
the command they decode to; around it the step only takes the host's access from the list or lets it wait one device
step less. That the host is a list of accesses is the model's choice (log 5, log 6). -/
def Obligations.StepRunsTheDecodedCommand : Prop :=
  (∀ (s : State) (w : Word) (i : Instr), s.cmdPort = some w → decodeCommand w = .ok i →
      step s = exec i s) ∧
    (∀ (s : State) (a : HostAccess) (rest : List HostAccess) (w : Word) (i : Instr),
      s.cmdPort = none → s.host = a :: rest → (a.after = 0 ∨ s.deviceReady = false) →
      a.op = .csrWrite .w32 0x00 w → decodeCommand w = .ok i →
      step s = exec i { s with host := rest, cmdPort := some w }) ∧
    (∀ (s : State) (i : Instr), s.cmdPort = none → s.host = [] → s.abandoned = [] → s.busy = true →
      decodeCommand s.lcmd = .ok i → step s = exec i s) ∧
    (∀ (s : State) (a : HostAccess) (rest : List HostAccess) (i : Instr),
      s.cmdPort = none → s.host = a :: rest → a.after ≠ 0 → s.abandoned = [] → s.busy = true →
      decodeCommand s.lcmd = .ok i →
      step s = exec i { s with host := { a with after := a.after - 1 } :: rest })

/-- R9: a due host access, whatever it is (a register or memory access, reset, a session change), is made by the step,
which does nothing else; with none due the step is the device's. That the host is a list of accesses is the
model's choice (log 5). -/
def Obligations.DueHostAccessesAreMade : Prop :=
  (∀ (s : State) (a : HostAccess) (rest : List HostAccess), s.cmdPort = none → s.host = a :: rest →
    (a.after = 0 ∨ s.deviceReady = false) → step s = ({ s with host := rest } : State).hostOp a.op) ∧
  (∀ (s : State) (a : HostAccess) (rest : List HostAccess), s.cmdPort = none → s.host = a :: rest →
    a.after ≠ 0 → s.deviceReady = true →
    step s = deviceStep { s with host := { a with after := a.after - 1 } :: rest }) ∧
  ∀ s : State, s.cmdPort = none → s.host = [] → step s = deviceStep s

/-- R61, R92: the EXEC step of a DECODE at whose `LADDR` a frame's header stands is the step of that frame. That
this is a frame row's meaning is the model's choice (log 15). -/
def Obligations.DecodeStepRunsTheFrameItReads : Prop :=
  ∀ (s : State) (i : Instr), s.cmdPort = none → s.phase = .exec → s.lcmd = 0x00000003 →
    s.displaced = [] → s.cfg.inRange s.laddr s.cfg.hdrFmt.hsz = true →
    i.format = some s.cfg.hdrFmt →
    (∀ k < s.cfg.hdrFmt.hsz, s.hmem.read (s.laddr.toNat + k) = (encode i).bytes.getD k 0) →
    exec .decode s = exec i s

/-- R60, R74, R78, R80: the EXEC step of an APPEND is the step of the frame it builds. That this is a frame row's
meaning is the model's choice (log 15). -/
def Obligations.AppendStepRunsTheFrameItBuilds : Prop :=
  ∀ (s : State) (n : Half) (p : List Byte), s.cmdPort = none → s.phase = .exec → s.displaced = [] →
    s.cfg.inRange s.laddr (ceil8 n.toNat) = true → p = s.hmem.readBlock s.laddr.toNat (ceil8 n.toNat) →
    (s.lcmd = appendWord 0x00 n →
      exec (.appendSd n) s =
        exec (frameInstr ⟨u8 (s.cfg.hdrFmt.frameLen n), 0x00, s.cfg.fillerFor 0x00, n⟩ p) s) ∧
    (s.lcmd = appendWord 0x01 n →
      exec (.appendTms n) s =
        exec (frameInstr ⟨u8 (s.cfg.hdrFmt.frameLen n), 0x01, s.cfg.fillerFor 0x01, n⟩ p) s) ∧
    (s.lcmd = appendWord 0xFF 0 → n = 0 →
      exec .appendHello s =
        exec (frameInstr ⟨u8 (s.cfg.hdrFmt.frameLen n), 0xFF, s.cfg.fillerFor 0xFF, n⟩ p) s)

/-! ## Acceptance and faults -/

/-- R96: an open FES accepts each of the five latched commands where its checks hold; it latches the word and
`ADDR`, clears `LINK_ERR`, and `BUSY` reads 1; apart from the model's notes of the interval and of what the host has
seen, nothing else changes. Those notes are the model's own (log 12, log 13, log 21). -/
def Obligations.AcceptedCommandsAreLatched : Prop :=
  ∀ (s : State) (i : Instr) (w : Word), encode i = .word w → s.cmdPort = some w → s.fault = false →
    s.busy = false → s.Acceptable i →
    ∃ t, exec i s = .next t ∧ t.busy = true ∧ t.lcmd = w ∧ t.laddr = s.addr ∧ t.linkErr = false ∧
      t.phase = .exec ∧
      t = { s with
        cmdPort := none, seenIdle := false, lcmd := w, laddr := s.addr, linkErr := false, phase := .exec
        windows := t.windows } ∧
      ∀ a, t.hmem.read a = s.hmem.read a

/-- R67, R108: an open FES answers an illegal word with its cause, and fault entry writes its four registers and
nothing else. -/
def Obligations.IllegalWordsRaiseTheirCause : Prop :=
  ∀ (s : State) (w : Word) (c : Cause), s.cmdPort = some w → s.fault = false → s.busy = false →
    ((w.extractLsb' 4 4 ≠ 0 ∧ c = .illegalCommand) ∨
      (w.extractLsb' 4 4 = 0 ∧
        ((w.extractLsb' 0 4 ≠ 0x1 ∧ w.extractLsb' 0 4 ≠ 0x2 ∧ w.extractLsb' 0 4 ≠ 0x3 ∧
            w.extractLsb' 0 4 ≠ 0xF ∧ c = .illegalCommand) ∨
          (w.extractLsb' 0 4 = 0x2 ∧ w.extractLsb' 8 8 ≠ 0 ∧ c = .illegalCommand) ∨
          ((w.extractLsb' 0 4 = 0x3 ∨ w.extractLsb' 0 4 = 0xF) ∧ w.extractLsb' 8 24 ≠ 0 ∧
            c = .illegalCommand) ∨
          (w.extractLsb' 0 4 = 0x1 ∧ w.extractLsb' 8 8 ≠ 0x00 ∧ w.extractLsb' 8 8 ≠ 0x01 ∧
            w.extractLsb' 8 8 ≠ 0xFF ∧ c = .illegalOpcode) ∨
          (w.extractLsb' 0 4 = 0x1 ∧ w.extractLsb' 8 8 = 0xFF ∧ w.extractLsb' 16 16 ≠ 0 ∧
            c = .helloPayload)))) →
    step s =
      .next { s with
        cmdPort := none, fault := true, cause := c, faultCmd := w, faultAddr := s.addr }

/-- R79: an APPEND whose frame does not fit beside the frames already staged is refused with
`CAPACITY_EXCEEDED`, whatever its opcode and its host memory range (R110); one that fits, exactly too, and whose
range is in range, is accepted. -/
def Obligations.AppendsThatDoNotFitFault : Prop :=
  ∀ (s : State) (i : Instr) (n : Half) (w : Word),
    (i = .appendSd n ∨ i = .appendTms n ∨ (i = .appendHello ∧ n = 0)) → s.cmdPort = some w →
    s.fault = false → s.busy = false →
    (4096 < s.cur.toNat + s.cfg.hdrFmt.hsz + ceil8 n.toNat →
      exec i s =
        .next { s with
          cmdPort := none, fault := true, cause := .capacityExceeded, faultCmd := w
          faultAddr := s.addr }) ∧
    (s.cur.toNat + s.cfg.hdrFmt.hsz + ceil8 n.toNat ≤ 4096 →
      (ceil8 n.toNat = 0 ∨ s.addr.toNat + ceil8 n.toNat ≤ s.cfg.hmemSize) →
      ∃ t, exec i s = .next t ∧ t.busy = true ∧ t.fault = false)

/-- R42, R105: a command whose host memory access is not in range, the sum taken without wrap, is refused with
`HOST_BUS_ERROR`. -/
def Obligations.CommandsOutOfRangeFault : Prop :=
  ∀ (s : State) (i : Instr) (w : Word) (len : Nat),
    ((∃ n, (i = .appendSd n ∨ i = .appendTms n) ∧ len = ceil8 n.toNat ∧
        s.cur.toNat + s.cfg.hdrFmt.hsz + len ≤ 4096) ∨
      (∃ k, i = .readResp k ∧ len = k.toNat) ∨ (i = .decode ∧ len = s.cfg.hdrFmt.hsz)) →
    s.cmdPort = some w → s.fault = false → s.busy = false → 0 < len →
    s.cfg.hmemSize < s.addr.toNat + len →
    exec i s =
      .next { s with
        cmdPort := none, fault := true, cause := .hostBusError, faultCmd := w
        faultAddr := s.addr }

/-- R96, R110: any word, a command or not, offered while a command is in progress faults with `CMD_WHILE_BUSY`; the
command in progress is not disturbed. -/
def Obligations.WordsOfferedWhileBusyFault : Prop :=
  ∀ (s : State) (w : Word), s.cmdPort = some w → s.fault = false → s.busy = true →
    step s =
      .next { s with
        cmdPort := none, fault := true, cause := .cmdWhileBusy, faultCmd := w
        faultAddr := s.addr }

/-- R97: in the fault halt a written word is ignored, with no new cause, but for SRESET while `BUSY = 0`; a command
that was in progress runs on to its completion, each of its steps as it would be without the fault. -/
def Obligations.TheHaltIgnoresCommands : Prop :=
  (∀ (s : State) (w : Word), s.cmdPort = some w → s.fault = true →
    ((s.busy = true ∨ w ≠ 0x0000000F) → step s = .next { s with cmdPort := none }) ∧
    (s.busy = false → w = 0x0000000F → ∃ t, step s = .next t ∧ t.fault = false)) ∧
  ∀ (s t : State) (i : Instr), s.cmdPort = none → exec i s = .next t →
    exec i { s with fault := true } = .next { t with fault := true }

/-- R101: SRESET, halted or not, while `BUSY = 0`: the registers it names, and nothing else; `STAGE` and host memory
stay. While `BUSY = 1` it does not run: it faults, or in the halt is ignored. -/
def Obligations.SresetWritesTheResetValues : Prop :=
  ∀ (s : State), s.cmdPort = some 0x0000000F →
    (s.busy = false →
      exec .sreset s =
        .next { s with
          cmdPort := none, cur := 0, fault := false, cause := .none, linkErr := false, addr := 0
          decHdr := 0, decInfo := 0, faultCmd := 0, faultAddr := 0, lcmd := 0, laddr := 0, phase := .idle }) ∧
    (s.busy = true → s.fault = false →
      exec .sreset s =
        .next { s with
          cmdPort := none, fault := true, cause := .cmdWhileBusy, faultCmd := 0x0000000F
          faultAddr := s.addr }) ∧
    (s.busy = true → s.fault = true → exec .sreset s = .next { s with cmdPort := none })

/-! ## The APPEND family -/

/-- R76, R78, R80: the EXEC step of APPEND.SD stages its frame, whose payload bytes are values those bytes of host
memory may be read as (R43), and issues one `LinkOut` of every staged byte. -/
def Obligations.AppendSdStagesAndFlushes : Prop :=
  ∀ (s : State) (n : Half), s.cmdPort = none → s.phase = .exec →
    s.cur.toNat + s.cfg.hdrFmt.hsz + ceil8 n.toNat ≤ 4096 →
    (ceil8 n.toNat = 0 ∨ s.laddr.toNat + ceil8 n.toNat ≤ s.cfg.hmemSize) →
    ∃ (t : State) (p : List Byte), exec (.appendSd n) s = .next t ∧ p.length = ceil8 n.toNat ∧
      (∀ i < p.length, p.getD i 0 ∈ s.sourceValues (s.laddr.toNat + i)) ∧
      s.Staged (s.cfg.encodeFrame 0x00 n p) t ∧ t.phase = .waitOut (t.stageBytes t.cur.toNat)

/-- R76, R78, R80: the EXEC step of APPEND.TMS stages its frame, issues no link transaction and completes. -/
def Obligations.AppendTmsStagesAndCompletes : Prop :=
  ∀ (s : State) (n : Half), s.cmdPort = none → s.phase = .exec →
    s.cur.toNat + s.cfg.hdrFmt.hsz + ceil8 n.toNat ≤ 4096 →
    (ceil8 n.toNat = 0 ∨ s.laddr.toNat + ceil8 n.toNat ≤ s.cfg.hmemSize) →
    ∃ (t : State) (p : List Byte), exec (.appendTms n) s = .next t ∧ p.length = ceil8 n.toNat ∧
      (∀ i < p.length, p.getD i 0 ∈ s.sourceValues (s.laddr.toNat + i)) ∧
      s.Staged (s.cfg.encodeFrame 0x01 n p) t ∧ t.phase = .idle

/-- R78, R85: the EXEC step of APPEND.HELLO stages a header with bit count 0 and no payload, whatever `LADDR` is, and
completes. -/
def Obligations.AppendHelloStagesAndCompletes : Prop :=
  ∀ (s : State), s.cmdPort = none → s.phase = .exec →
    s.cur.toNat + s.cfg.hdrFmt.hsz ≤ 4096 →
    ∃ t : State, exec .appendHello s = .next t ∧ s.Staged (s.cfg.encodeFrame 0xFF 0 []) t ∧ t.phase = .idle

/-- R81, R82, R87: the link's answer ends an APPEND.SD with `CUR = 0`; `Ok` leaves `LINK_ERR`, `TransferError` sets it
and is no fault; the transaction joins the OUT stream, all of it delivered on `Ok`, some first bytes of it
otherwise (R50). The record of the stream and the free length of that part are the model's own (log 9, log 21). -/
def Obligations.TheAnswerEndsAnAppendSd : Prop :=
  ∀ (s : State) (n : Half) (bytes : List Byte), s.cmdPort = none → s.phase = .waitOut bytes →
    ∃ (t : State) (delivered : Nat), exec (.appendSd n) s = .next t ∧ t.cur = 0 ∧ t.busy = false ∧
      (s.nextAnswer.ok = true → t.linkErr = s.linkErr ∧ delivered = bytes.length) ∧
      (s.nextAnswer.ok = false → t.linkErr = true) ∧ delivered ≤ bytes.length ∧
      t.outStream = s.outStream ++ [⟨bytes, s.nextAnswer.ok, delivered, false⟩] ∧
      t = { s with
        cur := 0, linkErr := t.linkErr, phase := .idle, outStream := t.outStream
        answers := s.answers.tail, answered := s.answered + 1, draws := t.draws } ∧
      ∀ a, t.hmem.read a = s.hmem.read a

/-- R126 (1), I23: a transaction that was issued with the link session closed is answered `TransferError`, whether or
not the session has been opened since. To one issued with the session open the link's own answer comes, even if the
session has been closed since: there the spec is silent, and that only the issue counts is the model's choice
(log 8). -/
def Obligations.AClosedSessionAnswersTransferError : Prop :=
  ∀ (s : State) (n k : Half) (bytes : List Byte) (m : Nat), s.cmdPort = none →
    (s.issuedOpen = false →
      (s.phase = .waitOut bytes →
        ∃ t, exec (.appendSd n) s = .next t ∧ t.linkErr = true ∧ t.fault = s.fault ∧ t.cur = 0 ∧
          ∃ d, t.outStream = s.outStream ++ [⟨bytes, false, d, false⟩]) ∧
      (s.phase = .waitIn m → (m = 0 ∨ s.laddr.toNat + m ≤ s.cfg.hmemSize) →
        ∃ t, exec (.readResp k) s = .next t ∧ t.linkErr = true ∧ t.fault = s.fault ∧ t.cur = s.cur ∧
          t.inStream = s.inStream ++ [⟨m, false, [], false⟩])) ∧
    (s.issuedOpen = true →
      (s.phase = .waitOut bytes →
        ∃ t, exec (.appendSd n) s = .next t ∧ t.linkErr = (s.linkErr || !(s.answerAt 0).ok)) ∧
      (s.phase = .waitIn m → (m = 0 ∨ s.laddr.toNat + m ≤ s.cfg.hmemSize) →
        ∃ t, exec (.readResp k) s = .next t ∧ t.linkErr = (s.linkErr || !(s.answerAt 0).ok)))

/-- R126 (1): the step that issues a transaction notes whether the session is open then, and while the transaction
waits no step changes that note, the opening or closing of the session included. The note is the model's own
(log 8). -/
def Obligations.TheSessionCountsAtTheIssue : Prop :=
  ∀ s t : State, step s = .next t → t.Waiting →
    (¬ s.Waiting → t.issuedOpen = s.linkOpen) ∧ (s.Waiting → t.issuedOpen = s.issuedOpen)

/-- R86, R37, R80: from an empty buffer, APPENDs that are accepted and run one after another, the last of them the
only APPEND.SD, end in one `LinkOut` of all their frames in append order; none of them sends anything before, and no
byte of host memory changes. The commands are offered and run by `exec`, with no host write between acceptance and
the EXEC step. -/
def Obligations.OneFlushCarriesTheBatchInOrder : Prop :=
  ∀ (s t : State) (batch : List (Instr × Word)) (n : Half) (a : Word), s.fault = false → s.phase = .idle →
    s.cur = 0 → (∀ c ∈ batch, (∃ m, c.1 = .appendTms m) ∨ c.1 = .appendHello) →
    s.RunsBatch (batch ++ [(.appendSd n, a)]) t →
    t.phase =
        .waitOut ((batch ++ [(Instr.appendSd n, a)]).flatMap fun c : Instr × Word => s.frameOf c.1 c.2) ∧
      t.outStream = s.outStream ∧ ∀ x, t.hmem.read x = s.hmem.read x

/-! ## READ.RESP and DECODE -/

/-- R88, R90: the EXEC step of READ.RESP: `COUNT = 0` completes with no transaction and no write, any other count
issues one `LinkIn`; nothing else changes, but for the note of the session it is issued in (log 8). -/
def Obligations.ReadRespIssuesItsRead : Prop :=
  ∀ (s : State) (k : Half), s.cmdPort = none → s.phase = .exec →
    (k = 0 → exec (.readResp k) s = .next { s with phase := .idle }) ∧
    (k ≠ 0 → exec (.readResp k) s = .next { s with phase := .waitIn k.toNat, issuedOpen := s.linkOpen })

/-- R88, R89: the link's answer ends a READ.RESP. On `Ok` the bytes received stand in the destination, in order; a byte
that the host has written since acceptance (R131) is the received one or a value it held in that interval, and until
the host has seen `BUSY = 0` it may read the received one in either case (R44). After `TransferError` the destination is
open and `LINK_ERR` is 1. Either way no byte outside the destination changes. How the values of an interval are noted
is the model's choice (log 13). -/
def Obligations.TheAnswerEndsAReadResp : Prop :=
  ∀ (s : State) (k : Half) (m : Nat), s.cmdPort = none → s.phase = .waitIn m →
    (m = 0 ∨ s.laddr.toNat + m ≤ s.cfg.hmemSize) →
    ∃ (t : State) (r : List Byte), exec (.readResp k) s = .next t ∧ t.busy = false ∧ r.length = m ∧
      (∀ i < m, i < s.nextAnswer.data.length → r.getD i 0 = s.nextAnswer.data.getD i 0) ∧
      (s.nextAnswer.ok = true → t.linkErr = s.linkErr ∧
        t.inStream = s.inStream ++ [⟨m, true, r, false⟩] ∧
        ∀ i < m,
          (heldAt s.displaced (s.laddr.toNat + i) = [] → t.hmem.read (s.laddr.toNat + i) = r.getD i 0) ∧
            t.hmem.read (s.laddr.toNat + i) ∈ r.getD i 0 :: s.sourceValues (s.laddr.toNat + i) ∧
            ((∃ w ∈ s.windows, w.covers (s.laddr.toNat + i) = true) →
              r.getD i 0 ∈ t.visibleValues (s.laddr.toNat + i))) ∧
      (s.nextAnswer.ok = false → t.linkErr = true ∧
        t.inStream = s.inStream ++ [⟨m, false, [], false⟩]) ∧
      (∀ a, (a < s.laddr.toNat ∨ s.laddr.toNat + m ≤ a) → t.hmem.read a = s.hmem.read a) ∧
      t = { s with
        linkErr := t.linkErr, phase := .idle, hmem := t.hmem, inStream := t.inStream
        answers := s.answers.tail, answered := s.answered + 1, windows := t.windows, draws := t.draws }

/-- R92, R94: the EXEC step of DECODE reads a header's bytes at `LADDR` (each a value that byte may be read as, R43) and
reports its fields and flags (R25, R26); it completes and changes nothing else. -/
def Obligations.DecodeReportsTheHeader : Prop :=
  ∀ (s : State), s.cmdPort = none → s.phase = .exec →
    s.laddr.toNat + s.cfg.hdrFmt.hsz ≤ s.cfg.hmemSize →
    ∃ (t : State) (h : List Byte), exec .decode s = .next t ∧ h.length = s.cfg.hdrFmt.hsz ∧
      (∀ i < h.length, h.getD i 0 ∈ s.sourceValues (s.laddr.toNat + i)) ∧
      (s.cfg.hdrFmt = .h4 →
        t.Reports s.cfg ⟨h.getD 0 0, h.getD 1 0, none,
          BitVec.ofNat 16 ((h.getD 2 0).toNat + 256 * (h.getD 3 0).toNat)⟩) ∧
      (s.cfg.hdrFmt = .h8 →
        t.Reports s.cfg ⟨h.getD 0 0, h.getD 1 0,
          some ⟨h.getD 2 0, h.getD 3 0, h.getD 4 0, h.getD 5 0⟩,
          BitVec.ofNat 16 ((h.getD 6 0).toNat + 256 * (h.getD 7 0).toNat)⟩) ∧
      t = { s with decHdr := t.decHdr, decInfo := t.decInfo, phase := .idle, draws := t.draws } ∧
      ∀ a, t.hmem.read a = s.hmem.read a

/-- R93: DECODE of a frame the FES can emit gives its opcode, bit count and payload length, `DVALID = 1`, and the
payload stands behind the header. -/
def Obligations.DecodeReadsBackEncodedFrames : Prop :=
  ∀ (s : State) (op : Byte) (n : Half) (p : List Byte),
    (op = 0x00 ∨ op = 0x01 ∨ (op = 0xFF ∧ n = 0)) → p.length = ceil8 n.toNat →
    s.cmdPort = none → s.phase = .exec → s.displaced = [] →
    s.laddr.toNat + s.cfg.hdrFmt.hsz ≤ s.cfg.hmemSize →
    (∀ i < s.cfg.hdrFmt.hsz + p.length,
      s.hmem.read (s.laddr.toNat + i) = (s.cfg.encodeFrame op n p).getD i 0) →
    ∃ t : State, exec .decode s = .next t ∧
      t.decHdr.extractLsb' 0 8 = u8 (s.cfg.hdrFmt.hsz + ceil8 n.toNat) ∧
      t.decHdr.extractLsb' 8 8 = op ∧ t.decHdr.extractLsb' 16 16 = n ∧
      (t.decInfo.extractLsb' 0 14).toNat = ceil8 n.toNat ∧ t.decInfo.getLsbD 16 = true ∧
      t.hmem.readBlock (s.laddr.toNat + s.cfg.hdrFmt.hsz) (ceil8 n.toNat) = p

/-! ## Wire frames -/

/-- R60, R78, R80: a shift-data, shift-TMS or hello frame whose APPEND is in its EXEC step is staged; only shift-
data flushes, the others complete. H4. That a frame row is run by its APPEND is the model's choice (log 15). -/
def Obligations.H4FramesReachTheStager : Prop :=
  ∀ (s : State) (hl : Byte) (n : Half) (p : List Byte), s.cfg.hdrFmt = .h4 → s.phase = .exec →
    s.cur.toNat + 4 + p.length ≤ 4096 →
    (s.lcmd = appendWord 0x00 n →
      ∃ t, exec (.frameSdH4 hl n p) s = .next t ∧ s.Staged (frameBytes hl 0x00 none n p) t ∧
        t.phase = .waitOut (t.stageBytes t.cur.toNat)) ∧
    (s.lcmd = appendWord 0x01 n →
      ∃ t, exec (.frameTmsH4 hl n p) s = .next t ∧ s.Staged (frameBytes hl 0x01 none n p) t ∧
        t.phase = .idle) ∧
    (s.lcmd = appendWord 0xFF 0 → n = 0 →
      ∃ t, exec (.frameHelloH4 hl n p) s = .next t ∧ s.Staged (frameBytes hl 0xFF none n p) t ∧
        t.phase = .idle)

/-- R60, R78, R80: the same in H8. That a frame row is run by its APPEND is the model's choice (log 15). -/
def Obligations.H8FramesReachTheStager : Prop :=
  ∀ (s : State) (hl : Byte) (x : Filler) (n : Half) (p : List Byte), s.cfg.hdrFmt = .h8 →
    s.phase = .exec → s.cur.toNat + 8 + p.length ≤ 4096 →
    (s.lcmd = appendWord 0x00 n →
      ∃ t, exec (.frameSdH8 hl x n p) s = .next t ∧ s.Staged (frameBytes hl 0x00 (some x) n p) t ∧
        t.phase = .waitOut (t.stageBytes t.cur.toNat)) ∧
    (s.lcmd = appendWord 0x01 n →
      ∃ t, exec (.frameTmsH8 hl x n p) s = .next t ∧ s.Staged (frameBytes hl 0x01 (some x) n p) t ∧
        t.phase = .idle) ∧
    (s.lcmd = appendWord 0xFF 0 → n = 0 →
      ∃ t, exec (.frameHelloH8 hl x n p) s = .next t ∧ s.Staged (frameBytes hl 0xFF (some x) n p) t ∧
        t.phase = .idle)

/-- R92, R94: every frame of the FES's format, reserved ones and malformed headers included, is reported by the
DECODE whose EXEC step meets it, which completes and changes nothing else. That a frame row is run by the DECODE
that meets it is the model's choice (log 15). -/
def Obligations.FramesAreReportedByDecode : Prop :=
  ∀ (s : State) (i : Instr) (h : Header), frameHeader i = some h → i.format = some s.cfg.hdrFmt →
    s.phase = .exec → s.lcmd = 0x00000003 →
    ∃ t, exec i s = .next t ∧ t.Reports s.cfg h ∧
      t = { s with decHdr := t.decHdr, decInfo := t.decInfo, phase := .idle } ∧
      ∀ a, t.hmem.read a = s.hmem.read a

/-- R60, R67 (d): a reserved frame is never staged: whatever the state, its step leaves `CUR`, `STAGE`, host memory
and the link alone. What a frame row does is the model's choice (log 15). -/
def Obligations.ReservedFramesAreNeverEmitted : Prop :=
  ∀ (s : State) (i : Instr),
    ((∃ hl op n p, i = .frameReservedH4 hl op n p) ∨ ∃ hl op x n p, i = .frameReservedH8 hl op x n p) →
    ∃ t, exec i s = .next t ∧
      t = { s with decHdr := t.decHdr, decInfo := t.decInfo, phase := t.phase } ∧
      (t.phase = s.phase ∨ t.phase = .idle)

/-! ## Control registers and host memory -/

/-- R21, R105: the fields of `STATUS`, the cause by its code, its reserved bits 0. -/
def Obligations.StatusHasItsFields : Prop :=
  ∀ s : State,
    (s.statusWord.getLsbD 0 = true ↔ s.phase ≠ .idle) ∧ s.statusWord.getLsbD 1 = s.fault ∧
      s.statusWord.getLsbD 2 = s.linkErr ∧ s.statusWord.extractLsb' 3 5 = 0 ∧
      s.statusWord.extractLsb' 8 8 =
        (match s.cause with
          | .none => 0x00
          | .capacityExceeded => 0x01
          | .illegalCommand => 0x02
          | .illegalOpcode => 0x03
          | .helloPayload => 0x04
          | .hostBusError => 0x05
          | .cmdWhileBusy => 0x06) ∧
      s.statusWord.extractLsb' 16 16 = 0

/-- R20, R22 to R30: what an aligned 32-bit read returns; that it changes no register, no memory and no stage byte. The
registers with no fixed value while `BUSY = 1` are read with `BUSY = 0`. A read of `STATUS` with `BUSY = 0` is noted
(R52, R138); the note is the model's own (log 21). -/
def Obligations.RegisterReadsReturnTheRegister : Prop :=
  ∀ (s : State) (o : Byte), o.toNat % 4 = 0 →
    ((o = 0x0C ∨ o = 0x10 ∨ o = 0x14) → s.busy = false) →
    ∃ (t : State) (v : Word), s.hostOp (.csrRead .w32 o) = .next t ∧
      t.hostReads = s.hostReads ++ [.csr o v] ∧
      v = (if o = 0x04 then s.addr else if o = 0x08 then s.statusWord
        else if o = 0x0C then s.cur.setWidth 32 else if o = 0x10 then s.decHdr
        else if o = 0x14 then s.decInfo else if o = 0x18 then s.faultCmd
        else if o = 0x1C then s.faultAddr
        else if o = 0x20 then (if s.cfg.hdrFmt = .h4 then 0x10000040 else 0x10000081) else 0) ∧
      t = { s with hostReads := t.hostReads, seenIdle := t.seenIdle, windows := t.windows } ∧
      t.seenIdle = (s.seenIdle || (o == 0x08 && !s.busy))

/-- R24 to R26, R30 (c): a read of a result register while `BUSY = 1` completes too, with some value, and changes no
register. That the value is a draw counted in the state is the model's choice (log 11). -/
def Obligations.BusyReadsChangeNoRegister : Prop :=
  ∀ (s : State) (o : Byte), (o = 0x0C ∨ o = 0x10 ∨ o = 0x14) → s.busy = true →
    ∃ (t : State) (v : Word), s.hostOp (.csrRead .w32 o) = .next t ∧
      t = { s with hostReads := s.hostReads ++ [.csr o v], draws := t.draws }

/-- R20, R23, R30 (a): an aligned 32-bit write to `ADDR` writes it, `LADDR` staying as it is whether or not a command is
in progress (R129); to any other register but `CMD` it changes nothing. -/
def Obligations.RegisterWritesWriteOnlyAddr : Prop :=
  ∀ (s : State) (o : Byte) (v : Word), o.toNat % 4 = 0 → o ≠ 0x00 →
    s.hostOp (.csrWrite .w32 o v) = .next (if o = 0x04 then { s with addr := v } else s)

/-- R30 (b): an access that is not 32 bits wide, or whose offset is no multiple of 4, is refused. -/
def Obligations.OddRegisterAccessesAreRefused : Prop :=
  ∀ (s : State) (width : AccessWidth) (o : Byte) (v : Word), (width ≠ .w32 ∨ o.toNat % 4 ≠ 0) →
    s.hostOp (.csrRead width o) = .refused .csrAccess ∧
      s.hostOp (.csrWrite width o v) = .refused .csrAccess

/-- R41, R44, R54, R131: a host write inside host memory leaves the bytes written and no other byte changed; but a byte
in the destination of a READ.RESP whose end the host has not seen is left with the byte written or any value it held
in the interval. Unless the write lands on the payload of a flush in progress (R43), nothing but host memory changes
(and the model's notes and its count of free values). The notes, and what a flush makes of such a write, are the
model's choice (log 12, log 13). -/
def Obligations.HostWritesLandInMemory : Prop :=
  ∀ (s : State) (a : Word) (bs : List Byte), a.toNat + bs.length ≤ s.cfg.hmemSize →
    ∃ t : State, s.hostOp (.memWrite a bs) = .next t ∧
      (∀ x, (x < a.toNat ∨ a.toNat + bs.length ≤ x) → t.hmem.read x = s.hmem.read x) ∧
      (∀ i < bs.length,
        (¬ s.Unseen (a.toNat + i) → t.hmem.read (a.toNat + i) = bs.getD i 0) ∧
          t.hmem.read (a.toNat + i)
            ∈ bs.getD i 0 :: s.hmem.read (a.toNat + i) :: coveredHeld (a.toNat + i) s.doneWindows) ∧
      t = { s with
        hmem := t.hmem, windows := t.windows, phase := t.phase, stage := t.stage, draws := t.draws } ∧
      ((∀ out, s.phase = .waitOut out → s.hitsPayload a.toNat bs.length = false) →
        t = { s with hmem := t.hmem, windows := t.windows, draws := t.draws })

/-- R43, R131: a host write during a flush changes at most those outstanding bytes whose source it lands on, each to the
byte written or the one memory holds after it; their number stays. That the later value may be taken after the EXEC step
is R43's; that each write draws anew is the model's choice (log 12). -/
def Obligations.AWriteDuringAFlushMayReachItsPayload : Prop :=
  ∀ (s t : State) (a : Word) (bs out : List Byte), s.phase = .waitOut out →
    s.hostOp (.memWrite a bs) = .next t →
    ∃ out' : List Byte, t.phase = .waitOut out' ∧ out'.length = out.length ∧
      ∀ i < out.length, out'.getD i 0 = out.getD i 0 ∨
        (out.length - s.latchedLen ≤ i ∧
          ∃ x, x = s.laddr.toNat + (i - (out.length - s.latchedLen)) ∧ a.toNat ≤ x ∧ x < a.toNat + bs.length ∧
            (out'.getD i 0 = bs.getD (x - a.toNat) 0 ∨ out'.getD i 0 = t.hmem.read x))

/-- R43, R44: a host read inside host memory returns, byte by byte, what memory holds; in the destination of a READ.RESP
whose end the host has not seen, any value the byte held between acceptance and completion. No register, no byte of
memory and no stage byte changes. How those values are noted is the model's choice (log 13). -/
def Obligations.HostReadsReturnHeldValues : Prop :=
  ∀ (s : State) (a : Word) (n : Nat), (n = 0 ∨ a.toNat + n ≤ s.cfg.hmemSize) →
    ∃ (t : State) (bs : List Byte), s.hostOp (.memRead a n) = .next t ∧ bs.length = n ∧
      (∀ i < n, bs.getD i 0 ∈ s.visibleValues (a.toNat + i) ∧
        ((∀ w ∈ s.windows, w.covers (a.toNat + i) = false) → bs.getD i 0 = s.hmem.read (a.toNat + i))) ∧
      t = { s with hostReads := s.hostReads ++ [.mem a bs], draws := t.draws }

/-- R41: a host access that reaches past `HMEM_SIZE` stops the model (log 17). -/
def Obligations.HostAccessesOutsideHmemStop : Prop :=
  ∀ (s : State) (a : Word) (n : Nat) (bs : List Byte), 0 < n → bs.length = n →
    s.cfg.hmemSize < a.toNat + n →
    s.hostOp (.memRead a n) = .fault .hostOutsideHmem ∧
      s.hostOp (.memWrite a bs) = .fault .hostOutsideHmem

/-- R52: after the host has read `STATUS` with `BUSY = 0`, its reads of memory return what memory holds. -/
def Obligations.ObservedCompletionSynchronizes : Prop :=
  ∀ (s : State) (a : Word) (n : Nat), s.busy = false → (n = 0 ∨ a.toNat + n ≤ s.cfg.hmemSize) →
    ∃ t u : State, s.hostOp (.csrRead .w32 0x08) = .next t ∧ t.hostOp (.memRead a n) = .next u ∧
      u.hostReads = t.hostReads ++ [.mem a (s.hmem.readBlock a.toNat n)]

/-! ## Reset -/

/-- R39, R123, R124: the reset input puts every piece of FES state at its reset value, whatever was in progress, and
touches neither host memory nor `CONFIG`; an outstanding transaction is cut off; `State.reset` holds the same
values. The format at `State.reset`, and what a reset does to a transaction, are the model's choice (log 1, log 14).
-/
def Obligations.ResetLeavesTheStatedValues : Prop :=
  (∀ s : State, ∃ t : State, s.hostOp .reset = .next t ∧
      t.addr = 0 ∧ t.statusWord = 0 ∧ t.cur = 0 ∧ t.cursorWord = 0 ∧ t.decHdr = 0 ∧ t.decInfo = 0 ∧
      t.faultCmd = 0 ∧ t.faultAddr = 0 ∧ t.phase = .idle ∧ t.lcmd = 0 ∧ t.laddr = 0 ∧
      t.cfg = s.cfg ∧ t.hmem = s.hmem ∧ t.outStream = s.outStream ∧ t.inStream = s.inStream ∧
      (∀ bytes, s.phase = .waitOut bytes → t.abandoned = s.abandoned ++ [.out bytes s.issuedOpen]) ∧
      (∀ k, s.phase = .waitIn k → t.abandoned = s.abandoned ++ [.inn k s.issuedOpen])) ∧
    State.reset.addr = 0 ∧ State.reset.statusWord = 0 ∧ State.reset.cur = 0 ∧ State.reset.decHdr = 0 ∧
    State.reset.decInfo = 0 ∧ State.reset.faultCmd = 0 ∧ State.reset.faultAddr = 0 ∧
    State.reset.phase = .idle ∧ State.reset.lcmd = 0 ∧ State.reset.laddr = 0 ∧
    State.reset.cfg.configWord = 0x10000040

/-- R123: the answer of a transaction that a reset cut off changes no register, no memory and no stage byte, whether or
not a host access still waits. That it arrives before any other device step is the model's choice (log 14). -/
def Obligations.LateAnswersAreDiscarded : Prop :=
  ∀ (s : State) (x : LinkTxn) (rest : List LinkTxn) (h : List HostAccess), s.cmdPort = none →
    s.abandoned = x :: rest →
    ((s.host = [] ∧ h = []) ∨
      ∃ a hs, s.host = a :: hs ∧ a.after ≠ 0 ∧ h = { a with after := a.after - 1 } :: hs) →
    ∃ t : State, step s = .next t ∧
      t = { s with
        host := h, abandoned := rest, answers := s.answers.tail, answered := s.answered + 1
        outStream := t.outStream, inStream := t.inStream, draws := t.draws }

/-! ## What every step keeps -/

/-- R29, R38: no step changes a parameter, so `CONFIG` reads the same for ever. -/
def Obligations.StepsKeepTheParameters : Prop :=
  ∀ s t : State, step s = .next t → t.cfg = s.cfg

/-- R21, R26, R27, R28, R32, R37, R41, R96: every step keeps the invariant of the machine. -/
def Obligations.StepsKeepTheMachineInvariant : Prop :=
  ∀ s t : State, s.Inv → step s = .next t → t.Inv

/-- R39: the machine meets its invariant at reset. -/
def Obligations.ResetMeetsTheMachineInvariant : Prop := State.reset.Inv

/-- R109, R121: in a state that meets the invariant no EXEC step, no answer and no command stops the model: the only
stops are the host's own accesses outside host memory and its refused register accesses. Those two stops are the
model's choice (log 17, log 18). -/
def Obligations.OnlyTheHostsAccessesStopTheModel : Prop :=
  ∀ s : State, s.Inv →
    (∀ f, step s = .fault f → f = .hostOutsideHmem) ∧ (∀ r, step s = .refused r → r = .csrAccess)

/-- R121, R138: a run that ends (the host has made its last access and seen `BUSY = 0` since its last accepted command) and in
which `STATUS.FAULT = 1` was never reached shows `BUSY = 0`, `FAULT = 0` and fault registers of 0; a run that reached
`FAULT = 1`, even if an SRESET has cleared it since, is no success. When a run ends is read off the model's note
`seenIdle` (log 21). -/
def Obligations.SuccessfulRunsEndIdleWithNoFault : Prop :=
  ∀ (s t : State) (n : Nat), s.Inv →
    (s.SucceedsAt n t →
      t.statusWord.getLsbD 0 = false ∧ t.statusWord.getLsbD 1 = false ∧ t.statusWord.extractLsb' 8 8 = 0 ∧
        t.faultCmd = 0 ∧ t.faultAddr = 0 ∧ t.host = []) ∧
    ∀ (m : Nat) (u : State), m ≤ n → s.RunsTo m u → u.fault = true → ¬ s.SucceedsAt n t

/-- R113: only SRESET, written while `BUSY = 0`, or reset leaves the fault halt; the staged frames are discarded. -/
def Obligations.OnlySresetOrResetEndsTheHalt : Prop :=
  ∀ s t : State, s.fault = true → step s = .next t → t.fault = false →
    t.cur = 0 ∧ ((s.busy = false ∧ s.OfferDue 0x0000000F) ∨ s.ResetDue)

/-- R112: while the halt lasts, the recorded fault stays the first one; a link answer during the halt may still set
`LINK_ERR`. -/
def Obligations.TheHaltKeepsTheFirstFault : Prop :=
  (∀ s t : State, s.fault = true → step s = .next t → t.fault = true →
    t.cause = s.cause ∧ t.faultCmd = s.faultCmd ∧ t.faultAddr = s.faultAddr) ∧
  ∀ (s : State) (n : Half) (bytes : List Byte), s.fault = true → s.cmdPort = none →
    s.phase = .waitOut bytes → s.nextAnswer.ok = false →
    ∃ t, exec (.appendSd n) s = .next t ∧ t.fault = true ∧ t.cause = s.cause ∧ t.linkErr = true

/-- R108, R109: a fault is raised only by a word that is offered, in the step that offers it, and changes nothing but
the fault registers: no other register, no stage byte, no memory, no transaction. -/
def Obligations.FaultsArePreciseAndComeFromOffers : Prop :=
  ∀ s t : State, s.fault = false → step s = .next t → t.fault = true →
    ∃ w, s.OfferDue w ∧ t.faultCmd = w ∧ t.faultAddr = s.addr ∧
      t = { s with
        fault := true, cause := t.cause, faultCmd := w, faultAddr := s.addr
        cmdPort := none, host := t.host }

/-- R80: nothing but the EXEC step of an APPEND.SD starts a flush, and the flush carries `STAGE[0..CUR)`. -/
def Obligations.OnlyShiftDataStartsAFlush : Prop :=
  ∀ (s t : State) (bytes : List Byte), step s = .next t → t.phase = .waitOut bytes →
    (∀ b, s.phase ≠ .waitOut b) →
    s.phase = .exec ∧ (∃ n, decodeCommand s.lcmd = .ok (.appendSd n)) ∧ bytes = t.stageBytes t.cur.toNat

/-- R32: the cursor grows by the frame of an APPEND in its EXEC step, becomes 0 at a flush's answer, which completes the
command, at SRESET written while `BUSY = 0`, or at reset, and changes in no other way. -/
def Obligations.TheCursorMovesOnlyAsListed : Prop :=
  ∀ s t : State, step s = .next t →
    t.cur = s.cur ∨
      (t.cur = 0 ∧ ((t.phase = .idle ∧ ∃ b, s.phase = .waitOut b) ∨
        (s.busy = false ∧ s.OfferDue 0x0000000F) ∨ s.ResetDue)) ∨
      (s.phase = .exec ∧ ∃ n : Half,
        (decodeCommand s.lcmd = .ok (.appendSd n) ∨ decodeCommand s.lcmd = .ok (.appendTms n) ∨
          (decodeCommand s.lcmd = .ok .appendHello ∧ n = 0)) ∧
        t.cur.toNat = s.cur.toNat + s.cfg.hdrFmt.frameLen n)

/-- R34, R129: while a command is in progress its word and its address stay, whatever the host does but reset. -/
def Obligations.ACommandKeepsItsOperands : Prop :=
  ∀ s t : State, s.busy = true → step s = .next t → ¬ s.ResetDue → t.lcmd = s.lcmd ∧ t.laddr = s.laddr

/-- R51, R138: the OUT stream only grows, by at most one transaction a step, and that one is the outstanding flush
with its bytes (or one a reset had cut off). That discarded answers are recorded is the model's choice (log 21). -/
def Obligations.TheOutStreamGrowsByTheOutstandingFlush : Prop :=
  ∀ s t : State, step s = .next t →
    t.outStream = s.outStream ∨
      ∃ r : OutRecord, t.outStream = s.outStream ++ [r] ∧ r.delivered ≤ r.bytes.length ∧
        ((s.phase = .waitOut r.bytes ∧ r.discarded = false) ∨
          (r.discarded = true ∧ ∃ o rest, s.abandoned = .out r.bytes o :: rest))

/-- R31: the bytes of `STAGE` at and past the cursor are never observable: two states that differ in them alone step
alike, and agree again in everything else. -/
def Obligations.StagePastTheCursorIsUnobservable : Prop :=
  ∀ s t : State, s.AgreesUpToStage t →
    (∀ s', step s = .next s' → ∃ t', step t = .next t' ∧ s'.AgreesUpToStage t') ∧
    (∀ f, step s = .fault f → step t = .fault f) ∧
    (∀ r, step s = .refused r → step t = .refused r)
end

