-- ==== Sys2Proof/Laws/Encoding.lean ====
section
/-! SUPPORT. The fields of command words and of frame bytes. -/

namespace Sys2Proof

/-- A bit of a placed field. -/
@[simp] theorem getLsbD_placed {n : Nat} (v : BitVec n) (i j : Nat) :
    (placed v i).getLsbD j = (decide (j < 32) && !decide (j < i) && v.getLsbD (j - i)) := by
  simp only [placed, BitVec.getLsbD_shiftLeft, BitVec.getLsbD_setWidth]
  by_cases h : j < 32
  · simp [h, show j - i < 32 by omega]
  · simp [h]

@[simp] theorem getElem_placed {n : Nat} (v : BitVec n) (i j : Nat) (h : j < 32) :
    (placed v i)[j] = (!decide (j < i) && v.getLsbD (j - i)) := by
  rw [← BitVec.getLsbD_eq_getElem, getLsbD_placed]
  simp [h]

@[simp] theorem rsvOf_packCommand (c : BitVec 4) (f : Byte) (n : Half) : rsvOf (packCommand c f n) = 0 := by
  apply BitVec.eq_of_getLsbD_eq
  intro i hi
  simp [rsvOf, packCommand, hi, show 4 + i < 32 by omega, show 4 + i < 8 by omega,
    show 4 + i < 16 by omega]

@[simp] theorem cmdopOf_packCommand (c : BitVec 4) (f : Byte) (n : Half) : cmdopOf (packCommand c f n) = c := by
  apply BitVec.eq_of_getLsbD_eq
  intro i hi
  simp [cmdopOf, packCommand, hi, show i < 32 by omega, show i < 8 by omega, show i < 16 by omega]

@[simp] theorem fopcOf_packCommand (c : BitVec 4) (f : Byte) (n : Half) : fopcOf (packCommand c f n) = f := by
  apply BitVec.eq_of_getLsbD_eq
  intro i hi
  simp [fopcOf, packCommand, hi, show 8 + i < 32 by omega, show 8 + i < 16 by omega,
    BitVec.getLsbD_of_ge c (8 + i) (by omega)]

@[simp] theorem countOf_packCommand (c : BitVec 4) (f : Byte) (n : Half) : countOf (packCommand c f n) = n := by
  apply BitVec.eq_of_getLsbD_eq
  intro i hi
  simp [countOf, packCommand, hi, show 16 + i < 32 by omega, BitVec.getLsbD_of_ge c (16 + i) (by omega),
    BitVec.getLsbD_of_ge f (16 + i - 8) (by omega)]

/-- A word whose reserved field is 0 is the word of its other fields. -/
theorem packCommand_fields {w : Word} (h : rsvOf w = 0) :
    packCommand (cmdopOf w) (fopcOf w) (countOf w) = w := by
  apply BitVec.eq_of_getLsbD_eq
  intro i hi
  have hr : ∀ j, j < 4 → w.getLsbD (4 + j) = false := fun j hj => by
    have := congrArg (fun x => x.getLsbD j) h
    simpa [rsvOf, hj] using this
  simp only [packCommand, BitVec.getLsbD_or, getLsbD_placed, cmdopOf, fopcOf, countOf,
    BitVec.getLsbD_extractLsb', hi, Nat.not_lt_zero, Nat.sub_zero, Nat.zero_add]
  by_cases h1 : i < 4
  · simp [h1, show i < 8 by omega, show i < 16 by omega]
  · by_cases h2 : i < 8
    · have := hr (i - 4) (by omega)
      rw [show 4 + (i - 4) = i by omega] at this
      simp [h1, h2, this, show i < 16 by omega]
    · by_cases h3 : i < 16
      · simp [h1, h2, h3, show 8 + (i - 8) = i by omega, show i - 8 < 8 by omega]
      · simp [h1, h2, h3, show 16 + (i - 16) = i by omega, show ¬ i - 8 < 8 by omega, show i - 16 < 16 by omega]

/-- What a word that decodes to a command is: that command's word. -/
theorem decodeCommand_cases {w : Word} {i : Instr} (h : decodeCommand w = .ok i) :
    (i = .appendSd (countOf w) ∧ w = appendWord opSd (countOf w)) ∨
      (i = .appendTms (countOf w) ∧ w = appendWord opTms (countOf w)) ∨
      (i = .appendHello ∧ w = appendWord opHello 0) ∨
      (i = .readResp (countOf w) ∧ w = readRespWord (countOf w)) ∨
      (i = .decode ∧ w = decodeWord) ∨ (i = .sreset ∧ w = sresetWord) := by
  by_cases hr : rsvOf w = 0
  · have hw := packCommand_fields hr
    have pack : ∀ {c : BitVec 4} {f : Byte} {n : Half}, cmdopOf w = c → fopcOf w = f → countOf w = n →
        w = packCommand c f n := fun hc hf hn => by rw [← hc, ← hf, ← hn, hw]
    rw [decodeCommand, if_neg (by simpa using hr)] at h
    split_ifs at h with h1 h2 h3 h4 h5 h6 h7 h8 h9 h10 h11 <;> cases h
    · exact .inl ⟨rfl, pack h1 h2 rfl⟩
    · exact .inr (.inl ⟨rfl, pack h1 h3 rfl⟩)
    · exact .inr (.inr (.inl ⟨rfl, pack h1 h4 (by simpa using h5)⟩))
    · exact .inr (.inr (.inr (.inl ⟨rfl, pack h6 (by simpa using h7) rfl⟩)))
    · rw [not_or, not_not, not_not] at h9
      exact .inr (.inr (.inr (.inr (.inl ⟨rfl, pack h8 h9.1 h9.2⟩))))
    · rw [not_or, not_not, not_not] at h11
      exact .inr (.inr (.inr (.inr (.inr ⟨rfl, pack h10 h11.1 h11.2⟩))))
  · rw [decodeCommand, if_pos hr] at h
    cases h

/-- The two bytes of a bit count, read back (R45). -/
theorem ofLe16_le16 (n : Half) : ofLe16 ((le16 n).getD 0 0) ((le16 n).getD 1 0) = n := by
  apply BitVec.eq_of_getLsbD_eq
  intro i hi
  by_cases h : i < 8
  · simp [le16, ofLe16, h, hi]
  · simp [le16, ofLe16, h, hi, show 8 + (i - 8) = i by omega, show i - 8 < 8 by omega]

/-- A header's bytes are as many as its format says (R57, R58). -/
theorem Header.bytes_length (h : Header) :
    h.bytes.length = h.format.hsz := by
  cases hf : h.filler <;> simp [Header.bytes, Header.format, hf, le16, HdrFmt.hsz]

/-- A header read back from its bytes, whatever follows them. -/
theorem headerOfBytes_bytes (h : Header) (p : List Byte) :
    headerOfBytes h.format (h.bytes ++ p) = h := by
  obtain ⟨hl, op, _ | ⟨a, b, c, d⟩, n⟩ := h
  · have := ofLe16_le16 n
    simpa [headerOfBytes, Header.bytes, Header.format, le16] using this
  · have := ofLe16_le16 n
    simpa [headerOfBytes, Header.bytes, Header.format, le16] using this

/-- `u8` of a length below 256 loses nothing (R59). -/
theorem u8_toNat (x : Nat) : (u8 x).toNat = x % 256 := by simp [u8]

end Sys2Proof
end

