-- ==== Sys2Proof/Laws/Memory.lean ====
section
/-! SUPPORT. The laws of the sparse memories: reading after a write, the canonical form, and that every operation
keeps it. -/

namespace Sys2Proof.Machine

/-- The list-level meaning of `Memory.rising`. -/
theorem Memory.rising_iff (m : Memory) : m.rising = true ↔ m.Pairwise (fun c d => c.1 < d.1) := by
  induction m with
  | nil => simp [Memory.rising]
  | cons c m ih =>
    cases m with
    | nil => simp [Memory.rising]
    | cons d m =>
      rw [Memory.rising, Bool.and_eq_true, ih, List.pairwise_cons (a := c)]
      constructor
      · rintro ⟨hcd, hm⟩
        refine ⟨fun e he => ?_, hm⟩
        rcases List.mem_cons.1 he with rfl | he
        · simpa using hcd
        · exact lt_trans (by simpa using hcd) ((List.pairwise_cons.1 hm).1 e he)
      · rintro ⟨hc, hm⟩
        exact ⟨by simpa using hc d (by simp), hm⟩

/-- Every cell of a block lies in the block. -/
theorem mem_blockCells {a : Nat} {bs : List Byte} {c : Host.Cell} (h : c ∈ blockCells a bs) :
    a ≤ c.1 ∧ c.1 < a + bs.length := by
  induction bs generalizing a with
  | nil => cases h
  | cons b bs ih =>
    rw [blockCells, List.mem_cons] at h
    rcases h with rfl | h
    · simp
    · have := ih h
      simp only [List.length_cons]
      omega

/-- The cells of a block rise. -/
theorem blockCells_pairwise (a : Nat) (bs : List Byte) :
    (blockCells a bs).Pairwise (fun c d => c.1 < d.1) := by
  induction bs generalizing a with
  | nil => simp [blockCells]
  | cons b bs ih =>
    rw [blockCells, List.pairwise_cons]
    exact ⟨fun c hc => by have := mem_blockCells hc; simp only; omega, ih (a + 1)⟩

/-- A block laid between the cells below it and the cells above it rises, if the memory did. -/
theorem pairwise_splice {m mid : Memory} {a n : Nat} (hm : m.Pairwise (fun c d => c.1 < d.1))
    (hmid : mid.Pairwise (fun c d => c.1 < d.1)) (hin : ∀ c ∈ mid, a ≤ c.1 ∧ c.1 < a + n) :
    (m.filter (fun c => c.1 < a) ++ mid ++ m.filter (fun c => a + n ≤ c.1)).Pairwise
      (fun c d => c.1 < d.1) := by
  rw [List.pairwise_append, List.pairwise_append]
  refine ⟨⟨hm.filter _, hmid, ?_⟩, hm.filter _, ?_⟩
  · intro c hc d hd
    have h1 := hin d hd
    have h2 : c.1 < a := by simpa using (List.mem_filter.1 hc).2
    omega
  · intro c hc d hd
    have h2 : a + n ≤ d.1 := by simpa using (List.mem_filter.1 hd).2
    rcases List.mem_append.1 hc with hc | hc
    · have h1 : c.1 < a := by simpa using (List.mem_filter.1 hc).2
      omega
    · have h1 := hin c hc
      omega

/-- `Memory.put` keeps addresses rising. -/
theorem Memory.put_rising {m : Memory} (a : Nat) (bs : List Byte) (h : m.rising = true) :
    (m.put a bs).rising = true := by
  rw [Memory.rising_iff] at h ⊢
  exact pairwise_splice h (blockCells_pairwise a bs) fun _ hc => mem_blockCells hc

/-- `Memory.write` keeps the canonical form. -/
theorem Memory.write_wf {m : Memory} (a : Nat) (bs : List Byte) (h : m.wf = true) :
    (m.write a bs).wf = true := by
  simp only [Memory.wf, Bool.and_eq_true, Memory.rising_iff, List.all_eq_true] at h ⊢
  refine ⟨pairwise_splice h.1 ((blockCells_pairwise a bs).filter _) fun c hc =>
    mem_blockCells (List.mem_filter.1 hc).1, fun c hc => ?_⟩
  rcases List.mem_append.1 hc with hc | hc
  · rcases List.mem_append.1 hc with hc | hc
    · exact h.2 c (List.mem_filter.1 hc).1
    · exact (List.mem_filter.1 hc).2
  · exact h.2 c (List.mem_filter.1 hc).1

/-- The memory at reset is in the canonical form. -/
theorem reset_hmem_wf : State.reset.hmem.wf = true := rfl

/-- Where the cells written by `Memory.write` lie. -/
theorem Memory.mem_write {m : Memory} {a : Nat} {bs : List Byte} {c : Host.Cell} (h : c ∈ m.write a bs) :
    c ∈ m ∨ (a ≤ c.1 ∧ c.1 < a + bs.length) := by
  rcases List.mem_append.1 h with h | h
  · rcases List.mem_append.1 h with h | h
    · exact .inl (List.mem_filter.1 h).1
    · exact .inr (mem_blockCells (List.mem_filter.1 h).1)
  · exact .inl (List.mem_filter.1 h).1

/-- Looking up in two lists joined: the first list that has the address answers. -/
theorem Memory.cell?_append (m k : Memory) (a : Nat) :
    Memory.cell? (m ++ k) a = (m.cell? a).or (k.cell? a) := by
  induction m with
  | nil => simp [Memory.cell?]
  | cons c m ih =>
    obtain ⟨x, b⟩ := c
    by_cases h : x = a <;> simp [Memory.cell?, h, ih]

/-- An address that no cell has is not found. -/
theorem Memory.cell?_none {m : Memory} {a : Nat} (h : ∀ c ∈ m, c.1 ≠ a) : m.cell? a = none := by
  induction m with
  | nil => rfl
  | cons c m ih =>
    obtain ⟨x, b⟩ := c
    rw [Memory.cell?, if_neg (h (x, b) (by simp)), ih fun d hd => h d (by simp [hd])]

/-- Filtering by address keeps what is found at an address the filter keeps. -/
theorem Memory.cell?_filter {m : Memory} {a : Nat} {p : Nat → Bool} (h : p a = true) :
    Memory.cell? (m.filter fun c => p c.1) a = m.cell? a := by
  induction m with
  | nil => rfl
  | cons c m ih =>
    obtain ⟨x, b⟩ := c
    by_cases hp : p x = true
    · simp [hp, Memory.cell?, ih]
    · have : x ≠ a := fun e => hp (e ▸ h)
      simp [hp, Memory.cell?, ih, this]

/-- The byte of a block at an address. -/
theorem cell?_blockCells (a : Nat) (bs : List Byte) (x : Nat) :
    Memory.cell? (blockCells a bs) x = if a ≤ x then bs[x - a]? else none := by
  induction bs generalizing a with
  | nil => simp [blockCells, Memory.cell?]
  | cons b bs ih =>
    rw [blockCells, Memory.cell?, ih]
    by_cases h1 : a = x
    · subst h1; simp
    · rw [if_neg h1]
      by_cases h2 : a + 1 ≤ x
      · rw [if_pos h2, if_pos (by omega), show x - a = (x - (a + 1)) + 1 by omega, List.getElem?_cons_succ]
      · rw [if_neg h2, if_neg (by omega)]

/-- Dropping the cells equal to an unwritten byte does not change what is read. -/
theorem read_filter_blockCells (a : Nat) (bs : List Byte) (x : Nat) :
    Memory.read ((blockCells a bs).filter fun c => c.2 != Memory.unwritten) x
      = Memory.read (blockCells a bs) x := by
  induction bs generalizing a with
  | nil => rfl
  | cons b bs ih =>
    rw [blockCells]
    have later : ∀ k : Memory, (∀ c ∈ k, c ∈ blockCells (a + 1) bs) → k.cell? a = none := fun k hk =>
      Memory.cell?_none fun c hc => by have := mem_blockCells (hk c hc); omega
    have := ih (a + 1)
    unfold Memory.read at this ⊢
    by_cases hb : (b != Memory.unwritten) = true
    · rw [List.filter_cons_of_pos (by simpa using hb)]
      by_cases hx : a = x
      · simp [Memory.cell?, hx]
      · simp [Memory.cell?, hx, this]
    · rw [List.filter_cons_of_neg (by simpa using hb)]
      by_cases hx : a = x
      · subst hx
        rw [later _ fun c hc => (List.mem_filter.1 hc).1]
        simp only [bne_iff_ne, ne_eq, not_not] at hb
        simp [Memory.cell?, hb]
      · simp [Memory.cell?, hx, this]

/-- The cells below an address, looked up at or past it. -/
theorem Memory.cell?_below {m : Memory} {a x : Nat} (h : a ≤ x) :
    Memory.cell? (m.filter fun c => decide (c.1 < a)) x = none :=
  Memory.cell?_none fun c hc => by
    have : c.1 < a := by simpa using (List.mem_filter.1 hc).2
    omega

/-- The cells at or past an address, looked up below it. -/
theorem Memory.cell?_above {m : Memory} {a x : Nat} (h : x < a) :
    Memory.cell? (m.filter fun c => decide (a ≤ c.1)) x = none :=
  Memory.cell?_none fun c hc => by
    have : a ≤ c.1 := by simpa using (List.mem_filter.1 hc).2
    omega

/-- What `Memory.put` leaves at every address. -/
theorem Memory.cell?_put (m : Memory) (a : Nat) (bs : List Byte) (x : Nat) :
    (m.put a bs).cell? x = if a ≤ x ∧ x < a + bs.length then bs[x - a]? else m.cell? x := by
  rw [Memory.put, Memory.cell?_append, Memory.cell?_append, cell?_blockCells]
  by_cases h1 : a ≤ x
  · rw [Memory.cell?_below h1, if_pos h1]
    by_cases h2 : x < a + bs.length
    · rw [Memory.cell?_above h2, if_pos ⟨h1, h2⟩]; simp
    · rw [if_neg (by omega), List.getElem?_eq_none (by omega),
        Memory.cell?_filter (p := fun y => decide (a + bs.length ≤ y)) (by simpa using by omega)]
      simp
  · rw [if_neg h1, if_neg (by omega), Memory.cell?_above (by omega),
      Memory.cell?_filter (p := fun y => decide (y < a)) (by simpa using by omega)]
    simp

/-- What `Memory.write` leaves at every address: the bytes written, and elsewhere what was there (R44). -/
theorem Memory.read_write (m : Memory) (a : Nat) (bs : List Byte) (x : Nat) :
    (m.write a bs).read x = if a ≤ x ∧ x < a + bs.length then bs.getD (x - a) 0 else m.read x := by
  have hmid := read_filter_blockCells a bs x
  have hout : ¬ (a ≤ x ∧ x < a + bs.length) →
      Memory.cell? ((blockCells a bs).filter fun c => c.2 != Memory.unwritten) x = none := fun h =>
    Memory.cell?_none fun c hc => by have := mem_blockCells (List.mem_filter.1 hc).1; omega
  unfold Memory.read at hmid ⊢
  rw [Memory.write, Memory.cell?_append, Memory.cell?_append]
  by_cases h1 : a ≤ x
  · rw [Memory.cell?_below h1]
    by_cases h2 : x < a + bs.length
    · rw [Memory.cell?_above h2, if_pos ⟨h1, h2⟩]
      simp only [Option.none_or, Option.or_none, hmid, cell?_blockCells, if_pos h1]
      rw [List.getD_eq_getElem?_getD, List.getElem?_eq_getElem (by omega)]
      rfl
    · rw [if_neg (by omega),
        Memory.cell?_filter (p := fun y => decide (a + bs.length ≤ y)) (by simpa using by omega),
        hout (by omega)]
      simp
  · rw [if_neg (by omega), Memory.cell?_above (by omega),
      Memory.cell?_filter (p := fun y => decide (y < a)) (by simpa using by omega),
      hout (by omega)]
    simp

/-- A block read has the length asked for. -/
@[simp] theorem Memory.readBlock_length (m : Memory) (a n : Nat) : (m.readBlock a n).length = n := by
  simp [Memory.readBlock]

/-- A byte of a block read. -/
theorem Memory.readBlock_getD (m : Memory) (a : Nat) {n i : Nat} (h : i < n) :
    (m.readBlock a n).getD i 0 = m.read (a + i) := by
  simp [Memory.readBlock, List.getD_eq_getElem?_getD, h]

end Sys2Proof.Machine
end

