-- ==== Sys2Proof/Laws/State.lean ====
section
/-! SUPPORT. One lemma per field of State and per record update: what each shared operation makes of each field,
true by rfl, so that no later proof unfolds an update. -/

namespace Sys2Proof.Machine

/-! ### State.clearPort -/

@[simp] theorem State.clearPort_cfg (s : State) : s.clearPort.cfg = s.cfg := rfl
@[simp] theorem State.clearPort_addr (s : State) : s.clearPort.addr = s.addr := rfl
@[simp] theorem State.clearPort_fault (s : State) : s.clearPort.fault = s.fault := rfl
@[simp] theorem State.clearPort_linkErr (s : State) : s.clearPort.linkErr = s.linkErr := rfl
@[simp] theorem State.clearPort_cause (s : State) : s.clearPort.cause = s.cause := rfl
@[simp] theorem State.clearPort_decHdr (s : State) : s.clearPort.decHdr = s.decHdr := rfl
@[simp] theorem State.clearPort_decInfo (s : State) : s.clearPort.decInfo = s.decInfo := rfl
@[simp] theorem State.clearPort_faultCmd (s : State) : s.clearPort.faultCmd = s.faultCmd := rfl
@[simp] theorem State.clearPort_faultAddr (s : State) : s.clearPort.faultAddr = s.faultAddr := rfl
@[simp] theorem State.clearPort_stage (s : State) : s.clearPort.stage = s.stage := rfl
@[simp] theorem State.clearPort_stageEpoch (s : State) : s.clearPort.stageEpoch = s.stageEpoch := rfl
@[simp] theorem State.clearPort_cur (s : State) : s.clearPort.cur = s.cur := rfl
@[simp] theorem State.clearPort_phase (s : State) : s.clearPort.phase = s.phase := rfl
@[simp] theorem State.clearPort_lcmd (s : State) : s.clearPort.lcmd = s.lcmd := rfl
@[simp] theorem State.clearPort_laddr (s : State) : s.clearPort.laddr = s.laddr := rfl
@[simp] theorem State.clearPort_cmdPort (s : State) : s.clearPort.cmdPort = none := rfl
@[simp] theorem State.clearPort_abandoned (s : State) : s.clearPort.abandoned = s.abandoned := rfl
@[simp] theorem State.clearPort_hmem (s : State) : s.clearPort.hmem = s.hmem := rfl
@[simp] theorem State.clearPort_outStream (s : State) : s.clearPort.outStream = s.outStream := rfl
@[simp] theorem State.clearPort_inStream (s : State) : s.clearPort.inStream = s.inStream := rfl
@[simp] theorem State.clearPort_linkOpen (s : State) : s.clearPort.linkOpen = s.linkOpen := rfl
@[simp] theorem State.clearPort_issuedOpen (s : State) : s.clearPort.issuedOpen = s.issuedOpen := rfl
@[simp] theorem State.clearPort_answers (s : State) : s.clearPort.answers = s.answers := rfl
@[simp] theorem State.clearPort_answered (s : State) : s.clearPort.answered = s.answered := rfl
@[simp] theorem State.clearPort_host (s : State) : s.clearPort.host = s.host := rfl
@[simp] theorem State.clearPort_hostReads (s : State) : s.clearPort.hostReads = s.hostReads := rfl
@[simp] theorem State.clearPort_seenIdle (s : State) : s.clearPort.seenIdle = s.seenIdle := rfl
@[simp] theorem State.clearPort_windows (s : State) : s.clearPort.windows = s.windows := rfl
@[simp] theorem State.clearPort_draws (s : State) : s.clearPort.draws = s.draws := rfl

/-! ### State.raise -/

@[simp] theorem State.raise_cfg (c : Cause) (w : Word) (s : State) : (s.raise c w).cfg = s.cfg := rfl
@[simp] theorem State.raise_addr (c : Cause) (w : Word) (s : State) : (s.raise c w).addr = s.addr := rfl
@[simp] theorem State.raise_fault (c : Cause) (w : Word) (s : State) : (s.raise c w).fault = true := rfl
@[simp] theorem State.raise_linkErr (c : Cause) (w : Word) (s : State) :
    (s.raise c w).linkErr = s.linkErr :=
  rfl
@[simp] theorem State.raise_cause (c : Cause) (w : Word) (s : State) : (s.raise c w).cause = c := rfl
@[simp] theorem State.raise_decHdr (c : Cause) (w : Word) (s : State) : (s.raise c w).decHdr = s.decHdr := rfl
@[simp] theorem State.raise_decInfo (c : Cause) (w : Word) (s : State) :
    (s.raise c w).decInfo = s.decInfo :=
  rfl
@[simp] theorem State.raise_faultCmd (c : Cause) (w : Word) (s : State) : (s.raise c w).faultCmd = w := rfl
@[simp] theorem State.raise_faultAddr (c : Cause) (w : Word) (s : State) :
    (s.raise c w).faultAddr = s.addr :=
  rfl
@[simp] theorem State.raise_stage (c : Cause) (w : Word) (s : State) : (s.raise c w).stage = s.stage := rfl
@[simp] theorem State.raise_stageEpoch (c : Cause) (w : Word) (s : State) :
    (s.raise c w).stageEpoch = s.stageEpoch :=
  rfl
@[simp] theorem State.raise_cur (c : Cause) (w : Word) (s : State) : (s.raise c w).cur = s.cur := rfl
@[simp] theorem State.raise_phase (c : Cause) (w : Word) (s : State) : (s.raise c w).phase = s.phase := rfl
@[simp] theorem State.raise_lcmd (c : Cause) (w : Word) (s : State) : (s.raise c w).lcmd = s.lcmd := rfl
@[simp] theorem State.raise_laddr (c : Cause) (w : Word) (s : State) : (s.raise c w).laddr = s.laddr := rfl
@[simp] theorem State.raise_cmdPort (c : Cause) (w : Word) (s : State) :
    (s.raise c w).cmdPort = s.cmdPort :=
  rfl
@[simp] theorem State.raise_abandoned (c : Cause) (w : Word) (s : State) :
    (s.raise c w).abandoned = s.abandoned :=
  rfl
@[simp] theorem State.raise_hmem (c : Cause) (w : Word) (s : State) : (s.raise c w).hmem = s.hmem := rfl
@[simp] theorem State.raise_outStream (c : Cause) (w : Word) (s : State) :
    (s.raise c w).outStream = s.outStream :=
  rfl
@[simp] theorem State.raise_inStream (c : Cause) (w : Word) (s : State) :
    (s.raise c w).inStream = s.inStream :=
  rfl
@[simp] theorem State.raise_linkOpen (c : Cause) (w : Word) (s : State) :
    (s.raise c w).linkOpen = s.linkOpen :=
  rfl
@[simp] theorem State.raise_issuedOpen (c : Cause) (w : Word) (s : State) :
    (s.raise c w).issuedOpen = s.issuedOpen :=
  rfl
@[simp] theorem State.raise_answers (c : Cause) (w : Word) (s : State) :
    (s.raise c w).answers = s.answers :=
  rfl
@[simp] theorem State.raise_answered (c : Cause) (w : Word) (s : State) :
    (s.raise c w).answered = s.answered :=
  rfl
@[simp] theorem State.raise_host (c : Cause) (w : Word) (s : State) : (s.raise c w).host = s.host := rfl
@[simp] theorem State.raise_hostReads (c : Cause) (w : Word) (s : State) :
    (s.raise c w).hostReads = s.hostReads :=
  rfl
@[simp] theorem State.raise_seenIdle (c : Cause) (w : Word) (s : State) :
    (s.raise c w).seenIdle = s.seenIdle :=
  rfl
@[simp] theorem State.raise_windows (c : Cause) (w : Word) (s : State) :
    (s.raise c w).windows = s.windows :=
  rfl
@[simp] theorem State.raise_draws (c : Cause) (w : Word) (s : State) : (s.raise c w).draws = s.draws := rfl

/-! ### State.softReset -/

@[simp] theorem State.softReset_cfg (s : State) : s.softReset.cfg = s.cfg := rfl
@[simp] theorem State.softReset_addr (s : State) : s.softReset.addr = 0 := rfl
@[simp] theorem State.softReset_fault (s : State) : s.softReset.fault = false := rfl
@[simp] theorem State.softReset_linkErr (s : State) : s.softReset.linkErr = false := rfl
@[simp] theorem State.softReset_cause (s : State) : s.softReset.cause = .none := rfl
@[simp] theorem State.softReset_decHdr (s : State) : s.softReset.decHdr = 0 := rfl
@[simp] theorem State.softReset_decInfo (s : State) : s.softReset.decInfo = 0 := rfl
@[simp] theorem State.softReset_faultCmd (s : State) : s.softReset.faultCmd = 0 := rfl
@[simp] theorem State.softReset_faultAddr (s : State) : s.softReset.faultAddr = 0 := rfl
@[simp] theorem State.softReset_stage (s : State) : s.softReset.stage = s.stage := rfl
@[simp] theorem State.softReset_stageEpoch (s : State) : s.softReset.stageEpoch = s.stageEpoch := rfl
@[simp] theorem State.softReset_cur (s : State) : s.softReset.cur = 0 := rfl
@[simp] theorem State.softReset_phase (s : State) : s.softReset.phase = .idle := rfl
@[simp] theorem State.softReset_lcmd (s : State) : s.softReset.lcmd = 0 := rfl
@[simp] theorem State.softReset_laddr (s : State) : s.softReset.laddr = 0 := rfl
@[simp] theorem State.softReset_cmdPort (s : State) : s.softReset.cmdPort = s.cmdPort := rfl
@[simp] theorem State.softReset_abandoned (s : State) : s.softReset.abandoned = s.abandoned := rfl
@[simp] theorem State.softReset_hmem (s : State) : s.softReset.hmem = s.hmem := rfl
@[simp] theorem State.softReset_outStream (s : State) : s.softReset.outStream = s.outStream := rfl
@[simp] theorem State.softReset_inStream (s : State) : s.softReset.inStream = s.inStream := rfl
@[simp] theorem State.softReset_linkOpen (s : State) : s.softReset.linkOpen = s.linkOpen := rfl
@[simp] theorem State.softReset_issuedOpen (s : State) : s.softReset.issuedOpen = s.issuedOpen := rfl
@[simp] theorem State.softReset_answers (s : State) : s.softReset.answers = s.answers := rfl
@[simp] theorem State.softReset_answered (s : State) : s.softReset.answered = s.answered := rfl
@[simp] theorem State.softReset_host (s : State) : s.softReset.host = s.host := rfl
@[simp] theorem State.softReset_hostReads (s : State) : s.softReset.hostReads = s.hostReads := rfl
@[simp] theorem State.softReset_seenIdle (s : State) : s.softReset.seenIdle = s.seenIdle := rfl
@[simp] theorem State.softReset_windows (s : State) : s.softReset.windows = s.windows := rfl
@[simp] theorem State.softReset_draws (s : State) : s.softReset.draws = s.draws := rfl

/-! ### State.accept -/

@[simp] theorem State.accept_cfg (w : Word) (s : State) : (s.accept w).cfg = s.cfg := rfl
@[simp] theorem State.accept_addr (w : Word) (s : State) : (s.accept w).addr = s.addr := rfl
@[simp] theorem State.accept_fault (w : Word) (s : State) : (s.accept w).fault = s.fault := rfl
@[simp] theorem State.accept_linkErr (w : Word) (s : State) : (s.accept w).linkErr = false := rfl
@[simp] theorem State.accept_cause (w : Word) (s : State) : (s.accept w).cause = s.cause := rfl
@[simp] theorem State.accept_decHdr (w : Word) (s : State) : (s.accept w).decHdr = s.decHdr := rfl
@[simp] theorem State.accept_decInfo (w : Word) (s : State) : (s.accept w).decInfo = s.decInfo := rfl
@[simp] theorem State.accept_faultCmd (w : Word) (s : State) : (s.accept w).faultCmd = s.faultCmd := rfl
@[simp] theorem State.accept_faultAddr (w : Word) (s : State) : (s.accept w).faultAddr = s.faultAddr := rfl
@[simp] theorem State.accept_stage (w : Word) (s : State) : (s.accept w).stage = s.stage := rfl
@[simp] theorem State.accept_stageEpoch (w : Word) (s : State) : (s.accept w).stageEpoch = s.stageEpoch := rfl
@[simp] theorem State.accept_cur (w : Word) (s : State) : (s.accept w).cur = s.cur := rfl
@[simp] theorem State.accept_phase (w : Word) (s : State) : (s.accept w).phase = .exec := rfl
@[simp] theorem State.accept_lcmd (w : Word) (s : State) : (s.accept w).lcmd = w := rfl
@[simp] theorem State.accept_laddr (w : Word) (s : State) : (s.accept w).laddr = s.addr := rfl
@[simp] theorem State.accept_cmdPort (w : Word) (s : State) : (s.accept w).cmdPort = s.cmdPort := rfl
@[simp] theorem State.accept_abandoned (w : Word) (s : State) : (s.accept w).abandoned = s.abandoned := rfl
@[simp] theorem State.accept_hmem (w : Word) (s : State) : (s.accept w).hmem = s.hmem := rfl
@[simp] theorem State.accept_outStream (w : Word) (s : State) : (s.accept w).outStream = s.outStream := rfl
@[simp] theorem State.accept_inStream (w : Word) (s : State) : (s.accept w).inStream = s.inStream := rfl
@[simp] theorem State.accept_linkOpen (w : Word) (s : State) : (s.accept w).linkOpen = s.linkOpen := rfl
@[simp] theorem State.accept_issuedOpen (w : Word) (s : State) : (s.accept w).issuedOpen = s.issuedOpen := rfl
@[simp] theorem State.accept_answers (w : Word) (s : State) : (s.accept w).answers = s.answers := rfl
@[simp] theorem State.accept_answered (w : Word) (s : State) : (s.accept w).answered = s.answered := rfl
@[simp] theorem State.accept_host (w : Word) (s : State) : (s.accept w).host = s.host := rfl
@[simp] theorem State.accept_hostReads (w : Word) (s : State) : (s.accept w).hostReads = s.hostReads := rfl
@[simp] theorem State.accept_seenIdle (w : Word) (s : State) : (s.accept w).seenIdle = false := rfl
@[simp] theorem State.accept_windows (w : Word) (s : State) :
    (s.accept w).windows = ⟨s.addr.toNat, destLen w, []⟩ :: s.windows :=
  rfl
@[simp] theorem State.accept_draws (w : Word) (s : State) : (s.accept w).draws = s.draws := rfl

/-! ### State.complete -/

@[simp] theorem State.complete_cfg (s : State) : s.complete.cfg = s.cfg := rfl
@[simp] theorem State.complete_addr (s : State) : s.complete.addr = s.addr := rfl
@[simp] theorem State.complete_fault (s : State) : s.complete.fault = s.fault := rfl
@[simp] theorem State.complete_linkErr (s : State) : s.complete.linkErr = s.linkErr := rfl
@[simp] theorem State.complete_cause (s : State) : s.complete.cause = s.cause := rfl
@[simp] theorem State.complete_decHdr (s : State) : s.complete.decHdr = s.decHdr := rfl
@[simp] theorem State.complete_decInfo (s : State) : s.complete.decInfo = s.decInfo := rfl
@[simp] theorem State.complete_faultCmd (s : State) : s.complete.faultCmd = s.faultCmd := rfl
@[simp] theorem State.complete_faultAddr (s : State) : s.complete.faultAddr = s.faultAddr := rfl
@[simp] theorem State.complete_stage (s : State) : s.complete.stage = s.stage := rfl
@[simp] theorem State.complete_stageEpoch (s : State) : s.complete.stageEpoch = s.stageEpoch := rfl
@[simp] theorem State.complete_cur (s : State) : s.complete.cur = s.cur := rfl
@[simp] theorem State.complete_phase (s : State) : s.complete.phase = .idle := rfl
@[simp] theorem State.complete_lcmd (s : State) : s.complete.lcmd = s.lcmd := rfl
@[simp] theorem State.complete_laddr (s : State) : s.complete.laddr = s.laddr := rfl
@[simp] theorem State.complete_cmdPort (s : State) : s.complete.cmdPort = s.cmdPort := rfl
@[simp] theorem State.complete_abandoned (s : State) : s.complete.abandoned = s.abandoned := rfl
@[simp] theorem State.complete_hmem (s : State) : s.complete.hmem = s.hmem := rfl
@[simp] theorem State.complete_outStream (s : State) : s.complete.outStream = s.outStream := rfl
@[simp] theorem State.complete_inStream (s : State) : s.complete.inStream = s.inStream := rfl
@[simp] theorem State.complete_linkOpen (s : State) : s.complete.linkOpen = s.linkOpen := rfl
@[simp] theorem State.complete_issuedOpen (s : State) : s.complete.issuedOpen = s.issuedOpen := rfl
@[simp] theorem State.complete_answers (s : State) : s.complete.answers = s.answers := rfl
@[simp] theorem State.complete_answered (s : State) : s.complete.answered = s.answered := rfl
@[simp] theorem State.complete_host (s : State) : s.complete.host = s.host := rfl
@[simp] theorem State.complete_hostReads (s : State) : s.complete.hostReads = s.hostReads := rfl
@[simp] theorem State.complete_seenIdle (s : State) : s.complete.seenIdle = s.seenIdle := rfl
@[simp] theorem State.complete_windows (s : State) : s.complete.windows = s.windows := rfl
@[simp] theorem State.complete_draws (s : State) : s.complete.draws = s.draws := rfl

/-! ### State.stageFrame -/

@[simp] theorem State.stageFrame_cfg (f : List Byte) (s : State) : (s.stageFrame f).cfg = s.cfg := rfl
@[simp] theorem State.stageFrame_addr (f : List Byte) (s : State) : (s.stageFrame f).addr = s.addr := rfl
@[simp] theorem State.stageFrame_fault (f : List Byte) (s : State) : (s.stageFrame f).fault = s.fault := rfl
@[simp] theorem State.stageFrame_linkErr (f : List Byte) (s : State) :
    (s.stageFrame f).linkErr = s.linkErr :=
  rfl
@[simp] theorem State.stageFrame_cause (f : List Byte) (s : State) : (s.stageFrame f).cause = s.cause := rfl
@[simp] theorem State.stageFrame_decHdr (f : List Byte) (s : State) :
    (s.stageFrame f).decHdr = s.decHdr :=
  rfl
@[simp] theorem State.stageFrame_decInfo (f : List Byte) (s : State) :
    (s.stageFrame f).decInfo = s.decInfo :=
  rfl
@[simp] theorem State.stageFrame_faultCmd (f : List Byte) (s : State) :
    (s.stageFrame f).faultCmd = s.faultCmd :=
  rfl
@[simp] theorem State.stageFrame_faultAddr (f : List Byte) (s : State) :
    (s.stageFrame f).faultAddr = s.faultAddr :=
  rfl
@[simp] theorem State.stageFrame_stage (f : List Byte) (s : State) :
    (s.stageFrame f).stage = s.stage.put s.cur.toNat f :=
  rfl
@[simp] theorem State.stageFrame_stageEpoch (f : List Byte) (s : State) :
    (s.stageFrame f).stageEpoch = s.stageEpoch :=
  rfl
@[simp] theorem State.stageFrame_cur (f : List Byte) (s : State) :
    (s.stageFrame f).cur = BitVec.ofNat 13 (s.cur.toNat + f.length) :=
  rfl
@[simp] theorem State.stageFrame_phase (f : List Byte) (s : State) : (s.stageFrame f).phase = s.phase := rfl
@[simp] theorem State.stageFrame_lcmd (f : List Byte) (s : State) : (s.stageFrame f).lcmd = s.lcmd := rfl
@[simp] theorem State.stageFrame_laddr (f : List Byte) (s : State) : (s.stageFrame f).laddr = s.laddr := rfl
@[simp] theorem State.stageFrame_cmdPort (f : List Byte) (s : State) :
    (s.stageFrame f).cmdPort = s.cmdPort :=
  rfl
@[simp] theorem State.stageFrame_abandoned (f : List Byte) (s : State) :
    (s.stageFrame f).abandoned = s.abandoned :=
  rfl
@[simp] theorem State.stageFrame_hmem (f : List Byte) (s : State) : (s.stageFrame f).hmem = s.hmem := rfl
@[simp] theorem State.stageFrame_outStream (f : List Byte) (s : State) :
    (s.stageFrame f).outStream = s.outStream :=
  rfl
@[simp] theorem State.stageFrame_inStream (f : List Byte) (s : State) :
    (s.stageFrame f).inStream = s.inStream :=
  rfl
@[simp] theorem State.stageFrame_linkOpen (f : List Byte) (s : State) :
    (s.stageFrame f).linkOpen = s.linkOpen :=
  rfl
@[simp] theorem State.stageFrame_issuedOpen (f : List Byte) (s : State) :
    (s.stageFrame f).issuedOpen = s.issuedOpen :=
  rfl
@[simp] theorem State.stageFrame_answers (f : List Byte) (s : State) :
    (s.stageFrame f).answers = s.answers :=
  rfl
@[simp] theorem State.stageFrame_answered (f : List Byte) (s : State) :
    (s.stageFrame f).answered = s.answered :=
  rfl
@[simp] theorem State.stageFrame_host (f : List Byte) (s : State) : (s.stageFrame f).host = s.host := rfl
@[simp] theorem State.stageFrame_hostReads (f : List Byte) (s : State) :
    (s.stageFrame f).hostReads = s.hostReads :=
  rfl
@[simp] theorem State.stageFrame_seenIdle (f : List Byte) (s : State) :
    (s.stageFrame f).seenIdle = s.seenIdle :=
  rfl
@[simp] theorem State.stageFrame_windows (f : List Byte) (s : State) :
    (s.stageFrame f).windows = s.windows :=
  rfl
@[simp] theorem State.stageFrame_draws (f : List Byte) (s : State) : (s.stageFrame f).draws = s.draws := rfl

/-! ### State.issueOut -/

@[simp] theorem State.issueOut_cfg (s : State) : s.issueOut.cfg = s.cfg := rfl
@[simp] theorem State.issueOut_addr (s : State) : s.issueOut.addr = s.addr := rfl
@[simp] theorem State.issueOut_fault (s : State) : s.issueOut.fault = s.fault := rfl
@[simp] theorem State.issueOut_linkErr (s : State) : s.issueOut.linkErr = s.linkErr := rfl
@[simp] theorem State.issueOut_cause (s : State) : s.issueOut.cause = s.cause := rfl
@[simp] theorem State.issueOut_decHdr (s : State) : s.issueOut.decHdr = s.decHdr := rfl
@[simp] theorem State.issueOut_decInfo (s : State) : s.issueOut.decInfo = s.decInfo := rfl
@[simp] theorem State.issueOut_faultCmd (s : State) : s.issueOut.faultCmd = s.faultCmd := rfl
@[simp] theorem State.issueOut_faultAddr (s : State) : s.issueOut.faultAddr = s.faultAddr := rfl
@[simp] theorem State.issueOut_stage (s : State) : s.issueOut.stage = s.stage := rfl
@[simp] theorem State.issueOut_stageEpoch (s : State) : s.issueOut.stageEpoch = s.stageEpoch := rfl
@[simp] theorem State.issueOut_cur (s : State) : s.issueOut.cur = s.cur := rfl
@[simp] theorem State.issueOut_phase (s : State) :
    s.issueOut.phase = .waitOut (s.stageBytes s.cur.toNat) :=
  rfl
@[simp] theorem State.issueOut_lcmd (s : State) : s.issueOut.lcmd = s.lcmd := rfl
@[simp] theorem State.issueOut_laddr (s : State) : s.issueOut.laddr = s.laddr := rfl
@[simp] theorem State.issueOut_cmdPort (s : State) : s.issueOut.cmdPort = s.cmdPort := rfl
@[simp] theorem State.issueOut_abandoned (s : State) : s.issueOut.abandoned = s.abandoned := rfl
@[simp] theorem State.issueOut_hmem (s : State) : s.issueOut.hmem = s.hmem := rfl
@[simp] theorem State.issueOut_outStream (s : State) : s.issueOut.outStream = s.outStream := rfl
@[simp] theorem State.issueOut_inStream (s : State) : s.issueOut.inStream = s.inStream := rfl
@[simp] theorem State.issueOut_linkOpen (s : State) : s.issueOut.linkOpen = s.linkOpen := rfl
@[simp] theorem State.issueOut_issuedOpen (s : State) : s.issueOut.issuedOpen = s.linkOpen := rfl
@[simp] theorem State.issueOut_answers (s : State) : s.issueOut.answers = s.answers := rfl
@[simp] theorem State.issueOut_answered (s : State) : s.issueOut.answered = s.answered := rfl
@[simp] theorem State.issueOut_host (s : State) : s.issueOut.host = s.host := rfl
@[simp] theorem State.issueOut_hostReads (s : State) : s.issueOut.hostReads = s.hostReads := rfl
@[simp] theorem State.issueOut_seenIdle (s : State) : s.issueOut.seenIdle = s.seenIdle := rfl
@[simp] theorem State.issueOut_windows (s : State) : s.issueOut.windows = s.windows := rfl
@[simp] theorem State.issueOut_draws (s : State) : s.issueOut.draws = s.draws := rfl

/-! ### State.issueIn -/

@[simp] theorem State.issueIn_cfg (k : Nat) (s : State) : (s.issueIn k).cfg = s.cfg := rfl
@[simp] theorem State.issueIn_addr (k : Nat) (s : State) : (s.issueIn k).addr = s.addr := rfl
@[simp] theorem State.issueIn_fault (k : Nat) (s : State) : (s.issueIn k).fault = s.fault := rfl
@[simp] theorem State.issueIn_linkErr (k : Nat) (s : State) : (s.issueIn k).linkErr = s.linkErr := rfl
@[simp] theorem State.issueIn_cause (k : Nat) (s : State) : (s.issueIn k).cause = s.cause := rfl
@[simp] theorem State.issueIn_decHdr (k : Nat) (s : State) : (s.issueIn k).decHdr = s.decHdr := rfl
@[simp] theorem State.issueIn_decInfo (k : Nat) (s : State) : (s.issueIn k).decInfo = s.decInfo := rfl
@[simp] theorem State.issueIn_faultCmd (k : Nat) (s : State) : (s.issueIn k).faultCmd = s.faultCmd := rfl
@[simp] theorem State.issueIn_faultAddr (k : Nat) (s : State) : (s.issueIn k).faultAddr = s.faultAddr := rfl
@[simp] theorem State.issueIn_stage (k : Nat) (s : State) : (s.issueIn k).stage = s.stage := rfl
@[simp] theorem State.issueIn_stageEpoch (k : Nat) (s : State) :
    (s.issueIn k).stageEpoch = s.stageEpoch :=
  rfl
@[simp] theorem State.issueIn_cur (k : Nat) (s : State) : (s.issueIn k).cur = s.cur := rfl
@[simp] theorem State.issueIn_phase (k : Nat) (s : State) : (s.issueIn k).phase = .waitIn k := rfl
@[simp] theorem State.issueIn_lcmd (k : Nat) (s : State) : (s.issueIn k).lcmd = s.lcmd := rfl
@[simp] theorem State.issueIn_laddr (k : Nat) (s : State) : (s.issueIn k).laddr = s.laddr := rfl
@[simp] theorem State.issueIn_cmdPort (k : Nat) (s : State) : (s.issueIn k).cmdPort = s.cmdPort := rfl
@[simp] theorem State.issueIn_abandoned (k : Nat) (s : State) : (s.issueIn k).abandoned = s.abandoned := rfl
@[simp] theorem State.issueIn_hmem (k : Nat) (s : State) : (s.issueIn k).hmem = s.hmem := rfl
@[simp] theorem State.issueIn_outStream (k : Nat) (s : State) : (s.issueIn k).outStream = s.outStream := rfl
@[simp] theorem State.issueIn_inStream (k : Nat) (s : State) : (s.issueIn k).inStream = s.inStream := rfl
@[simp] theorem State.issueIn_linkOpen (k : Nat) (s : State) : (s.issueIn k).linkOpen = s.linkOpen := rfl
@[simp] theorem State.issueIn_issuedOpen (k : Nat) (s : State) : (s.issueIn k).issuedOpen = s.linkOpen := rfl
@[simp] theorem State.issueIn_answers (k : Nat) (s : State) : (s.issueIn k).answers = s.answers := rfl
@[simp] theorem State.issueIn_answered (k : Nat) (s : State) : (s.issueIn k).answered = s.answered := rfl
@[simp] theorem State.issueIn_host (k : Nat) (s : State) : (s.issueIn k).host = s.host := rfl
@[simp] theorem State.issueIn_hostReads (k : Nat) (s : State) : (s.issueIn k).hostReads = s.hostReads := rfl
@[simp] theorem State.issueIn_seenIdle (k : Nat) (s : State) : (s.issueIn k).seenIdle = s.seenIdle := rfl
@[simp] theorem State.issueIn_windows (k : Nat) (s : State) : (s.issueIn k).windows = s.windows := rfl
@[simp] theorem State.issueIn_draws (k : Nat) (s : State) : (s.issueIn k).draws = s.draws := rfl

/-! ### State.setDecoded -/

@[simp] theorem State.setDecoded_cfg (h : Header) (s : State) : (s.setDecoded h).cfg = s.cfg := rfl
@[simp] theorem State.setDecoded_addr (h : Header) (s : State) : (s.setDecoded h).addr = s.addr := rfl
@[simp] theorem State.setDecoded_fault (h : Header) (s : State) : (s.setDecoded h).fault = s.fault := rfl
@[simp] theorem State.setDecoded_linkErr (h : Header) (s : State) :
    (s.setDecoded h).linkErr = s.linkErr :=
  rfl
@[simp] theorem State.setDecoded_cause (h : Header) (s : State) : (s.setDecoded h).cause = s.cause := rfl
@[simp] theorem State.setDecoded_decHdr (h : Header) (s : State) :
    (s.setDecoded h).decHdr = decHdrWord h :=
  rfl
@[simp] theorem State.setDecoded_decInfo (h : Header) (s : State) :
    (s.setDecoded h).decInfo = decInfoWord s.cfg h :=
  rfl
@[simp] theorem State.setDecoded_faultCmd (h : Header) (s : State) :
    (s.setDecoded h).faultCmd = s.faultCmd :=
  rfl
@[simp] theorem State.setDecoded_faultAddr (h : Header) (s : State) :
    (s.setDecoded h).faultAddr = s.faultAddr :=
  rfl
@[simp] theorem State.setDecoded_stage (h : Header) (s : State) : (s.setDecoded h).stage = s.stage := rfl
@[simp] theorem State.setDecoded_stageEpoch (h : Header) (s : State) :
    (s.setDecoded h).stageEpoch = s.stageEpoch :=
  rfl
@[simp] theorem State.setDecoded_cur (h : Header) (s : State) : (s.setDecoded h).cur = s.cur := rfl
@[simp] theorem State.setDecoded_phase (h : Header) (s : State) : (s.setDecoded h).phase = s.phase := rfl
@[simp] theorem State.setDecoded_lcmd (h : Header) (s : State) : (s.setDecoded h).lcmd = s.lcmd := rfl
@[simp] theorem State.setDecoded_laddr (h : Header) (s : State) : (s.setDecoded h).laddr = s.laddr := rfl
@[simp] theorem State.setDecoded_cmdPort (h : Header) (s : State) :
    (s.setDecoded h).cmdPort = s.cmdPort :=
  rfl
@[simp] theorem State.setDecoded_abandoned (h : Header) (s : State) :
    (s.setDecoded h).abandoned = s.abandoned :=
  rfl
@[simp] theorem State.setDecoded_hmem (h : Header) (s : State) : (s.setDecoded h).hmem = s.hmem := rfl
@[simp] theorem State.setDecoded_outStream (h : Header) (s : State) :
    (s.setDecoded h).outStream = s.outStream :=
  rfl
@[simp] theorem State.setDecoded_inStream (h : Header) (s : State) :
    (s.setDecoded h).inStream = s.inStream :=
  rfl
@[simp] theorem State.setDecoded_linkOpen (h : Header) (s : State) :
    (s.setDecoded h).linkOpen = s.linkOpen :=
  rfl
@[simp] theorem State.setDecoded_issuedOpen (h : Header) (s : State) :
    (s.setDecoded h).issuedOpen = s.issuedOpen :=
  rfl
@[simp] theorem State.setDecoded_answers (h : Header) (s : State) :
    (s.setDecoded h).answers = s.answers :=
  rfl
@[simp] theorem State.setDecoded_answered (h : Header) (s : State) :
    (s.setDecoded h).answered = s.answered :=
  rfl
@[simp] theorem State.setDecoded_host (h : Header) (s : State) : (s.setDecoded h).host = s.host := rfl
@[simp] theorem State.setDecoded_hostReads (h : Header) (s : State) :
    (s.setDecoded h).hostReads = s.hostReads :=
  rfl
@[simp] theorem State.setDecoded_seenIdle (h : Header) (s : State) :
    (s.setDecoded h).seenIdle = s.seenIdle :=
  rfl
@[simp] theorem State.setDecoded_windows (h : Header) (s : State) :
    (s.setDecoded h).windows = s.windows :=
  rfl
@[simp] theorem State.setDecoded_draws (h : Header) (s : State) : (s.setDecoded h).draws = s.draws := rfl

/-! ### State.dropAnswer -/

@[simp] theorem State.dropAnswer_cfg (s : State) : s.dropAnswer.cfg = s.cfg := rfl
@[simp] theorem State.dropAnswer_addr (s : State) : s.dropAnswer.addr = s.addr := rfl
@[simp] theorem State.dropAnswer_fault (s : State) : s.dropAnswer.fault = s.fault := rfl
@[simp] theorem State.dropAnswer_linkErr (s : State) : s.dropAnswer.linkErr = s.linkErr := rfl
@[simp] theorem State.dropAnswer_cause (s : State) : s.dropAnswer.cause = s.cause := rfl
@[simp] theorem State.dropAnswer_decHdr (s : State) : s.dropAnswer.decHdr = s.decHdr := rfl
@[simp] theorem State.dropAnswer_decInfo (s : State) : s.dropAnswer.decInfo = s.decInfo := rfl
@[simp] theorem State.dropAnswer_faultCmd (s : State) : s.dropAnswer.faultCmd = s.faultCmd := rfl
@[simp] theorem State.dropAnswer_faultAddr (s : State) : s.dropAnswer.faultAddr = s.faultAddr := rfl
@[simp] theorem State.dropAnswer_stage (s : State) : s.dropAnswer.stage = s.stage := rfl
@[simp] theorem State.dropAnswer_stageEpoch (s : State) : s.dropAnswer.stageEpoch = s.stageEpoch := rfl
@[simp] theorem State.dropAnswer_cur (s : State) : s.dropAnswer.cur = s.cur := rfl
@[simp] theorem State.dropAnswer_phase (s : State) : s.dropAnswer.phase = s.phase := rfl
@[simp] theorem State.dropAnswer_lcmd (s : State) : s.dropAnswer.lcmd = s.lcmd := rfl
@[simp] theorem State.dropAnswer_laddr (s : State) : s.dropAnswer.laddr = s.laddr := rfl
@[simp] theorem State.dropAnswer_cmdPort (s : State) : s.dropAnswer.cmdPort = s.cmdPort := rfl
@[simp] theorem State.dropAnswer_abandoned (s : State) : s.dropAnswer.abandoned = s.abandoned := rfl
@[simp] theorem State.dropAnswer_hmem (s : State) : s.dropAnswer.hmem = s.hmem := rfl
@[simp] theorem State.dropAnswer_outStream (s : State) : s.dropAnswer.outStream = s.outStream := rfl
@[simp] theorem State.dropAnswer_inStream (s : State) : s.dropAnswer.inStream = s.inStream := rfl
@[simp] theorem State.dropAnswer_linkOpen (s : State) : s.dropAnswer.linkOpen = s.linkOpen := rfl
@[simp] theorem State.dropAnswer_issuedOpen (s : State) : s.dropAnswer.issuedOpen = s.issuedOpen := rfl
@[simp] theorem State.dropAnswer_answers (s : State) : s.dropAnswer.answers = s.answers.tail := rfl
@[simp] theorem State.dropAnswer_answered (s : State) : s.dropAnswer.answered = s.answered + 1 := rfl
@[simp] theorem State.dropAnswer_host (s : State) : s.dropAnswer.host = s.host := rfl
@[simp] theorem State.dropAnswer_hostReads (s : State) : s.dropAnswer.hostReads = s.hostReads := rfl
@[simp] theorem State.dropAnswer_seenIdle (s : State) : s.dropAnswer.seenIdle = s.seenIdle := rfl
@[simp] theorem State.dropAnswer_windows (s : State) : s.dropAnswer.windows = s.windows := rfl
@[simp] theorem State.dropAnswer_draws (s : State) : s.dropAnswer.draws = s.draws + 1 := rfl

/-! ### State.storeHmem -/

@[simp] theorem State.storeHmem_cfg (a : Nat) (bs : List Byte) (s : State) :
    (s.storeHmem a bs).cfg = s.cfg :=
  rfl
@[simp] theorem State.storeHmem_addr (a : Nat) (bs : List Byte) (s : State) :
    (s.storeHmem a bs).addr = s.addr :=
  rfl
@[simp] theorem State.storeHmem_fault (a : Nat) (bs : List Byte) (s : State) :
    (s.storeHmem a bs).fault = s.fault :=
  rfl
@[simp] theorem State.storeHmem_linkErr (a : Nat) (bs : List Byte) (s : State) :
    (s.storeHmem a bs).linkErr = s.linkErr :=
  rfl
@[simp] theorem State.storeHmem_cause (a : Nat) (bs : List Byte) (s : State) :
    (s.storeHmem a bs).cause = s.cause :=
  rfl
@[simp] theorem State.storeHmem_decHdr (a : Nat) (bs : List Byte) (s : State) :
    (s.storeHmem a bs).decHdr = s.decHdr :=
  rfl
@[simp] theorem State.storeHmem_decInfo (a : Nat) (bs : List Byte) (s : State) :
    (s.storeHmem a bs).decInfo = s.decInfo :=
  rfl
@[simp] theorem State.storeHmem_faultCmd (a : Nat) (bs : List Byte) (s : State) :
    (s.storeHmem a bs).faultCmd = s.faultCmd :=
  rfl
@[simp] theorem State.storeHmem_faultAddr (a : Nat) (bs : List Byte) (s : State) :
    (s.storeHmem a bs).faultAddr = s.faultAddr :=
  rfl
@[simp] theorem State.storeHmem_stage (a : Nat) (bs : List Byte) (s : State) :
    (s.storeHmem a bs).stage = s.stage :=
  rfl
@[simp] theorem State.storeHmem_stageEpoch (a : Nat) (bs : List Byte) (s : State) :
    (s.storeHmem a bs).stageEpoch = s.stageEpoch :=
  rfl
@[simp] theorem State.storeHmem_cur (a : Nat) (bs : List Byte) (s : State) :
    (s.storeHmem a bs).cur = s.cur :=
  rfl
@[simp] theorem State.storeHmem_phase (a : Nat) (bs : List Byte) (s : State) :
    (s.storeHmem a bs).phase = s.phase :=
  rfl
@[simp] theorem State.storeHmem_lcmd (a : Nat) (bs : List Byte) (s : State) :
    (s.storeHmem a bs).lcmd = s.lcmd :=
  rfl
@[simp] theorem State.storeHmem_laddr (a : Nat) (bs : List Byte) (s : State) :
    (s.storeHmem a bs).laddr = s.laddr :=
  rfl
@[simp] theorem State.storeHmem_cmdPort (a : Nat) (bs : List Byte) (s : State) :
    (s.storeHmem a bs).cmdPort = s.cmdPort :=
  rfl
@[simp] theorem State.storeHmem_abandoned (a : Nat) (bs : List Byte) (s : State) :
    (s.storeHmem a bs).abandoned = s.abandoned :=
  rfl
@[simp] theorem State.storeHmem_hmem (a : Nat) (bs : List Byte) (s : State) :
    (s.storeHmem a bs).hmem = s.hmem.write a bs :=
  rfl
@[simp] theorem State.storeHmem_outStream (a : Nat) (bs : List Byte) (s : State) :
    (s.storeHmem a bs).outStream = s.outStream :=
  rfl
@[simp] theorem State.storeHmem_inStream (a : Nat) (bs : List Byte) (s : State) :
    (s.storeHmem a bs).inStream = s.inStream :=
  rfl
@[simp] theorem State.storeHmem_linkOpen (a : Nat) (bs : List Byte) (s : State) :
    (s.storeHmem a bs).linkOpen = s.linkOpen :=
  rfl
@[simp] theorem State.storeHmem_issuedOpen (a : Nat) (bs : List Byte) (s : State) :
    (s.storeHmem a bs).issuedOpen = s.issuedOpen :=
  rfl
@[simp] theorem State.storeHmem_answers (a : Nat) (bs : List Byte) (s : State) :
    (s.storeHmem a bs).answers = s.answers :=
  rfl
@[simp] theorem State.storeHmem_answered (a : Nat) (bs : List Byte) (s : State) :
    (s.storeHmem a bs).answered = s.answered :=
  rfl
@[simp] theorem State.storeHmem_host (a : Nat) (bs : List Byte) (s : State) :
    (s.storeHmem a bs).host = s.host :=
  rfl
@[simp] theorem State.storeHmem_hostReads (a : Nat) (bs : List Byte) (s : State) :
    (s.storeHmem a bs).hostReads = s.hostReads :=
  rfl
@[simp] theorem State.storeHmem_seenIdle (a : Nat) (bs : List Byte) (s : State) :
    (s.storeHmem a bs).seenIdle = s.seenIdle :=
  rfl
@[simp] theorem State.storeHmem_windows (a : Nat) (bs : List Byte) (s : State) :
    (s.storeHmem a bs).windows = noteHeld a (s.hmem.readBlock a bs.length) s.windows :=
  rfl
@[simp] theorem State.storeHmem_draws (a : Nat) (bs : List Byte) (s : State) :
    (s.storeHmem a bs).draws = s.draws :=
  rfl

/-! ### State.answerOut -/

@[simp] theorem State.answerOut_cfg (bytes : List Byte) (s : State) : (s.answerOut bytes).cfg = s.cfg := rfl
@[simp] theorem State.answerOut_addr (bytes : List Byte) (s : State) :
    (s.answerOut bytes).addr = s.addr :=
  rfl
@[simp] theorem State.answerOut_fault (bytes : List Byte) (s : State) :
    (s.answerOut bytes).fault = s.fault :=
  rfl
@[simp] theorem State.answerOut_linkErr (bytes : List Byte) (s : State) :
    (s.answerOut bytes).linkErr = (s.linkErr || !s.nextAnswer.ok) :=
  rfl
@[simp] theorem State.answerOut_cause (bytes : List Byte) (s : State) :
    (s.answerOut bytes).cause = s.cause :=
  rfl
@[simp] theorem State.answerOut_decHdr (bytes : List Byte) (s : State) :
    (s.answerOut bytes).decHdr = s.decHdr :=
  rfl
@[simp] theorem State.answerOut_decInfo (bytes : List Byte) (s : State) :
    (s.answerOut bytes).decInfo = s.decInfo :=
  rfl
@[simp] theorem State.answerOut_faultCmd (bytes : List Byte) (s : State) :
    (s.answerOut bytes).faultCmd = s.faultCmd :=
  rfl
@[simp] theorem State.answerOut_faultAddr (bytes : List Byte) (s : State) :
    (s.answerOut bytes).faultAddr = s.faultAddr :=
  rfl
@[simp] theorem State.answerOut_stage (bytes : List Byte) (s : State) :
    (s.answerOut bytes).stage = s.stage :=
  rfl
@[simp] theorem State.answerOut_stageEpoch (bytes : List Byte) (s : State) :
    (s.answerOut bytes).stageEpoch = s.stageEpoch :=
  rfl
@[simp] theorem State.answerOut_cur (bytes : List Byte) (s : State) : (s.answerOut bytes).cur = 0 := rfl
@[simp] theorem State.answerOut_phase (bytes : List Byte) (s : State) :
    (s.answerOut bytes).phase = .idle :=
  rfl
@[simp] theorem State.answerOut_lcmd (bytes : List Byte) (s : State) :
    (s.answerOut bytes).lcmd = s.lcmd :=
  rfl
@[simp] theorem State.answerOut_laddr (bytes : List Byte) (s : State) :
    (s.answerOut bytes).laddr = s.laddr :=
  rfl
@[simp] theorem State.answerOut_cmdPort (bytes : List Byte) (s : State) :
    (s.answerOut bytes).cmdPort = s.cmdPort :=
  rfl
@[simp] theorem State.answerOut_abandoned (bytes : List Byte) (s : State) :
    (s.answerOut bytes).abandoned = s.abandoned :=
  rfl
@[simp] theorem State.answerOut_hmem (bytes : List Byte) (s : State) :
    (s.answerOut bytes).hmem = s.hmem :=
  rfl
@[simp] theorem State.answerOut_outStream (bytes : List Byte) (s : State) :
    (s.answerOut bytes).outStream = s.outStream ++ [⟨bytes, s.nextAnswer.ok, deliveredOf s.nextAnswer bytes, false⟩] :=
  rfl
@[simp] theorem State.answerOut_inStream (bytes : List Byte) (s : State) :
    (s.answerOut bytes).inStream = s.inStream :=
  rfl
@[simp] theorem State.answerOut_linkOpen (bytes : List Byte) (s : State) :
    (s.answerOut bytes).linkOpen = s.linkOpen :=
  rfl
@[simp] theorem State.answerOut_issuedOpen (bytes : List Byte) (s : State) :
    (s.answerOut bytes).issuedOpen = s.issuedOpen :=
  rfl
@[simp] theorem State.answerOut_answers (bytes : List Byte) (s : State) :
    (s.answerOut bytes).answers = s.answers.tail :=
  rfl
@[simp] theorem State.answerOut_answered (bytes : List Byte) (s : State) :
    (s.answerOut bytes).answered = s.answered + 1 :=
  rfl
@[simp] theorem State.answerOut_host (bytes : List Byte) (s : State) :
    (s.answerOut bytes).host = s.host :=
  rfl
@[simp] theorem State.answerOut_hostReads (bytes : List Byte) (s : State) :
    (s.answerOut bytes).hostReads = s.hostReads :=
  rfl
@[simp] theorem State.answerOut_seenIdle (bytes : List Byte) (s : State) :
    (s.answerOut bytes).seenIdle = s.seenIdle :=
  rfl
@[simp] theorem State.answerOut_windows (bytes : List Byte) (s : State) :
    (s.answerOut bytes).windows = s.windows :=
  rfl
@[simp] theorem State.answerOut_draws (bytes : List Byte) (s : State) :
    (s.answerOut bytes).draws = s.draws + 1 :=
  rfl

/-! ### State.answerIn -/

@[simp] theorem State.answerIn_cfg (k : Nat) (s : State) : (s.answerIn k).cfg = s.cfg := rfl
@[simp] theorem State.answerIn_addr (k : Nat) (s : State) : (s.answerIn k).addr = s.addr := rfl
@[simp] theorem State.answerIn_fault (k : Nat) (s : State) : (s.answerIn k).fault = s.fault := rfl
@[simp] theorem State.answerIn_linkErr (k : Nat) (s : State) :
    (s.answerIn k).linkErr = (s.linkErr || !s.nextAnswer.ok) :=
  rfl
@[simp] theorem State.answerIn_cause (k : Nat) (s : State) : (s.answerIn k).cause = s.cause := rfl
@[simp] theorem State.answerIn_decHdr (k : Nat) (s : State) : (s.answerIn k).decHdr = s.decHdr := rfl
@[simp] theorem State.answerIn_decInfo (k : Nat) (s : State) : (s.answerIn k).decInfo = s.decInfo := rfl
@[simp] theorem State.answerIn_faultCmd (k : Nat) (s : State) : (s.answerIn k).faultCmd = s.faultCmd := rfl
@[simp] theorem State.answerIn_faultAddr (k : Nat) (s : State) : (s.answerIn k).faultAddr = s.faultAddr := rfl
@[simp] theorem State.answerIn_stage (k : Nat) (s : State) : (s.answerIn k).stage = s.stage := rfl
@[simp] theorem State.answerIn_stageEpoch (k : Nat) (s : State) :
    (s.answerIn k).stageEpoch = s.stageEpoch :=
  rfl
@[simp] theorem State.answerIn_cur (k : Nat) (s : State) : (s.answerIn k).cur = s.cur := rfl
@[simp] theorem State.answerIn_phase (k : Nat) (s : State) : (s.answerIn k).phase = .idle := rfl
@[simp] theorem State.answerIn_lcmd (k : Nat) (s : State) : (s.answerIn k).lcmd = s.lcmd := rfl
@[simp] theorem State.answerIn_laddr (k : Nat) (s : State) : (s.answerIn k).laddr = s.laddr := rfl
@[simp] theorem State.answerIn_cmdPort (k : Nat) (s : State) : (s.answerIn k).cmdPort = s.cmdPort := rfl
@[simp] theorem State.answerIn_abandoned (k : Nat) (s : State) : (s.answerIn k).abandoned = s.abandoned := rfl
@[simp] theorem State.answerIn_hmem (k : Nat) (s : State) :
    (s.answerIn k).hmem = s.hmem.write s.laddr.toNat (s.landed s.laddr.toNat (s.answerBytes k)) :=
  rfl
@[simp] theorem State.answerIn_outStream (k : Nat) (s : State) : (s.answerIn k).outStream = s.outStream := rfl
@[simp] theorem State.answerIn_inStream (k : Nat) (s : State) :
    (s.answerIn k).inStream = s.inStream ++ [⟨k, s.nextAnswer.ok, if s.nextAnswer.ok then s.answerBytes k else [], false⟩] :=
  rfl
@[simp] theorem State.answerIn_linkOpen (k : Nat) (s : State) : (s.answerIn k).linkOpen = s.linkOpen := rfl
@[simp] theorem State.answerIn_issuedOpen (k : Nat) (s : State) :
    (s.answerIn k).issuedOpen = s.issuedOpen :=
  rfl
@[simp] theorem State.answerIn_answers (k : Nat) (s : State) : (s.answerIn k).answers = s.answers.tail := rfl
@[simp] theorem State.answerIn_answered (k : Nat) (s : State) :
    (s.answerIn k).answered = s.answered + 1 :=
  rfl
@[simp] theorem State.answerIn_host (k : Nat) (s : State) : (s.answerIn k).host = s.host := rfl
@[simp] theorem State.answerIn_hostReads (k : Nat) (s : State) : (s.answerIn k).hostReads = s.hostReads := rfl
@[simp] theorem State.answerIn_seenIdle (k : Nat) (s : State) : (s.answerIn k).seenIdle = s.seenIdle := rfl
@[simp] theorem State.answerIn_windows (k : Nat) (s : State) :
    (s.answerIn k).windows = noteHeld s.laddr.toNat (s.answerBytes k)
      (noteHeld s.laddr.toNat (s.hmem.readBlock s.laddr.toNat (s.landed s.laddr.toNat (s.answerBytes k)).length) s.windows) :=
  rfl
@[simp] theorem State.answerIn_draws (k : Nat) (s : State) : (s.answerIn k).draws = s.draws + 1 := rfl

/-! ### State.hardReset -/

@[simp] theorem State.hardReset_cfg (s : State) : s.hardReset.cfg = s.cfg := rfl
@[simp] theorem State.hardReset_addr (s : State) : s.hardReset.addr = 0 := rfl
@[simp] theorem State.hardReset_fault (s : State) : s.hardReset.fault = false := rfl
@[simp] theorem State.hardReset_linkErr (s : State) : s.hardReset.linkErr = false := rfl
@[simp] theorem State.hardReset_cause (s : State) : s.hardReset.cause = .none := rfl
@[simp] theorem State.hardReset_decHdr (s : State) : s.hardReset.decHdr = 0 := rfl
@[simp] theorem State.hardReset_decInfo (s : State) : s.hardReset.decInfo = 0 := rfl
@[simp] theorem State.hardReset_faultCmd (s : State) : s.hardReset.faultCmd = 0 := rfl
@[simp] theorem State.hardReset_faultAddr (s : State) : s.hardReset.faultAddr = 0 := rfl
@[simp] theorem State.hardReset_stage (s : State) : s.hardReset.stage = [] := rfl
@[simp] theorem State.hardReset_stageEpoch (s : State) : s.hardReset.stageEpoch = s.draws + 1 := rfl
@[simp] theorem State.hardReset_cur (s : State) : s.hardReset.cur = 0 := rfl
@[simp] theorem State.hardReset_phase (s : State) : s.hardReset.phase = .idle := rfl
@[simp] theorem State.hardReset_lcmd (s : State) : s.hardReset.lcmd = 0 := rfl
@[simp] theorem State.hardReset_laddr (s : State) : s.hardReset.laddr = 0 := rfl
@[simp] theorem State.hardReset_cmdPort (s : State) : s.hardReset.cmdPort = none := rfl
@[simp] theorem State.hardReset_abandoned (s : State) :
    s.hardReset.abandoned = s.abandoned ++ s.outstanding :=
  rfl
@[simp] theorem State.hardReset_hmem (s : State) : s.hardReset.hmem = s.hmem := rfl
@[simp] theorem State.hardReset_outStream (s : State) : s.hardReset.outStream = s.outStream := rfl
@[simp] theorem State.hardReset_inStream (s : State) : s.hardReset.inStream = s.inStream := rfl
@[simp] theorem State.hardReset_linkOpen (s : State) : s.hardReset.linkOpen = s.linkOpen := rfl
@[simp] theorem State.hardReset_issuedOpen (s : State) : s.hardReset.issuedOpen = s.issuedOpen := rfl
@[simp] theorem State.hardReset_answers (s : State) : s.hardReset.answers = s.answers := rfl
@[simp] theorem State.hardReset_answered (s : State) : s.hardReset.answered = s.answered := rfl
@[simp] theorem State.hardReset_host (s : State) : s.hardReset.host = s.host := rfl
@[simp] theorem State.hardReset_hostReads (s : State) : s.hardReset.hostReads = s.hostReads := rfl
@[simp] theorem State.hardReset_seenIdle (s : State) : s.hardReset.seenIdle = s.seenIdle := rfl
@[simp] theorem State.hardReset_windows (s : State) : s.hardReset.windows = s.windows := rfl
@[simp] theorem State.hardReset_draws (s : State) : s.hardReset.draws = s.draws + 1 := rfl

/-! ### State.csrRead -/

@[simp] theorem State.csrRead_cfg (o : Byte) (s : State) : (s.csrRead o).cfg = s.cfg := rfl
@[simp] theorem State.csrRead_addr (o : Byte) (s : State) : (s.csrRead o).addr = s.addr := rfl
@[simp] theorem State.csrRead_fault (o : Byte) (s : State) : (s.csrRead o).fault = s.fault := rfl
@[simp] theorem State.csrRead_linkErr (o : Byte) (s : State) : (s.csrRead o).linkErr = s.linkErr := rfl
@[simp] theorem State.csrRead_cause (o : Byte) (s : State) : (s.csrRead o).cause = s.cause := rfl
@[simp] theorem State.csrRead_decHdr (o : Byte) (s : State) : (s.csrRead o).decHdr = s.decHdr := rfl
@[simp] theorem State.csrRead_decInfo (o : Byte) (s : State) : (s.csrRead o).decInfo = s.decInfo := rfl
@[simp] theorem State.csrRead_faultCmd (o : Byte) (s : State) : (s.csrRead o).faultCmd = s.faultCmd := rfl
@[simp] theorem State.csrRead_faultAddr (o : Byte) (s : State) : (s.csrRead o).faultAddr = s.faultAddr := rfl
@[simp] theorem State.csrRead_stage (o : Byte) (s : State) : (s.csrRead o).stage = s.stage := rfl
@[simp] theorem State.csrRead_stageEpoch (o : Byte) (s : State) :
    (s.csrRead o).stageEpoch = s.stageEpoch :=
  rfl
@[simp] theorem State.csrRead_cur (o : Byte) (s : State) : (s.csrRead o).cur = s.cur := rfl
@[simp] theorem State.csrRead_phase (o : Byte) (s : State) : (s.csrRead o).phase = s.phase := rfl
@[simp] theorem State.csrRead_lcmd (o : Byte) (s : State) : (s.csrRead o).lcmd = s.lcmd := rfl
@[simp] theorem State.csrRead_laddr (o : Byte) (s : State) : (s.csrRead o).laddr = s.laddr := rfl
@[simp] theorem State.csrRead_cmdPort (o : Byte) (s : State) : (s.csrRead o).cmdPort = s.cmdPort := rfl
@[simp] theorem State.csrRead_abandoned (o : Byte) (s : State) : (s.csrRead o).abandoned = s.abandoned := rfl
@[simp] theorem State.csrRead_hmem (o : Byte) (s : State) : (s.csrRead o).hmem = s.hmem := rfl
@[simp] theorem State.csrRead_outStream (o : Byte) (s : State) : (s.csrRead o).outStream = s.outStream := rfl
@[simp] theorem State.csrRead_inStream (o : Byte) (s : State) : (s.csrRead o).inStream = s.inStream := rfl
@[simp] theorem State.csrRead_linkOpen (o : Byte) (s : State) : (s.csrRead o).linkOpen = s.linkOpen := rfl
@[simp] theorem State.csrRead_issuedOpen (o : Byte) (s : State) :
    (s.csrRead o).issuedOpen = s.issuedOpen :=
  rfl
@[simp] theorem State.csrRead_answers (o : Byte) (s : State) : (s.csrRead o).answers = s.answers := rfl
@[simp] theorem State.csrRead_answered (o : Byte) (s : State) : (s.csrRead o).answered = s.answered := rfl
@[simp] theorem State.csrRead_host (o : Byte) (s : State) : (s.csrRead o).host = s.host := rfl
@[simp] theorem State.csrRead_hostReads (o : Byte) (s : State) :
    (s.csrRead o).hostReads = s.hostReads ++ [.csr o (s.csrValue o)] :=
  rfl
@[simp] theorem State.csrRead_seenIdle (o : Byte) (s : State) :
    (s.csrRead o).seenIdle = if o = 0x08 ∧ s.busy = false then true else s.seenIdle :=
  rfl
@[simp] theorem State.csrRead_windows (o : Byte) (s : State) :
    (s.csrRead o).windows = if o = 0x08 ∧ s.busy = false then [] else s.windows :=
  rfl
@[simp] theorem State.csrRead_draws (o : Byte) (s : State) :
    (s.csrRead o).draws = if s.busy && freeWhileBusy o then s.draws + 1 else s.draws :=
  rfl

/-! ### State.hostMemRead -/

@[simp] theorem State.hostMemRead_cfg (a : Word) (n : Nat) (s : State) :
    (s.hostMemRead a n).cfg = s.cfg :=
  rfl
@[simp] theorem State.hostMemRead_addr (a : Word) (n : Nat) (s : State) :
    (s.hostMemRead a n).addr = s.addr :=
  rfl
@[simp] theorem State.hostMemRead_fault (a : Word) (n : Nat) (s : State) :
    (s.hostMemRead a n).fault = s.fault :=
  rfl
@[simp] theorem State.hostMemRead_linkErr (a : Word) (n : Nat) (s : State) :
    (s.hostMemRead a n).linkErr = s.linkErr :=
  rfl
@[simp] theorem State.hostMemRead_cause (a : Word) (n : Nat) (s : State) :
    (s.hostMemRead a n).cause = s.cause :=
  rfl
@[simp] theorem State.hostMemRead_decHdr (a : Word) (n : Nat) (s : State) :
    (s.hostMemRead a n).decHdr = s.decHdr :=
  rfl
@[simp] theorem State.hostMemRead_decInfo (a : Word) (n : Nat) (s : State) :
    (s.hostMemRead a n).decInfo = s.decInfo :=
  rfl
@[simp] theorem State.hostMemRead_faultCmd (a : Word) (n : Nat) (s : State) :
    (s.hostMemRead a n).faultCmd = s.faultCmd :=
  rfl
@[simp] theorem State.hostMemRead_faultAddr (a : Word) (n : Nat) (s : State) :
    (s.hostMemRead a n).faultAddr = s.faultAddr :=
  rfl
@[simp] theorem State.hostMemRead_stage (a : Word) (n : Nat) (s : State) :
    (s.hostMemRead a n).stage = s.stage :=
  rfl
@[simp] theorem State.hostMemRead_stageEpoch (a : Word) (n : Nat) (s : State) :
    (s.hostMemRead a n).stageEpoch = s.stageEpoch :=
  rfl
@[simp] theorem State.hostMemRead_cur (a : Word) (n : Nat) (s : State) :
    (s.hostMemRead a n).cur = s.cur :=
  rfl
@[simp] theorem State.hostMemRead_phase (a : Word) (n : Nat) (s : State) :
    (s.hostMemRead a n).phase = s.phase :=
  rfl
@[simp] theorem State.hostMemRead_lcmd (a : Word) (n : Nat) (s : State) :
    (s.hostMemRead a n).lcmd = s.lcmd :=
  rfl
@[simp] theorem State.hostMemRead_laddr (a : Word) (n : Nat) (s : State) :
    (s.hostMemRead a n).laddr = s.laddr :=
  rfl
@[simp] theorem State.hostMemRead_cmdPort (a : Word) (n : Nat) (s : State) :
    (s.hostMemRead a n).cmdPort = s.cmdPort :=
  rfl
@[simp] theorem State.hostMemRead_abandoned (a : Word) (n : Nat) (s : State) :
    (s.hostMemRead a n).abandoned = s.abandoned :=
  rfl
@[simp] theorem State.hostMemRead_hmem (a : Word) (n : Nat) (s : State) :
    (s.hostMemRead a n).hmem = s.hmem :=
  rfl
@[simp] theorem State.hostMemRead_outStream (a : Word) (n : Nat) (s : State) :
    (s.hostMemRead a n).outStream = s.outStream :=
  rfl
@[simp] theorem State.hostMemRead_inStream (a : Word) (n : Nat) (s : State) :
    (s.hostMemRead a n).inStream = s.inStream :=
  rfl
@[simp] theorem State.hostMemRead_linkOpen (a : Word) (n : Nat) (s : State) :
    (s.hostMemRead a n).linkOpen = s.linkOpen :=
  rfl
@[simp] theorem State.hostMemRead_issuedOpen (a : Word) (n : Nat) (s : State) :
    (s.hostMemRead a n).issuedOpen = s.issuedOpen :=
  rfl
@[simp] theorem State.hostMemRead_answers (a : Word) (n : Nat) (s : State) :
    (s.hostMemRead a n).answers = s.answers :=
  rfl
@[simp] theorem State.hostMemRead_answered (a : Word) (n : Nat) (s : State) :
    (s.hostMemRead a n).answered = s.answered :=
  rfl
@[simp] theorem State.hostMemRead_host (a : Word) (n : Nat) (s : State) :
    (s.hostMemRead a n).host = s.host :=
  rfl
@[simp] theorem State.hostMemRead_hostReads (a : Word) (n : Nat) (s : State) :
    (s.hostMemRead a n).hostReads = s.hostReads ++ [.mem a ((List.range n).map fun i => s.hostByte i (a.toNat + i))] :=
  rfl
@[simp] theorem State.hostMemRead_seenIdle (a : Word) (n : Nat) (s : State) :
    (s.hostMemRead a n).seenIdle = s.seenIdle :=
  rfl
@[simp] theorem State.hostMemRead_windows (a : Word) (n : Nat) (s : State) :
    (s.hostMemRead a n).windows = s.windows :=
  rfl
@[simp] theorem State.hostMemRead_draws (a : Word) (n : Nat) (s : State) :
    (s.hostMemRead a n).draws = if s.windows = [] then s.draws else s.draws + 1 :=
  rfl

/-! ### STATUS.BUSY, which is computed from PHASE (R33) -/

@[simp] theorem State.busy_clearPort (s : State) : s.clearPort.busy = s.busy := rfl
@[simp] theorem State.busy_raise (c : Cause) (w : Word) (s : State) : (s.raise c w).busy = s.busy := rfl
@[simp] theorem State.busy_complete (s : State) : s.complete.busy = false := rfl
@[simp] theorem State.busy_accept (w : Word) (s : State) : (s.accept w).busy = true := rfl
@[simp] theorem State.busy_softReset (s : State) : s.softReset.busy = false := rfl
@[simp] theorem State.busy_hardReset (s : State) : s.hardReset.busy = false := rfl
@[simp] theorem State.busy_answerOut (bytes : List Byte) (s : State) : (s.answerOut bytes).busy = false := rfl
@[simp] theorem State.busy_answerIn (k : Nat) (s : State) : (s.answerIn k).busy = false := rfl

theorem State.busy_eq_false {s : State} : s.busy = false ↔ s.phase = .idle := by
  simp [State.busy]

theorem State.busy_eq_true {s : State} : s.busy = true ↔ s.phase ≠ .idle := by
  simp [State.busy]

end Sys2Proof.Machine
end

