-- ==== Sys2Proof/Laws/Ops.lean ====
section
/-! SUPPORT. One lemma per shared operation: all it can do. Proofs about meanings and about the step cite these and
unfold no operation. -/

namespace Sys2Proof.Machine

/-- Two next states that are the same outcome are the same state. -/
theorem next_inj {s t : State} (h : (.next s : Host.Outcome State Fault Refusal) = .next t) : t = s := by
  cases h
  rfl

/-! ## Acceptance -/

/-- What an offered word does (R96, R97). -/
theorem State.offer_cases (w : Word) (run : State → State) (s : State) :
    (s.fault = true ∧ s.busy = false ∧ w = sresetWord ∧
        s.offer w run = s.clearPort.softReset) ∨
      (s.fault = true ∧ (s.busy = true ∨ w ≠ sresetWord) ∧ s.offer w run = s.clearPort) ∨
      (s.fault = false ∧ s.busy = true ∧
        s.offer w run = s.clearPort.raise .cmdWhileBusy w) ∨
      (s.fault = false ∧ s.busy = false ∧ s.offer w run = run s.clearPort) := by
  cases hf : s.fault <;> cases hb : s.busy
  · exact .inr (.inr (.inr ⟨rfl, rfl, by simp [State.offer, hf, hb]⟩))
  · exact .inr (.inr (.inl ⟨rfl, rfl, by simp [State.offer, hf, hb]⟩))
  · by_cases hw : w = sresetWord
    · exact .inl ⟨rfl, rfl, hw, by simp [State.offer, hf, hb, hw]⟩
    · exact .inr (.inl ⟨rfl, .inr hw, by simp [State.offer, hf, hw]⟩)
  · exact .inr (.inl ⟨rfl, .inl rfl, by simp [State.offer, hf, hb]⟩)

/-- What the offer of a command that is neither halted nor busy does (R96). -/
theorem State.offerChecked_open {s : State} {w : Word} {check : State → Option Cause} (hf : s.fault = false)
    (hb : s.busy = false) :
    s.offerChecked w check =
      match check s.clearPort with
      | some c => s.clearPort.raise c w
      | none => s.clearPort.accept w := by
  simp only [State.offerChecked, State.offer, hf, hb]
  rfl

/-- What the offer of a checked command does (R96, R97). -/
theorem State.offerChecked_cases (w : Word) (check : State → Option Cause) (s : State) :
    (s.fault = true ∧ s.busy = false ∧ w = sresetWord ∧
        s.offerChecked w check = s.clearPort.softReset) ∨
      (s.fault = true ∧ (s.busy = true ∨ w ≠ sresetWord) ∧ s.offerChecked w check = s.clearPort) ∨
      (s.fault = false ∧ s.busy = true ∧
        s.offerChecked w check = s.clearPort.raise .cmdWhileBusy w) ∨
      (∃ c, s.fault = false ∧ s.busy = false ∧ check s.clearPort = some c ∧
        s.offerChecked w check = s.clearPort.raise c w) ∨
      (s.fault = false ∧ s.busy = false ∧ check s.clearPort = none ∧
        s.offerChecked w check = s.clearPort.accept w) := by
  unfold State.offerChecked
  rcases s.offer_cases w _ with h | h | h | ⟨hf, hb, h⟩
  · exact .inl h
  · exact .inr (.inl h)
  · exact .inr (.inr (.inl h))
  · cases hc : check s.clearPort with
    | some c => exact .inr (.inr (.inr (.inl ⟨c, hf, hb, rfl, by rw [h, hc]⟩)))
    | none => exact .inr (.inr (.inr (.inr ⟨hf, hb, rfl, by rw [h, hc]⟩)))

/-- A word that neither runs nor faults anew: everything but the port stays, or the FES is reset (R97). -/
theorem State.offer_halted {s : State} {w : Word} {run : State → State} (hf : s.fault = true)
    (h : s.busy = true ∨ w ≠ sresetWord) : s.offer w run = s.clearPort := by
  rcases s.offer_cases w run with ⟨_, hb, hw, _⟩ | ⟨_, _, e⟩ | ⟨hf', _⟩ | ⟨hf', _⟩
  · rcases h with h | h
    · rw [hb] at h; cases h
    · exact absurd hw h
  · exact e
  · rw [hf] at hf'; cases hf'
  · rw [hf] at hf'; cases hf'

/-- A word offered while a command is in progress (R96). -/
theorem State.offer_busy {s : State} {w : Word} {run : State → State} (hf : s.fault = false)
    (hb : s.busy = true) : s.offer w run = s.clearPort.raise .cmdWhileBusy w := by
  simp [State.offer, hf, hb]

/-- `check_append` as the two conditions of R77. -/
theorem checkAppend_eq_none {n : Half} {s : State} :
    checkAppend n s = none ↔
      s.cur.toNat + s.cfg.hdrFmt.frameLen n ≤ Config.stageCap ∧ s.cfg.inRange s.addr (ceil8 n.toNat) = true := by
  unfold checkAppend
  split_ifs with h1 h2
  · simp; omega
  · simp only [Bool.not_eq_true'] at h2
    simp [h2]
  · simp only [Bool.not_eq_true', Bool.not_eq_false] at h2
    simp [h2]
    omega

/-! ## Host memory reads of a command -/

/-- Where the host has not touched memory since acceptance, a read returns what memory holds. -/
theorem State.fetch_quiet {a n : Nat} {s : State} (h : s.displaced = []) :
    s.fetch a n = (s.hmem.readBlock a n, s) := by
  simp [State.fetch, h]

/-- A read changes nothing but the count of free values drawn. -/
theorem State.fetch_state (a n : Nat) (s : State) :
    (s.fetch a n).2 = { s with draws := (s.fetch a n).2.draws } := by
  unfold State.fetch
  split <;> rfl

/-- A read returns as many bytes as asked for. -/
@[simp] theorem State.fetch_length (a n : Nat) (s : State) : (s.fetch a n).1.length = n := by
  unfold State.fetch
  split <;> simp

/-- A chosen value is one of those held. -/
theorem chooseHeld_mem (d i : Nat) (now : Byte) (held : List Byte) : chooseHeld d i now held ∈ now :: held := by
  cases held with
  | nil => simp [chooseHeld]
  | cons b bs =>
    have hlt : Config.raceChoice d i % (bs.length + 2) < (now :: b :: bs).length :=
      Nat.mod_lt _ (by omega)
    rw [chooseHeld, List.getD_eq_getElem?_getD, List.getElem?_eq_getElem hlt]
    exact List.getElem_mem hlt

/-- Each byte a command reads is one of the values that byte may be read as (R43). -/
theorem State.fetch_mem {a n i : Nat} {s : State} (h : i < n) :
    (s.fetch a n).1.getD i 0 ∈ s.sourceValues (a + i) := by
  unfold State.fetch State.sourceValues
  split
  · rename_i hd
    rw [Memory.readBlock_getD _ _ h]
    simp
  · rename_i hd
    rw [hd]
    simp only [List.getD_eq_getElem?_getD, List.getElem?_map, List.getElem?_range h]
    exact chooseHeld_mem _ _ _ _

/-! ## Staging -/

/-- A byte of `STAGE` after the stage write (R78): the frame at the cursor, every other byte as it was. -/
theorem State.stageByte_stageFrame (f : List Byte) (s : State) (i : Nat) :
    (s.stageFrame f).stageByte i
      = if s.cur.toNat ≤ i ∧ i < s.cur.toNat + f.length then f.getD (i - s.cur.toNat) 0 else s.stageByte i := by
  unfold State.stageByte
  rw [State.stageFrame_stage, State.stageFrame_stageEpoch, Memory.cell?_put]
  split_ifs with h
  · rw [List.getD_eq_getElem?_getD, List.getElem?_eq_getElem (by omega)]
    rfl
  · rfl

/-- The cursor after the stage write of a frame that fits (R78, R79). -/
theorem State.stageFrame_cur_toNat {f : List Byte} {s : State} (h : s.frameFits f = true) :
    (s.stageFrame f).cur.toNat = s.cur.toNat + f.length := by
  have : s.cur.toNat + f.length ≤ 4096 := of_decide_eq_true h
  rw [State.stageFrame_cur, BitVec.toNat_ofNat, Nat.mod_eq_of_lt (by omega)]

/-- What reaching the stager does (R78, R80): the frame fits, it is staged, and it is flushed or the command
completes. -/
theorem State.stageAndMaybeFlush_next {op : Byte} {f : List Byte} {s t : State}
    (h : s.stageAndMaybeFlush op f = .next t) :
    s.frameFits f = true ∧
      ((op = opSd ∧ t = (s.stageFrame f).issueOut) ∨ (op ≠ opSd ∧ t = (s.stageFrame f).complete)) := by
  unfold State.stageAndMaybeFlush at h
  split_ifs at h with h1 h2 <;> cases h
  · exact ⟨h1, .inl ⟨h2, rfl⟩⟩
  · exact ⟨h1, .inr ⟨h2, rfl⟩⟩

/-- What the EXEC step of an APPEND does (R78, R80). -/
theorem State.appendExec_next {op : Byte} {n : Half} {s t : State} (h : s.appendExec op n = .next t) :
    s.cfg.inRange s.laddr (ceil8 n.toNat) = true ∧
      (s.fetch s.laddr.toNat (ceil8 n.toNat)).2.stageAndMaybeFlush op
        (s.cfg.encodeFrame op n (s.fetch s.laddr.toNat (ceil8 n.toNat)).1) = .next t := by
  unfold State.appendExec at h
  split_ifs at h with h1
  · exact ⟨h1, h⟩

/-- The length of a frame the FES builds (R56, R74). -/
theorem Params.encodeFrame_length {p : Params} {op : Byte} {n : Half} {payload : List Byte}
    (h : payload.length = ceil8 n.toNat) :
    (p.encodeFrame op n payload).length = p.hdrFmt.frameLen n := by
  cases hf : p.hdrFmt <;>
    simp [Params.encodeFrame, frameBytes, Header.bytes, Params.fillerFor, hf, HdrFmt.frameLen, HdrFmt.hsz, le16, h] <;>
    omega

/-! ## READ.RESP and DECODE -/

/-- What the answer step of a READ.RESP does (R88, R89). -/
theorem State.readRespAnswer_next {k : Nat} {s t : State} (h : s.readRespAnswer k = .next t) :
    s.cfg.inRange s.laddr k = true ∧ t = s.answerIn k := by
  unfold State.readRespAnswer at h
  split_ifs at h with h1
  · exact ⟨h1, next_inj h⟩

/-- What the EXEC step of a DECODE does (R92). -/
theorem State.decodeExec_next {s t : State} (h : s.decodeExec = .next t) :
    s.cfg.inRange s.laddr s.cfg.hdrFmt.hsz = true ∧
      t = ((s.fetch s.laddr.toNat s.cfg.hdrFmt.hsz).2.setDecoded
        (headerOfBytes s.cfg.hdrFmt (s.fetch s.laddr.toNat s.cfg.hdrFmt.hsz).1)).complete := by
  unfold State.decodeExec at h
  split_ifs at h with h1
  · exact ⟨h1, next_inj h⟩

/-- The bytes of an answer are as many as asked for. -/
@[simp] theorem State.answerBytes_length (n : Nat) (s : State) : (s.answerBytes n).length = n := by
  simp [State.answerBytes]

/-- The bytes that land are as many as were answered. -/
@[simp] theorem State.landed_length (a : Nat) (r : List Byte) (s : State) : (s.landed a r).length = r.length := by
  unfold State.landed
  split <;> simp

/-- A byte that lands where the host has not written since acceptance is the answer's. -/
theorem State.landed_untouched {a i : Nat} {r : List Byte} {s : State} (h : i < r.length)
    (hn : heldAt s.displaced (a + i) = []) : (s.landed a r).getD i 0 = r.getD i 0 := by
  unfold State.landed
  split
  · rfl
  · rename_i hd
    rw [hd] at hn
    simp [List.getD_eq_getElem?_getD, h, hn]

/-- A byte that lands is the answer's, or one the byte held since acceptance (R131). -/
theorem State.landed_mem {a i : Nat} {r : List Byte} {s : State} (h : i < r.length) :
    (s.landed a r).getD i 0 ∈ r.getD i 0 :: s.sourceValues (a + i) := by
  by_cases hn : heldAt s.displaced (a + i) = []
  · rw [State.landed_untouched h hn]
    exact List.mem_cons_self
  · unfold State.landed State.sourceValues
    split
    · rename_i hd
      rw [hd] at hn
      exact absurd rfl hn
    · rename_i hd
      rw [hd] at hn ⊢
      simp only [List.getD_eq_getElem?_getD (l := List.map _ _), List.getElem?_map, List.getElem?_range h]
      dsimp only [Option.map_some, Option.getD_some]
      split
      · rename_i he
        exact absurd he hn
      · rename_i b bs he
        rw [he]
        exact chooseHeld_mem _ _ _ _

/-- Where the host has not written since acceptance, the answer's bytes land as they are. -/
theorem State.landed_quiet {a : Nat} {r : List Byte} {s : State} (h : s.displaced = []) : s.landed a r = r := by
  simp [State.landed, h]

/-! ## Frames -/

/-- What the FES does with a frame (R60, R92). -/
theorem State.handleFrame_next {fmt : HdrFmt} {e : Bool} {h : Header} {p : List Byte} {s t : State}
    (ht : s.handleFrame fmt e h p = .next t) :
    t = s ∨ (s.parsing = true ∧ t = (s.setDecoded h).complete) ∨
      (e = true ∧ s.emitting h.opcode h.bitCount = true ∧
        s.stageAndMaybeFlush h.opcode (h.bytes ++ p) = .next t) := by
  unfold State.handleFrame at ht
  split_ifs at ht with h1 h2 h3
  · exact .inr (.inl ⟨h2, next_inj ht⟩)
  · rw [Bool.and_eq_true] at h3
    exact .inr (.inr ⟨h3.1, h3.2, ht⟩)
  · exact .inl (next_inj ht)
  · exact .inl (next_inj ht)

/-! ## The agents -/

/-- What a device step does: nothing, a discarded answer (R123), or the latched command's step (R98, R99). -/
theorem deviceStep_next {s t : State} (h : deviceStep s = .next t) :
    (s.abandoned = [] ∧ s.busy = false ∧ t = s) ∨
      (∃ x rest, s.abandoned = x :: rest ∧ t = State.discardAnswer x { s with abandoned := rest }) ∨
      (∃ i, s.abandoned = [] ∧ s.busy = true ∧ decodeCommand s.lcmd = .ok i ∧ exec i s = .next t) := by
  unfold deviceStep at h
  split at h
  · rename_i x rest hx
    exact .inr (.inl ⟨x, rest, hx, next_inj h⟩)
  · rename_i hx
    split_ifs at h with hb
    · split at h
      · rename_i i hi
        exact .inr (.inr ⟨i, hx, hb, hi, h⟩)
      · cases h
    · exact .inl ⟨hx, by simpa using hb, next_inj h⟩

/-- What an offered word does: its instruction's own step, or its fault (R96). -/
theorem offerWord_next {w : Word} {s t : State} (h : offerWord w s = .next t) :
    (∃ i, decodeCommand w = .ok i ∧ exec i { s with cmdPort := some w } = .next t) ∨
      (∃ e, decodeCommand w = .error e ∧ t = s.offer w (State.raise (Cause.ofDecode e) w)) := by
  unfold offerWord at h
  split at h
  · rename_i i hi
    exact .inl ⟨i, hi, h⟩
  · rename_i e he
    exact .inr ⟨e, he, next_inj h⟩

/-- What a host access does. -/
theorem State.hostOp_next {op : HostOp} {s t : State} (h : s.hostOp op = .next t) :
    (∃ o, op = .csrRead .w32 o ∧ o.toNat % 4 = 0 ∧ t = s.csrRead o) ∨
      (∃ v, op = .csrWrite .w32 0x00 v ∧ offerWord v s = .next t) ∨
      (∃ v, op = .csrWrite .w32 0x04 v ∧ t = { s with addr := v }) ∨
      (∃ o v, op = .csrWrite .w32 o v ∧ o ≠ 0x00 ∧ o ≠ 0x04 ∧ t = s) ∨
      (∃ a n, op = .memRead a n ∧ s.cfg.inRange a n = true ∧ t = s.hostMemRead a n) ∨
      (∃ a bs, op = .memWrite a bs ∧ s.cfg.inRange a bs.length = true ∧ t = s.hostMemWrite a bs) ∨
      (op = .reset ∧ t = s.hardReset) ∨ ∃ b, op = .session b ∧ t = { s with linkOpen := b } := by
  have ok : ∀ {wd : AccessWidth} {o : Byte}, csrAccessOk wd o = true → wd = .w32 ∧ o.toNat % 4 = 0 := fun h => by
    simpa [csrAccessOk] using h
  cases op with
  | csrRead wd o =>
    rw [State.hostOp] at h
    split_ifs at h with h1
    obtain ⟨rfl, ho⟩ := ok h1
    exact .inl ⟨o, rfl, ho, next_inj h⟩
  | csrWrite wd o v =>
    rw [State.hostOp] at h
    split_ifs at h with h1
    obtain ⟨rfl, -⟩ := ok h1
    rw [State.csrWrite] at h
    split_ifs at h with h2 h3
    · exact .inr (.inl ⟨v, by rw [h2], h⟩)
    · exact .inr (.inr (.inl ⟨v, by rw [h3], next_inj h⟩))
    · exact .inr (.inr (.inr (.inl ⟨o, v, rfl, h2, h3, next_inj h⟩)))
  | memRead a n =>
    rw [State.hostOp] at h
    split_ifs at h with h1
    exact .inr (.inr (.inr (.inr (.inl ⟨a, n, rfl, h1, next_inj h⟩))))
  | memWrite a bs =>
    rw [State.hostOp] at h
    split_ifs at h with h1
    exact .inr (.inr (.inr (.inr (.inr (.inl ⟨a, bs, rfl, h1, next_inj h⟩)))))
  | reset => exact .inr (.inr (.inr (.inr (.inr (.inr (.inl ⟨rfl, next_inj h⟩))))))
  | session b => exact .inr (.inr (.inr (.inr (.inr (.inr (.inr ⟨b, rfl, next_inj h⟩))))))

/-- Whose step it is: the word on the port, the host's access that is due, or the device. -/
theorem step_cases {s t : State} (h : step s = .next t) :
    (∃ w, s.cmdPort = some w ∧ offerWord w s = .next t) ∨
      (∃ a rest, s.cmdPort = none ∧ s.host = a :: rest ∧ (a.after = 0 ∨ s.deviceReady = false) ∧
        { s with host := rest }.hostOp a.op = .next t) ∨
      (∃ rest, s.cmdPort = none ∧ deviceStep { s with host := rest } = .next t) := by
  unfold step nextStep at h
  split at h
  · rename_i w hw
    exact .inl ⟨w, hw, h⟩
  · rename_i hp
    split at h
    · rename_i hh
      exact .inr (.inr ⟨[], hp, by rw [← hh]; exact h⟩)
    · rename_i a rest hh
      split_ifs at h with hd
      · exact .inr (.inl ⟨a, rest, hp, hh, hd, h⟩)
      · exact .inr (.inr ⟨_, hp, h⟩)

/-- A host memory write that meets no flush in progress leaves the FES alone. -/
theorem State.raceFlush_quiet {a : Nat} {bs kept : List Byte} {s : State}
    (h : ∀ out, s.phase = .waitOut out → s.hitsPayload a bs.length = false) : s.raceFlush a bs kept = s := by
  unfold State.raceFlush
  split
  · rename_i out hp
    rw [h out hp]
    simp
  all_goals rfl

/-- What a host memory write makes of a flush in progress whose payload it lands on: the outstanding bytes, their copy
in `STAGE` and the count of free values drawn change. -/
theorem State.raceFlush_state (a : Nat) (bs kept : List Byte) (s : State) :
    s.raceFlush a bs kept =
      { s with
        phase := (s.raceFlush a bs kept).phase, stage := (s.raceFlush a bs kept).stage
        draws := (s.raceFlush a bs kept).draws } := by
  unfold State.raceFlush
  split
  · split <;> rfl
  all_goals rfl

/-- As many payload bytes as before. -/
@[simp] theorem State.lateBytes_length (a : Nat) (bs kept payload : List Byte) (s : State) :
    (s.lateBytes a bs kept payload).length = payload.length := by
  simp [State.lateBytes]

/-- A payload byte after such a write: as it was, or, where the write lands on its source, a byte the write brings. -/
theorem State.lateBytes_cases {a i : Nat} {bs kept payload : List Byte} {s : State} (h : i < payload.length) :
    (s.lateBytes a bs kept payload).getD i 0 = payload.getD i 0 ∨
      (a ≤ s.laddr.toNat + i ∧ s.laddr.toNat + i < a + bs.length ∧
        ((s.lateBytes a bs kept payload).getD i 0 = bs.getD (s.laddr.toNat + i - a) 0 ∨
          (s.lateBytes a bs kept payload).getD i 0 = kept.getD (s.laddr.toNat + i - a) 0)) := by
  have e : (s.lateBytes a bs kept payload).getD i 0
      = if a ≤ s.laddr.toNat + i ∧ s.laddr.toNat + i < a + bs.length then
          chooseHeld s.draws i (payload.getD i 0)
            [kept.getD (s.laddr.toNat + i - a) 0, bs.getD (s.laddr.toNat + i - a) 0]
        else payload.getD i 0 := by
    unfold State.lateBytes
    rw [List.getD_eq_getElem?_getD, List.getElem?_map, List.getElem?_range h]
    rfl
  rw [e]
  split_ifs with hc
  · have := chooseHeld_mem s.draws i (payload.getD i 0)
      [kept.getD (s.laddr.toNat + i - a) 0, bs.getD (s.laddr.toNat + i - a) 0]
    simp only [List.mem_cons, List.not_mem_nil, or_false] at this
    rcases this with h1 | h1 | h1
    · exact .inl h1
    · exact .inr ⟨hc.1, hc.2, .inr h1⟩
    · exact .inr ⟨hc.1, hc.2, .inl h1⟩
  · exact .inl rfl

/-- What a host memory write makes of the bytes of a flush in progress (R43). -/
theorem State.raceFlush_out {a : Nat} {bs kept out : List Byte} {s : State} (h : s.phase = .waitOut out) :
    ∃ out' : List Byte, (s.raceFlush a bs kept).phase = .waitOut out' ∧ out'.length = out.length ∧
      ∀ i < out.length, out'.getD i 0 = out.getD i 0 ∨
        (out.length - s.latchedLen ≤ i ∧
          ∃ x, x = s.laddr.toNat + (i - (out.length - s.latchedLen)) ∧ a ≤ x ∧ x < a + bs.length ∧
            (out'.getD i 0 = bs.getD (x - a) 0 ∨ out'.getD i 0 = kept.getD (x - a) 0)) := by
  unfold State.raceFlush
  rw [h]
  dsimp only
  split_ifs
  · refine ⟨_, rfl, by simp, fun i hi => ?_⟩
    by_cases hlt : i < out.length - s.latchedLen
    · left
      simp only [List.getD_eq_getElem?_getD]
      rw [List.getElem?_append_left (by simp; omega), List.getElem?_take_of_lt hlt]
    · have hl : (out.take (out.length - s.latchedLen)).length = out.length - s.latchedLen := by simp
      have hd : (out.drop (out.length - s.latchedLen)).getD (i - (out.length - s.latchedLen)) 0
          = out.getD i 0 := by
        simp only [List.getD_eq_getElem?_getD, List.getElem?_drop]
        congr 2
        omega
      have := s.lateBytes_cases (a := a) (bs := bs) (kept := kept) (payload := out.drop (out.length - s.latchedLen))
        (i := i - (out.length - s.latchedLen)) (by simp; omega)
      rw [hd] at this
      rw [show ∀ p : List Byte, (out.take (out.length - s.latchedLen) ++ p).getD i 0
          = p.getD (i - (out.length - s.latchedLen)) 0 from fun p => by
        simp only [List.getD_eq_getElem?_getD]
        rw [List.getElem?_append_right (by rw [hl]; omega), hl]]
      exact this.imp_right fun ⟨h1, h2, h3⟩ => ⟨by omega, _, rfl, h1, h2, h3⟩
  · exact ⟨out, h, rfl, fun i _ => .inl rfl⟩

/-! ## Host accesses to memory -/

/-- The note of a write changes the intervals and the count of free values drawn. -/
theorem State.noteWritten_state (a : Nat) (bs : List Byte) (s : State) :
    s.noteWritten a bs =
      { s with windows := (s.noteWritten a bs).windows, draws := (s.noteWritten a bs).draws } := by
  unfold State.noteWritten
  split <;> rfl

@[simp] theorem State.noteWritten_phase (a : Nat) (bs : List Byte) (s : State) :
    (s.noteWritten a bs).phase = s.phase := by
  rw [State.noteWritten_state]

/-- A write leaves as many bytes as it writes. -/
@[simp] theorem State.keptBytes_length (a : Nat) (bs : List Byte) (s : State) :
    (s.keptBytes a bs).length = bs.length := by
  simp [State.keptBytes]

/-- A byte a write leaves: the one written, or one the byte was given in the interval (R131). -/
theorem State.keptBytes_mem {a i : Nat} {bs : List Byte} {s : State} (h : i < bs.length) :
    (s.keptBytes a bs).getD i 0 ∈ bs.getD i 0 :: s.hmem.read (a + i) :: coveredHeld (a + i) s.doneWindows := by
  simp only [State.keptBytes, List.getD_eq_getElem?_getD, List.getElem?_map, List.getElem?_range h]
  dsimp only [Option.map_some, Option.getD_some]
  split_ifs
  · exact chooseHeld_mem _ _ _ _
  · exact List.mem_cons_self

/-- Outside the destinations whose end the host has not seen, a write leaves the bytes it writes (R44). -/
theorem State.keptBytes_seen {a i : Nat} {bs : List Byte} {s : State} (h : i < bs.length) (hu : ¬ s.Unseen (a + i)) :
    (s.keptBytes a bs).getD i 0 = bs.getD i 0 := by
  have hu' : ¬ s.doneWindows.any (Window.covers (a + i)) = true := by
    simpa using hu
  simp only [State.keptBytes, List.getD_eq_getElem?_getD, List.getElem?_map, List.getElem?_range h]
  dsimp only [Option.map_some, Option.getD_some]
  rw [if_neg hu']

/-- What a host memory write changes. -/
theorem State.hostMemWrite_state (a : Word) (bs : List Byte) (s : State) :
    s.hostMemWrite a bs =
      { s with
        phase := ((s.noteWritten a.toNat bs).raceFlush a.toNat bs (s.keptBytes a.toNat bs)).phase
        stage := ((s.noteWritten a.toNat bs).raceFlush a.toNat bs (s.keptBytes a.toNat bs)).stage
        hmem := s.hmem.write a.toNat (s.keptBytes a.toNat bs)
        windows := (s.hostMemWrite a bs).windows, draws := (s.hostMemWrite a bs).draws } := by
  unfold State.hostMemWrite
  dsimp only
  generalize s.keptBytes a.toNat bs = kept
  rw [State.raceFlush_state, State.noteWritten_state]
  rfl

/-- A byte laid out is held at its address. -/
theorem heldAt_blockCells {a i : Nat} {bs : List Byte} (h : i < bs.length) :
    bs.getD i 0 ∈ heldAt (blockCells a bs) (a + i) := by
  induction bs generalizing a i with
  | nil => simp at h
  | cons b bs ih =>
    cases i with
    | zero => simp [heldAt, blockCells]
    | succ i =>
      have := ih (a := a + 1) (i := i) (by simpa using h)
      rw [show a + 1 + i = a + (i + 1) by omega] at this
      simpa [heldAt, blockCells] using this

/-- A byte noted in an open interval is one of those that its destination held (R44). -/
theorem coveredHeld_noteHeld {a i : Nat} {bs : List Byte} {ws : List Window} (h : i < bs.length)
    (hw : ∃ w ∈ ws, w.covers (a + i) = true) : bs.getD i 0 ∈ coveredHeld (a + i) (noteHeld a bs ws) := by
  obtain ⟨w, hm, hc⟩ := hw
  refine List.mem_flatMap.2 ⟨{ w with held := blockCells a bs ++ w.held },
    List.mem_filter.2 ⟨List.mem_map.2 ⟨w, hm, rfl⟩, hc⟩, ?_⟩
  rw [heldAt, List.filter_append, List.map_append, List.mem_append]
  exact .inl (heldAt_blockCells h)

/-- A note covers what the interval covered. -/
theorem exists_covers_noteHeld {a x : Nat} {bs : List Byte} {ws : List Window}
    (hw : ∃ w ∈ ws, w.covers x = true) : ∃ w ∈ noteHeld a bs ws, w.covers x = true := by
  obtain ⟨w, hm, hc⟩ := hw
  exact ⟨_, List.mem_map.2 ⟨w, hm, rfl⟩, hc⟩

/-- A byte received stays visible in its destination until the host has seen `BUSY = 0` (R44). -/
theorem State.answerIn_visible {k i : Nat} {s : State} (h : i < k)
    (hw : ∃ w ∈ s.windows, w.covers (s.laddr.toNat + i) = true) :
    (s.answerBytes k).getD i 0 ∈ (s.answerIn k).visibleValues (s.laddr.toNat + i) := by
  refine List.mem_cons_of_mem _ (List.mem_append_right _ ?_)
  rw [State.answerIn_windows]
  exact coveredHeld_noteHeld (by simpa using h) (exists_covers_noteHeld hw)

/-- What the host sees of a byte is a value R44 lets it see. -/
theorem State.hostByte_mem (i a : Nat) (s : State) : s.hostByte i a ∈ s.visibleValues a := chooseHeld_mem _ _ _ _

/-- Where no open interval covers an address, the host sees what memory holds. -/
theorem State.hostByte_seen {i a : Nat} {s : State} (h : ∀ w ∈ s.windows, w.covers a = false) :
    s.hostByte i a = s.hmem.read a := by
  have h1 : coveredHeld a s.windows = [] := by
    rw [coveredHeld, List.filter_eq_nil_iff.2 fun w hw => by simp [h w hw]]
    rfl
  have h2 : s.arriving a = [] := by
    unfold State.arriving
    split
    · rfl
    · rename_i w ws hw
      rw [h w (by rw [hw]; exact List.mem_cons_self)]
      simp
  rw [State.hostByte, h1, h2]
  rfl

/-! ## Runs -/

@[simp] theorem State.runsBatch_nil {s t : State} : s.RunsBatch [] t ↔ t = s := Iff.rfl

@[simp] theorem State.runsBatch_cons {s t : State} {c : Instr × Word} {cs : List (Instr × Word)} :
    s.RunsBatch (c :: cs) t ↔ ∃ u, s.RunsCommand c.1 c.2 u ∧ u.RunsBatch cs t := Iff.rfl

@[simp] theorem State.runsTo_zero {s t : State} : s.RunsTo 0 t ↔ t = s := Iff.rfl

@[simp] theorem State.runsTo_succ {n : Nat} {s t : State} :
    s.RunsTo (n + 1) t ↔ ∃ u, step s = .next u ∧ u.RunsTo n t := Iff.rfl

/-- What every step keeps holds at the end of a run. -/
theorem State.RunsTo.keeps {P : State → Prop} (hP : ∀ s t, P s → step s = .next t → P t) {n : Nat} {s t : State}
    (hs : P s) (h : s.RunsTo n t) : P t := by
  induction n generalizing s with
  | zero => exact h ▸ hs
  | succ n ih =>
    obtain ⟨u, hu, h⟩ := h
    exact ih (hP s u hs hu) h

/-- When a run of one step is a fault outcome (R121). -/
theorem State.faultOutcome_one {s t : State} (h : step s = .next t) : s.FaultOutcome 1 ↔ s.Halted ∨ t.Halted := by
  constructor
  · rintro ⟨m, u, hm, hr, hu⟩
    obtain rfl | rfl : m = 0 ∨ m = 1 := by omega
    · obtain rfl : u = s := hr
      exact .inl hu
    · obtain ⟨v, hv, rfl⟩ := hr
      rw [h] at hv
      cases hv
      exact .inr hu
  · rintro (hs | ht)
    · exact ⟨0, s, by omega, rfl, hs⟩
    · exact ⟨1, t, le_refl 1, ⟨t, h, rfl⟩, ht⟩

end Sys2Proof.Machine
end

