-- ==== Sys2Proof/Laws/PerInstr.lean ====
section
/-! SUPPORT. The family CodeShape: what the code of each instruction is. A command's code is one word with `RSV = 0`
and its `CMDOP` (30_encoding.md R63, R64); a well-formed frame's code is bytes of its format, as many as its bit
count says (R56). -/

namespace Sys2Proof.Laws.CodeShape

/-- The command selector of a command (R64). -/
def cmdop : Instr → BitVec 4
  | .appendSd _ | .appendTms _ | .appendHello => 0x1
  | .readResp _ => 0x2
  | .decode => 0x3
  | .sreset => 0xF
  | _ => 0x0

/-- The bit count a frame carries (R56). -/
def bitCount : Instr → Half
  | .frameSdH4 _ n _ | .frameTmsH4 _ n _ | .frameHelloH4 _ n _ | .frameReservedH4 _ _ n _ => n
  | .frameSdH8 _ _ n _ | .frameTmsH8 _ _ n _ | .frameHelloH8 _ _ n _ | .frameReservedH8 _ _ _ n _ => n
  | _ => 0

def Statement (i : Instr) : Prop :=
  match i.format with
  | none => ∃ w, encode i = .word w ∧ rsvOf w = 0 ∧ cmdopOf w = cmdop i
  | some fmt => i.wellFormed = true → ∃ bs, encode i = .wire bs ∧ bs.length = fmt.frameLen (bitCount i)

/-- The length of a frame with the payload its bit count asks for. -/
theorem frameBytes_length {hl op : Byte} {x : Option Filler} {n : Half} {p : List Byte}
    (h : payloadFits n p = true) :
    (frameBytes hl op x n p).length = (Header.format ⟨hl, op, x, n⟩).frameLen n := by
  have : p.length = ceil8 n.toNat := by simpa [payloadFits] using h
  cases x <;> simp [frameBytes, Header.bytes_length, HdrFmt.frameLen, this]

theorem appendSd (n : Half) : Statement (.appendSd n) :=
  ⟨_, rfl, rsvOf_packCommand _ _ _, cmdopOf_packCommand _ _ _⟩
theorem appendTms (n : Half) : Statement (.appendTms n) :=
  ⟨_, rfl, rsvOf_packCommand _ _ _, cmdopOf_packCommand _ _ _⟩
theorem appendHello : Statement .appendHello :=
  ⟨_, rfl, rsvOf_packCommand _ _ _, cmdopOf_packCommand _ _ _⟩
theorem readResp (k : Half) : Statement (.readResp k) :=
  ⟨_, rfl, rsvOf_packCommand _ _ _, cmdopOf_packCommand _ _ _⟩
theorem decode : Statement .decode :=
  ⟨_, rfl, rsvOf_packCommand _ _ _, cmdopOf_packCommand _ _ _⟩
theorem sreset : Statement .sreset :=
  ⟨_, rfl, rsvOf_packCommand _ _ _, cmdopOf_packCommand _ _ _⟩

theorem frameSdH4 (hl : Byte) (n : Half) (p : List Byte) : Statement (.frameSdH4 hl n p) :=
  fun h => ⟨_, rfl, frameBytes_length h⟩
theorem frameTmsH4 (hl : Byte) (n : Half) (p : List Byte) : Statement (.frameTmsH4 hl n p) :=
  fun h => ⟨_, rfl, frameBytes_length h⟩
theorem frameHelloH4 (hl : Byte) (n : Half) (p : List Byte) : Statement (.frameHelloH4 hl n p) :=
  fun h => ⟨_, rfl, frameBytes_length h⟩
theorem frameReservedH4 (hl op : Byte) (n : Half) (p : List Byte) : Statement (.frameReservedH4 hl op n p) :=
  fun h => ⟨_, rfl, frameBytes_length (by simpa using And.right ((Bool.and_eq_true _ _).mp h))⟩
theorem frameSdH8 (hl : Byte) (x : Filler) (n : Half) (p : List Byte) : Statement (.frameSdH8 hl x n p) :=
  fun h => ⟨_, rfl, frameBytes_length h⟩
theorem frameTmsH8 (hl : Byte) (x : Filler) (n : Half) (p : List Byte) : Statement (.frameTmsH8 hl x n p) :=
  fun h => ⟨_, rfl, frameBytes_length h⟩
theorem frameHelloH8 (hl : Byte) (x : Filler) (n : Half) (p : List Byte) : Statement (.frameHelloH8 hl x n p) :=
  fun h => ⟨_, rfl, frameBytes_length h⟩
theorem frameReservedH8 (hl op : Byte) (x : Filler) (n : Half) (p : List Byte) :
    Statement (.frameReservedH8 hl op x n p) :=
  fun h => ⟨_, rfl, frameBytes_length (by simpa using And.right ((Bool.and_eq_true _ _).mp h))⟩

end Sys2Proof.Laws.CodeShape
end

