-- ==== Sys2Proof/Laws/Step.lean ====
section
/-! SUPPORT. What an instruction can do in a step, said once: as a word that is offered, and as the command that is
latched; and what an offered word and a whole step can do. -/

namespace Sys2Proof.Machine

/-- `check_append` raises a cause when it refuses. -/
theorem checkAppend_ne_none {n : Half} {s : State} {c : Cause} (h : checkAppend n s = some c) : c ≠ .none := by
  unfold checkAppend at h
  split_ifs at h <;> cases h <;> simp

/-- The cause of an illegal word is a cause (R67). -/
theorem Cause.ofDecode_ne_none (e : DecodeError) : Cause.ofDecode e ≠ .none := by
  cases e <;> simp [Cause.ofDecode]

/-- An accepted command that fits meets what holds of the command in progress. -/
theorem State.latchOk_accept {w : Word} {i : Instr} (hd : decodeCommand w = .ok i) {s : State}
    (h : (s.accept w).LatchFits i) : (s.accept w).LatchOk :=
  ⟨i, hd, h⟩

/-- A command that is offered (R96): SRESET runs in the acceptance step; every other command has a check, which
refuses with a cause or establishes what the command needs. -/
theorem exec_offered {w : Word} {i : Instr} {s : State} (hd : decodeCommand w = .ok i)
    (hp : s.cmdPort = some w) :
    (i = .sreset ∧ exec i s = .next (s.offer w State.softReset)) ∨
      ∃ check, exec i s = .next (s.offerChecked w check) ∧
        (∀ u, check u = none → (u.accept w).LatchOk) ∧ ∀ u c, check u = some c → c ≠ .none := by
  rcases decodeCommand_cases hd with ⟨rfl, -⟩ | ⟨rfl, -⟩ | ⟨rfl, -⟩ | ⟨rfl, -⟩ | ⟨rfl, -⟩ | ⟨rfl, -⟩
  · exact .inr ⟨checkAppend _, by simp only [exec, execAppendSd, hp],
      fun u h => State.latchOk_accept hd (checkAppend_eq_none (s := u) |>.1 h), fun _ _ => checkAppend_ne_none⟩
  · exact .inr ⟨checkAppend _, by simp only [exec, execAppendTms, hp],
      fun u h => State.latchOk_accept hd (checkAppend_eq_none (s := u) |>.1 h), fun _ _ => checkAppend_ne_none⟩
  · refine .inr ⟨checkAppend 0, by simp only [exec, execAppendHello, hp],
      fun u h => State.latchOk_accept hd ?_, fun _ _ => checkAppend_ne_none⟩
    exact (checkAppend_eq_none.1 h).1
  · refine .inr ⟨checkReadResp (countOf w), by simp only [exec, execReadResp, hp],
      fun u h => State.latchOk_accept hd ?_, fun u c h => ?_⟩
    · unfold checkReadResp at h
      split_ifs at h with hr
      exact hr
    · unfold checkReadResp at h
      split_ifs at h
      cases h
      simp
  · refine .inr ⟨checkDecode, by simp only [exec, execDecode, hp],
      fun u h => State.latchOk_accept hd ?_, fun u c h => ?_⟩
    · unfold checkDecode at h
      split_ifs at h with hr
      exact hr
    · unfold checkDecode at h
      split_ifs at h
      cases h
      simp
  · exact .inl ⟨rfl, by simp only [exec, execSreset, hp]⟩

/-- An offered word resets the FES, is ignored, raises a fault, or is accepted (R96, R97). -/
theorem offerWord_cases {w : Word} {s t : State} (h : offerWord w s = .next t) :
    (t = s.clearPort.softReset ∧ s.busy = false ∧ w = sresetWord) ∨
      (t = s.clearPort ∧ s.fault = true ∧ (s.busy = true ∨ w ≠ sresetWord)) ∨
      (∃ c, c ≠ .none ∧ s.fault = false ∧ t = s.clearPort.raise c w) ∨
      (s.fault = false ∧ s.busy = false ∧ t = s.clearPort.accept w ∧ t.LatchOk) := by
  rcases offerWord_next h with ⟨i, hi, he⟩ | ⟨e, hi, rfl⟩
  · rcases exec_offered (s := { s with cmdPort := some w }) hi rfl with
      ⟨rfl, h2⟩ | ⟨check, h2, h3, h4⟩
    · have hw : w = sresetWord := by
        rcases decodeCommand_cases hi with ⟨x, -⟩ | ⟨x, -⟩ | ⟨x, -⟩ | ⟨x, -⟩ | ⟨x, -⟩ | ⟨-, x⟩
        all_goals first | exact x | cases x
      rw [he] at h2
      obtain rfl := next_inj h2.symm
      rcases State.offer_cases w State.softReset { s with cmdPort := some w } with k | k | k | k
      · exact .inl ⟨k.2.2.2, k.2.1, hw⟩
      · exact .inr (.inl ⟨k.2.2, k.1, k.2.1⟩)
      · exact .inr (.inr (.inl ⟨_, by simp, k.1, k.2.2⟩))
      · exact .inl ⟨k.2.2, k.2.1, hw⟩
    · rw [he] at h2
      obtain rfl := next_inj h2.symm
      rcases State.offerChecked_cases w check { s with cmdPort := some w } with
        k | k | k | ⟨c, hf, hb, hc, k⟩ | ⟨hf, hb, hc, k⟩
      · exact .inl ⟨k.2.2.2, k.2.1, k.2.2.1⟩
      · exact .inr (.inl ⟨k.2.2, k.1, k.2.1⟩)
      · exact .inr (.inr (.inl ⟨_, by simp, k.1, k.2.2⟩))
      · exact .inr (.inr (.inl ⟨c, h4 _ _ hc, hf, k⟩))
      · exact .inr (.inr (.inr ⟨hf, hb, k, by rw [k]; exact h3 _ hc⟩))
  · rcases State.offer_cases w (State.raise (Cause.ofDecode e) w) s with k | k | k | k
    · exact .inl ⟨k.2.2.2, k.2.1, k.2.2.1⟩
    · exact .inr (.inl ⟨k.2.2, k.1, k.2.1⟩)
    · exact .inr (.inr (.inl ⟨_, by simp, k.1, k.2.2⟩))
    · exact .inr (.inr (.inl ⟨_, Cause.ofDecode_ne_none e, k.1, k.2.2⟩))

/-- The step of the latched command (R98, R99): nothing, an EXEC step, or the link's answer. -/
theorem exec_latched {i : Instr} {s t : State} (hd : decodeCommand s.lcmd = .ok i) (hp : s.cmdPort = none)
    (h : exec i s = .next t) :
    t = s ∨ (∃ n, i = .appendSd n ∧ s.phase = .exec ∧ s.appendExec opSd n = .next t) ∨
      (∃ n b, i = .appendSd n ∧ s.phase = .waitOut b ∧ t = s.answerOut b) ∨
      (∃ n, i = .appendTms n ∧ s.phase = .exec ∧ s.appendExec opTms n = .next t) ∨
      (i = .appendHello ∧ s.phase = .exec ∧ s.appendExec opHello 0 = .next t) ∨
      (∃ k, i = .readResp k ∧ s.phase = .exec ∧ t = s.readRespExec k) ∨
      (∃ k m, i = .readResp k ∧ s.phase = .waitIn m ∧ s.readRespAnswer m = .next t) ∨
      (i = .decode ∧ s.phase = .exec ∧ s.decodeExec = .next t) := by
  rcases decodeCommand_cases hd with ⟨rfl, -⟩ | ⟨rfl, -⟩ | ⟨rfl, -⟩ | ⟨rfl, -⟩ | ⟨rfl, -⟩ | ⟨rfl, -⟩
  · simp only [exec, execAppendSd, hp] at h
    split at h
    · exact .inr (.inl ⟨_, rfl, ‹_›, h⟩)
    · exact .inr (.inr (.inl ⟨_, _, rfl, ‹_›, next_inj h⟩))
    · exact .inl (next_inj h)
    · exact .inl (next_inj h)
  · simp only [exec, execAppendTms, hp] at h
    split at h
    · exact .inr (.inr (.inr (.inl ⟨_, rfl, ‹_›, h⟩)))
    all_goals exact .inl (next_inj h)
  · simp only [exec, execAppendHello, hp] at h
    split at h
    · exact .inr (.inr (.inr (.inr (.inl ⟨rfl, ‹_›, h⟩))))
    all_goals exact .inl (next_inj h)
  · simp only [exec, execReadResp, hp] at h
    split at h
    · exact .inr (.inr (.inr (.inr (.inr (.inl ⟨_, rfl, ‹_›, next_inj h⟩)))))
    · exact .inr (.inr (.inr (.inr (.inr (.inr (.inl ⟨_, _, rfl, ‹_›, h⟩))))))
    all_goals exact .inl (next_inj h)
  · simp only [exec, execDecode, hp] at h
    split at h
    · exact .inr (.inr (.inr (.inr (.inr (.inr (.inr ⟨rfl, ‹_›, h⟩))))))
    all_goals exact .inl (next_inj h)
  · simp only [exec, execSreset, hp] at h
    exact .inl (next_inj h)

/-! ## What a step can change -/

/-- What a device step keeps, and how it changes what it may change (R80, R81, R82, R98, R99, R109, R123). -/
structure DeviceEffect (s t : State) : Prop where
  fault : t.fault = s.fault
  cause : t.cause = s.cause
  faultCmd : t.faultCmd = s.faultCmd
  faultAddr : t.faultAddr = s.faultAddr
  lcmd : t.lcmd = s.lcmd
  laddr : t.laddr = s.laddr
  seenIdle : t.seenIdle = s.seenIdle
  issued : t.Waiting → t.issuedOpen = if s.Waiting then s.issuedOpen else s.linkOpen
  cur : t.cur = s.cur ∨ (t.cur = 0 ∧ t.phase = .idle ∧ ∃ b, s.phase = .waitOut b) ∨
    (s.phase = .exec ∧ ∃ n : Half,
      (decodeCommand s.lcmd = .ok (.appendSd n) ∨ decodeCommand s.lcmd = .ok (.appendTms n) ∨
        (decodeCommand s.lcmd = .ok .appendHello ∧ n = 0)) ∧
      t.cur.toNat = s.cur.toNat + s.cfg.hdrFmt.frameLen n)
  flush : ∀ bytes, t.phase = .waitOut bytes → (∀ b, s.phase ≠ .waitOut b) →
    s.phase = .exec ∧ (∃ n, decodeCommand s.lcmd = .ok (.appendSd n)) ∧ bytes = t.stageBytes t.cur.toNat
  outStream : t.outStream = s.outStream ∨
    ∃ r : OutRecord, t.outStream = s.outStream ++ [r] ∧ r.delivered ≤ r.bytes.length ∧
      ((s.phase = .waitOut r.bytes ∧ r.discarded = false) ∨
        (r.discarded = true ∧ ∃ o rest, s.abandoned = .out r.bytes o :: rest))

/-- No more bytes are delivered than were sent (R50). -/
theorem deliveredOf_le (a : LinkAnswer) (bytes : List Byte) : deliveredOf a bytes ≤ bytes.length := by
  unfold deliveredOf
  split_ifs <;> omega

/-- The EXEC step of an APPEND, as a device step. -/
theorem State.appendExec_effect {op : Byte} {n : Half} {s t : State} (hph : s.phase = .exec)
    (hsd : op = opSd → decodeCommand s.lcmd = .ok (.appendSd n))
    (hd : decodeCommand s.lcmd = .ok (.appendSd n) ∨ decodeCommand s.lcmd = .ok (.appendTms n) ∨
      (decodeCommand s.lcmd = .ok .appendHello ∧ n = 0))
    (h : s.appendExec op n = .next t) : DeviceEffect s t := by
  obtain ⟨-, h⟩ := State.appendExec_next h
  have hs := s.fetch_state s.laddr.toNat (ceil8 n.toNat)
  have hlen := s.fetch_length s.laddr.toNat (ceil8 n.toNat)
  generalize s.fetch s.laddr.toNat (ceil8 n.toNat) = r at *
  obtain ⟨hfit, h⟩ := State.stageAndMaybeFlush_next h
  have hc := State.stageFrame_cur_toNat hfit
  rw [show r.2.cur = s.cur by rw [hs], Params.encodeFrame_length hlen] at hc
  rcases h with ⟨ho, rfl⟩ | ⟨ho, rfl⟩
  · exact ⟨by rw [hs]; rfl, by rw [hs]; rfl, by rw [hs]; rfl, by rw [hs]; rfl, by rw [hs]; rfl, by rw [hs]; rfl,
      by rw [hs]; rfl, fun _ => by rw [if_neg fun h => h.2 hph, hs]; rfl,
      .inr (.inr ⟨hph, n, hd, hc⟩), fun b hb _ => ⟨hph, ⟨n, hsd ho⟩, (by cases hb; rfl)⟩, .inl (by rw [hs]; rfl)⟩
  · exact ⟨by rw [hs]; rfl, by rw [hs]; rfl, by rw [hs]; rfl, by rw [hs]; rfl, by rw [hs]; rfl, by rw [hs]; rfl,
      by rw [hs]; rfl, fun h => absurd rfl h.1, .inr (.inr ⟨hph, n, hd, hc⟩), fun b hb _ => (by cases hb), .inl (by rw [hs]; rfl)⟩

/-- A device step that writes none of these and issues nothing: nothing outstanding after it, or as before it. -/
theorem DeviceEffect.quiet {s t : State} (h : t.fault = s.fault ∧ t.cause = s.cause ∧ t.faultCmd = s.faultCmd ∧
    t.faultAddr = s.faultAddr ∧ t.lcmd = s.lcmd ∧ t.laddr = s.laddr ∧ t.seenIdle = s.seenIdle)
    (hp : t.phase = .idle ∨ (t.phase = s.phase ∧ t.issuedOpen = s.issuedOpen))
    (hc : t.cur = s.cur ∨ (t.cur = 0 ∧ t.phase = .idle ∧ ∃ b, s.phase = .waitOut b))
    (ho : t.outStream = s.outStream ∨
      ∃ r : OutRecord, t.outStream = s.outStream ++ [r] ∧ r.delivered ≤ r.bytes.length ∧
        ((s.phase = .waitOut r.bytes ∧ r.discarded = false) ∨
          (r.discarded = true ∧ ∃ o rest, s.abandoned = .out r.bytes o :: rest))) : DeviceEffect s t := by
  obtain ⟨h1, h2, h3, h4, h5, h6, h7⟩ := h
  refine ⟨h1, h2, h3, h4, h5, h6, h7, fun hw => ?_, hc.imp_right .inl, fun b hb hn => ?_, ho⟩
  · rcases hp with hp | ⟨hp, hi⟩
    · exact absurd hp hw.1
    · rw [hi, if_pos (show s.Waiting from ⟨fun h => hw.1 (hp.trans h), fun h => hw.2 (hp.trans h)⟩)]
  · rcases hp with hp | ⟨hp, -⟩
    · rw [hp] at hb; cases hb
    · exact absurd (hp.symm.trans hb) (hn b)

/-- What every device step does. -/
theorem deviceStep_effect {s t : State} (hp : s.cmdPort = none) (h : deviceStep s = .next t) :
    DeviceEffect s t := by
  have same : ∀ u : State, u.fault = u.fault ∧ u.cause = u.cause ∧ u.faultCmd = u.faultCmd ∧
      u.faultAddr = u.faultAddr ∧ u.lcmd = u.lcmd ∧ u.laddr = u.laddr ∧ u.seenIdle = u.seenIdle := fun _ =>
    ⟨rfl, rfl, rfl, rfl, rfl, rfl, rfl⟩
  rcases deviceStep_next h with ⟨-, -, rfl⟩ | ⟨x, r, ha, rfl⟩ | ⟨i, -, -, hd, he⟩
  · exact .quiet (same _) (.inr ⟨rfl, rfl⟩) (.inl rfl) (.inl rfl)
  · cases x
    · exact .quiet (same s) (.inr ⟨rfl, rfl⟩) (.inl rfl)
        (.inr ⟨_, rfl, deliveredOf_le _ _, .inr ⟨rfl, _, _, ha⟩⟩)
    · exact .quiet (same s) (.inr ⟨rfl, rfl⟩) (.inl rfl) (.inl rfl)
  · rcases exec_latched hd hp he with rfl | ⟨n, rfl, hph, h⟩ | ⟨n, b, -, hph, rfl⟩ | ⟨n, rfl, hph, h⟩ |
      ⟨rfl, hph, h⟩ | ⟨k, rfl, hph, rfl⟩ | ⟨k, m, -, -, h⟩ | ⟨-, -, h⟩
    · exact .quiet (same _) (.inr ⟨rfl, rfl⟩) (.inl rfl) (.inl rfl)
    · exact State.appendExec_effect hph (fun _ => hd) (.inl hd) h
    · exact .quiet (same s) (.inl rfl) (.inr ⟨rfl, rfl, _, hph⟩)
        (.inr ⟨_, rfl, deliveredOf_le _ _, .inl ⟨hph, rfl⟩⟩)
    · exact State.appendExec_effect hph (fun h => absurd h (by decide)) (.inr (.inl hd)) h
    · exact State.appendExec_effect hph (fun h => absurd h (by decide)) (.inr (.inr ⟨hd, rfl⟩)) h
    · unfold State.readRespExec
      split_ifs
      · exact .quiet (same s) (.inl rfl) (.inl rfl) (.inl rfl)
      · exact ⟨rfl, rfl, rfl, rfl, rfl, rfl, rfl, fun _ => (if_neg fun h => h.2 hph).symm, .inl rfl,
          fun b h1 _ => (by cases h1), .inl rfl⟩
    · obtain ⟨-, rfl⟩ := State.readRespAnswer_next h
      exact .quiet (same s) (.inl rfl) (.inl rfl) (.inl rfl)
    · obtain ⟨-, rfl⟩ := State.decodeExec_next h
      have hs := s.fetch_state s.laddr.toNat s.cfg.hdrFmt.hsz
      generalize s.fetch s.laddr.toNat s.cfg.hdrFmt.hsz = r at *
      rw [hs]
      exact .quiet (same s) (.inl rfl) (.inl rfl) (.inl rfl)

/-- What a host memory write can make of the phase (R43): a pending flush stays one. -/
theorem State.raceFlush_phase (a : Nat) (bs kept : List Byte) (s : State) :
    (s.raceFlush a bs kept).phase = s.phase ∨
      ∃ b b', s.phase = .waitOut b ∧ (s.raceFlush a bs kept).phase = .waitOut b' := by
  unfold State.raceFlush
  split
  · rename_i o ho
    split_ifs
    · exact .inr ⟨o, _, ho, rfl⟩
    · exact .inl rfl
  all_goals exact .inl rfl

/-- What a step does: an offered word, a reset, a host access that touches no register of the FES but `ADDR`, or a
device step. -/
theorem step_effect {s t : State} (h : step s = .next t) :
    (∃ w u, s.OfferDue w ∧ offerWord w u = .next t ∧ u = { s with host := u.host }) ∨
      (s.ResetDue ∧ ∃ r, t = ({ s with host := r } : State).hardReset) ∨
      (t = { s with
          host := t.host, addr := t.addr, linkOpen := t.linkOpen, hostReads := t.hostReads
          seenIdle := t.seenIdle, windows := t.windows, draws := t.draws, hmem := t.hmem, phase := t.phase
          stage := t.stage } ∧
        (t.phase = s.phase ∨ ∃ b b', s.phase = .waitOut b ∧ t.phase = .waitOut b') ∧
        (t.seenIdle = s.seenIdle ∨ (t.seenIdle = true ∧ s.busy = false))) ∨
      ∃ r, s.cmdPort = none ∧ deviceStep { s with host := r } = .next t := by
  rcases step_cases h with ⟨w, hp, h⟩ | ⟨a, r, hp, hh, hd, h⟩ | ⟨r, hp, h⟩
  · exact .inl ⟨w, s, .inl hp, h, rfl⟩
  · rcases State.hostOp_next h with ⟨o, -, -, rfl⟩ | ⟨v, ho, h⟩ | ⟨v, -, rfl⟩ | ⟨o, v, -, -, -, rfl⟩ |
      ⟨a, n, -, -, rfl⟩ | ⟨a, bs, -, -, rfl⟩ | ⟨ho, rfl⟩ | ⟨b, -, rfl⟩
    · refine .inr (.inr (.inl ⟨rfl, .inl rfl, ?_⟩))
      rw [State.csrRead_seenIdle]
      split_ifs with ho
      · exact .inr ⟨rfl, ho.2⟩
      · exact .inl rfl
    · exact .inl ⟨v, _, .inr ⟨hp, a, r, hh, ho, hd⟩, h, rfl⟩
    · exact .inr (.inr (.inl ⟨rfl, .inl rfl, .inl rfl⟩))
    · exact .inr (.inr (.inl ⟨rfl, .inl rfl, .inl rfl⟩))
    · exact .inr (.inr (.inl ⟨rfl, .inl rfl, .inl rfl⟩))
    · refine .inr (.inr (.inl ⟨?_, ?_, ?_⟩)) <;> rw [State.hostMemWrite_state]
      · simpa only [State.noteWritten_phase] using
          State.raceFlush_phase a.toNat bs (State.keptBytes a.toNat bs _) (State.noteWritten a.toNat bs _)
      · exact .inl rfl
    · exact .inr (.inl ⟨⟨hp, a, r, hh, ho, hd⟩, r, rfl⟩)
    · exact .inr (.inr (.inl ⟨rfl, .inl rfl, .inl rfl⟩))
  · exact .inr (.inr (.inr ⟨r, hp, h⟩))

end Sys2Proof.Machine
end

