-- ==== Sys2Proof/Tests/Slice0.lean ====
section
/-! SUPPORT. Tests: the smoke test of WellFormed, words and frames written out from the spec, single steps with results
from 95_test_vectors.md, and for every statement with hypotheses a state that meets them. -/

namespace Sys2Proof.Tests

open Sys2Proof.Machine

/-! ## Well-formedness: an ill-formed term for each check -/

/-- R56: 9 bits need two payload bytes. -/
theorem test_payload_length_checked :
    (Instr.frameSdH4 0x06 9 [0xFF]).wellFormed = false ∧ (Instr.frameTmsH4 0x06 9 [0xFF]).wellFormed = false ∧
      (Instr.frameHelloH4 0x04 0 [0xFF]).wellFormed = false ∧
      (Instr.frameReservedH4 0x04 0x02 0 [0xFF]).wellFormed = false ∧
      (Instr.frameSdH8 0x0A ⟨0, 0, 0, 0⟩ 9 [0xFF]).wellFormed = false ∧
      (Instr.frameTmsH8 0x0A ⟨0, 0, 0, 0⟩ 9 [0xFF]).wellFormed = false ∧
      (Instr.frameHelloH8 0x08 ⟨0, 0, 0, 0⟩ 0 [0xFF]).wellFormed = false ∧
      (Instr.frameReservedH8 0x08 0x02 ⟨0, 0, 0, 0⟩ 0 [0xFF]).wellFormed = false := by decide

/-- R60: the opcodes 0x00, 0x01 and 0xFF are not reserved. -/
theorem test_reserved_opcode_checked :
    (Instr.frameReservedH4 0x04 0x00 0 []).wellFormed = false ∧
      (Instr.frameReservedH4 0x04 0x01 0 []).wellFormed = false ∧
      (Instr.frameReservedH8 0x08 0xFF ⟨0, 0, 0, 0⟩ 0 []).wellFormed = false := by decide

/-! ## Decoding: words and frames written out from the spec -/

/-- 95 V4: words that are commands. -/
theorem test_command_words :
    decodeCommand 0x00000001 = .ok (.appendSd 0) ∧ decodeCommand 0xFFFF0001 = .ok (.appendSd 65535) ∧
      decodeCommand 0x00050101 = .ok (.appendTms 5) ∧ decodeCommand 0x0000FF01 = .ok .appendHello ∧
      decodeCommand 0x00000002 = .ok (.readResp 0) ∧ decodeCommand 0x00000003 = .ok .decode ∧
      decodeCommand 0x0000000F = .ok .sreset := by decide

/-- 95 V4: words that are none. -/
theorem test_illegal_words :
    decodeCommand 0x00000201 = .error .illegalOpcode ∧ decodeCommand 0x00000011 = .error .illegalCommand ∧
      decodeCommand 0x00000102 = .error .illegalCommand ∧ decodeCommand 0x00010003 = .error .illegalCommand ∧
      decodeCommand 0x00000103 = .error .illegalCommand ∧ decodeCommand 0x00000004 = .error .illegalCommand ∧
      decodeCommand 0x0000000E = .error .illegalCommand ∧ decodeCommand 0x0000010F = .error .illegalCommand ∧
      decodeCommand 0xFFFFFFFF = .error .illegalCommand := by decide

/-- 95 V2: H4 frames, byte by byte. -/
theorem test_h4_frames :
    decode .h4 (.wire [0x06, 0x00, 0x09, 0x00, 0xFF, 0x01]) = .ok (.frameSdH4 0x06 9 [0xFF, 0x01]) ∧
      decode .h4 (.wire [0x05, 0x01, 0x07, 0x00, 0xFF]) = .ok (.frameTmsH4 0x05 7 [0xFF]) ∧
      decode .h4 (.wire [0x04, 0xFF, 0x00, 0x00]) = .ok (.frameHelloH4 0x04 0 []) ∧
      decode .h4 (.wire [0x05, 0xFE, 0x08, 0x00, 0xA5]) = .ok (.frameReservedH4 0x05 0xFE 8 [0xA5]) := by decide

/-- 95 V3: H8 frames, the bit count in bytes 6 and 7. -/
theorem test_h8_frames :
    decode .h8 (.wire [0x09, 0x00, 0x11, 0x22, 0x33, 0x44, 0x08, 0x00, 0xA5])
        = .ok (.frameSdH8 0x09 ⟨0x11, 0x22, 0x33, 0x44⟩ 8 [0xA5]) ∧
      decode .h8 (.wire [0x09, 0x01, 0x11, 0x22, 0x33, 0x44, 0x05, 0x00, 0x1F])
        = .ok (.frameTmsH8 0x09 ⟨0x11, 0x22, 0x33, 0x44⟩ 5 [0x1F]) ∧
      decode .h8 (.wire [0x08, 0xFF, 0x11, 0x22, 0x33, 0x44, 0x00, 0x00])
        = .ok (.frameHelloH8 0x08 ⟨0x11, 0x22, 0x33, 0x44⟩ 0 []) ∧
      decode .h8 (.wire [0x08, 0x02, 0x11, 0x22, 0x33, 0x44, 0x00, 0x00])
        = .ok (.frameReservedH8 0x08 0x02 ⟨0x11, 0x22, 0x33, 0x44⟩ 0 []) := by decide

/-- R61: bytes that end too early, or go on. -/
theorem test_frame_bounds :
    decode .h4 (.wire [0x04, 0x00, 0x00]) = .error .truncatedHeader ∧
      decode .h4 (.wire [0x05, 0x00, 0x08, 0x00]) = .error .truncatedPayload ∧
      decode .h4 (.wire [0x04, 0x00, 0x00, 0x00, 0x00]) = .error .trailingBytes := by decide

/-- 95 P3: a recorded stream of four frames. -/
theorem test_stream :
    decodeStream .h4 [0x04, 0xFF, 0x00, 0x00, 0x05, 0x01, 0x05, 0x00, 0x1F, 0x05, 0x00, 0x08, 0x00, 0xA5,
        0x06, 0x00, 0x09, 0x00, 0xFF, 0x01]
      = .ok [.frameHelloH4 0x04 0 [], .frameTmsH4 0x05 5 [0x1F], .frameSdH4 0x05 8 [0xA5],
          .frameSdH4 0x06 9 [0xFF, 0x01]] := by decide

/-- The opcode table's numbering (log 16). -/
theorem test_table_words :
    decodeTableWord 16 0x0001 = some (.appendSd 0) ∧ decodeTableWord 16 0x0101 = some (.appendTms 0) ∧
      decodeTableWord 16 0xFF01 = some .appendHello ∧ decodeTableWord 32 0x0000000F = some .sreset ∧
      decodeTableWord 8 0x00 = some (.frameSdH4 0 0 []) ∧
      decodeTableWord 8 0x02 = some (.frameReservedH4 0 0x02 0 []) ∧ decodeTableWord 32 0 = none := by decide

/-- 95 V1: lengths in bytes. -/
theorem test_ceil8 :
    ceil8 0 = 0 ∧ ceil8 1 = 1 ∧ ceil8 8 = 1 ∧ ceil8 9 = 2 ∧ ceil8 2009 = 252 ∧ ceil8 65535 = 8192 := by decide

/-! ## States for the tests -/

/-- The state of an outcome. -/
def nextOf (o : Host.Outcome State Fault Refusal) : Option State :=
  match o with
  | .next s => some s
  | .fault _ => none
  | .refused _ => none

/-- 95's conventions: H4, `HMEM_SIZE = 0x1000`; the bytes its tables put in host memory, at addresses of our own. -/
def base : State :=
  { State.reset with
    cfg := { Params.reset with hmemSize := 0x1000 }
    hmem := [(0x100, 0xA5), (0x200, 0x1F), (0x400, 0x04), (0x401, 0xFF), (0x402, 0x08), (0x410, 0x05),
      (0x411, 0x02), (0x412, 0x08), (0x420, 0x05), (0x422, 0x08), (0x424, 0xA5)] }

/-- The same with H8 and pinned filler bytes. -/
def base8 : State :=
  { base with
    cfg :=
      { base.cfg with
        hdrFmt := .h8, extR1 := some 0x11, extR2 := some 0x22
        extDup := [(0x00, 0xD0), (0x01, 0xD1), (0xFF, 0xDF)], extEx := [(0x00, 0xE0), (0x01, 0xE1), (0xFF, 0xEF)] }
    hmem := [(0x100, 0xA5), (0x400, 0x09), (0x402, 0x12), (0x403, 0x22), (0x404, 0xD0), (0x405, 0xE0), (0x406, 0x08)] }

/-- `w` stands on the `CMD` port. -/
def offering (w : Word) (s : State) : State := { s with cmdPort := some w }

/-- `w` has been accepted with `ADDR = a`, and its EXEC step is due. -/
def running (w a : Word) (s : State) : State :=
  { s with addr := a, lcmd := w, laddr := a, phase := .exec, windows := [⟨a.toNat, destLen w, []⟩] }

/-- The link's next answer. -/
def answering (a : LinkAnswer) (s : State) : State := { s with answers := [a] }

/-- `Ok`, with these bytes. -/
def ok (data : List Byte) : LinkAnswer := ⟨true, 0, data⟩

/-- `TransferError`. -/
def failed : LinkAnswer := ⟨false, 0, []⟩

/-- An `append.sd 8` whose flush is outstanding. -/
def flushing (s : State) : State := { running 0x00080001 0x100 s with phase := .waitOut [0x05, 0x00, 0x08, 0x00, 0xA5], cur := 5 }

/-- A `read.resp 1` into `0x300` whose read is outstanding. -/
def reading (s : State) : State := { running 0x00010002 0x300 s with phase := .waitIn 1 }

/-- The fault halt after a `CAPACITY_EXCEEDED` (95 V8, first row). -/
def halted (s : State) : State :=
  { s with fault := true, cause := .capacityExceeded, faultCmd := 0x00000001, faultAddr := 0x100, cur := 4000, addr := 0x100 }

/-! ## One step of each instruction -/

/-- 40 R83: `append.sd 8` stages `05 00 08 00 A5` and sends it. -/
theorem test_append_sd_flushes :
    (nextOf (step (running 0x00080001 0x100 base))).map (·.phase)
      = some (.waitOut [0x05, 0x00, 0x08, 0x00, 0xA5]) := by decide

/-- 95 V5.4: after a failed flush `STATUS = 4` and `CUR = 0`. -/
theorem test_append_sd_failed :
    (nextOf (step (answering failed (flushing base)))).map (fun t => (t.statusWord, t.cur)) = some (4, 0) := by decide

/-- 40 R84: `append.tms 5` stages `05 01 05 00 1F`; `CUR = 5`, no transaction. -/
theorem test_append_tms_stages :
    (nextOf (step (running 0x00050101 0x200 base))).map (fun t => (t.stageBytes 5, t.cur, t.phase))
      = some ([0x05, 0x01, 0x05, 0x00, 0x1F], 5, .idle) := by decide

/-- 95 V5.6: `append.tms 65535` from reset faults with `CAPACITY_EXCEEDED`. -/
theorem test_append_tms_too_long :
    (nextOf (step (offering 0xFFFF0101 base))).map (fun t => (t.statusWord, t.faultCmd, t.cur))
      = some (0x00000102, 0xFFFF0101, 0) := by decide

/-- 40 R85: `append.hello` stages `04 FF 00 00`; `CUR = 4`. -/
theorem test_append_hello_stages :
    (nextOf (step (running 0x0000FF01 0 base))).map (fun t => (t.stageBytes 4, t.cur))
      = some ([0x04, 0xFF, 0x00, 0x00], 4) := by decide

/-- 40 R85 in H8: the filler bytes are the parameters. -/
theorem test_append_hello_stages_h8 :
    (nextOf (step (running 0x0000FF01 0 base8))).map (fun t => (t.stageBytes 8, t.cur))
      = some ([0x08, 0xFF, 0x11, 0x22, 0xDF, 0xEF, 0x00, 0x00], 8) := by decide

/-- 41 R88: `Ok([3C])` puts `3C` at `0x300`. -/
theorem test_read_resp_lands :
    (nextOf (step (answering (ok [0x3C]) (reading base)))).map (fun t => (t.hmem.read 0x300, t.statusWord))
      = some (0x3C, 0) := by decide

/-- 95 V6: `ADDR = 0x0FFF`, `read.resp 2` faults with `HOST_BUS_ERROR`. -/
theorem test_read_resp_out_of_range :
    (nextOf (step (offering 0x00020002 { base with addr := 0x0FFF }))).map (·.statusWord) = some 0x00000502 := by decide

/-- 95 V7: `04 FF 08 00` has `DLEN_MISMATCH` and `DHELLO_BITS`. -/
theorem test_decode_malformed :
    (nextOf (step (running 0x00000003 0x400 base))).map (fun t => (t.decHdr, t.decInfo, t.statusWord))
      = some (0x0008FF04, 0x000A0001, 0) := by decide

/-- 95 V7, H8: a filler byte that differs is `DEXT_MISMATCH`. -/
theorem test_decode_filler :
    (nextOf (step (running 0x00000003 0x400 base8))).map (fun t => (t.decHdr, t.decInfo))
      = some (0x00080009, 0x00100001) := by decide

/-- 95 V8: SRESET out of the fault halt. -/
theorem test_sreset :
    (nextOf (step (offering 0x0000000F (halted base)))).map
        (fun t => (t.statusWord, t.cur, t.addr, t.faultCmd, t.faultAddr))
      = some (0, 0, 0, 0, 0) := by decide

/-- 95 V5.5: SRESET while busy faults with `CMD_WHILE_BUSY`. -/
theorem test_sreset_busy :
    (nextOf (step (offering 0x0000000F (flushing base)))).map (fun t => (t.statusWord, t.phase))
      = some (0x00000603, .waitOut [0x05, 0x00, 0x08, 0x00, 0xA5]) := by decide

/-- 30 R60: a shift-data frame reaches the stager and is flushed. -/
theorem test_frame_sd :
    (nextOf (exec (.frameSdH4 0x05 8 [0xA5]) (running 0x00080001 0x100 base))).map (·.phase)
      = some (.waitOut [0x05, 0x00, 0x08, 0x00, 0xA5]) := by decide

/-- 30 R60: a shift-TMS frame is staged only. -/
theorem test_frame_tms :
    (nextOf (exec (.frameTmsH4 0x05 5 [0x1F]) (running 0x00050101 0x200 base))).map (fun t => (t.cur, t.phase))
      = some (5, .idle) := by decide

/-- 95 V7: a hello frame with bits is reported. -/
theorem test_frame_hello :
    (nextOf (exec (.frameHelloH4 0x04 8 [0x00]) (running 0x00000003 0x400 base))).map (·.decInfo)
      = some 0x000A0001 := by decide

/-- 95 V7: a reserved opcode is reported as `DOPC_UNDEF`. -/
theorem test_frame_reserved :
    (nextOf (exec (.frameReservedH4 0x05 0x02 8 [0x00]) (running 0x00000003 0x410 base))).map
        (fun t => (t.decHdr, t.decInfo))
      = some (0x00080205, 0x00040001) := by decide

/-- 95 V3: the H8 shift-data frame of `A5`. -/
theorem test_frame_sd_h8 :
    (nextOf (step (running 0x00080001 0x100 base8))).map (·.phase)
      = some (.waitOut [0x09, 0x00, 0x11, 0x22, 0xD0, 0xE0, 0x08, 0x00, 0xA5]) := by decide

/-- 30 R60 in H8: staged only. -/
theorem test_frame_tms_h8 :
    (nextOf (exec (.frameTmsH8 0x09 ⟨0x11, 0x22, 0xD1, 0xE1⟩ 5 [0x1F]) (running 0x00050101 0x200 base8))).map
        (fun t => (t.stageBytes 9, t.cur))
      = some ([0x09, 0x01, 0x11, 0x22, 0xD1, 0xE1, 0x05, 0x00, 0x1F], 9) := by decide

/-- 41 R92 in H8: a well-formed hello is valid. -/
theorem test_frame_hello_h8 :
    (nextOf (exec (.frameHelloH8 0x08 ⟨0x11, 0x22, 0xDF, 0xEF⟩ 0 []) (running 0x00000003 0x400 base8))).map (·.decInfo)
      = some 0x00010000 := by decide

/-- 41 R92 in H8: `header_len` 4 of an 8-byte frame is a mismatch. -/
theorem test_frame_reserved_h8 :
    (nextOf (exec (.frameReservedH8 0x04 0x02 ⟨0x11, 0x22, 0, 0⟩ 0 [])
        (running 0x00000003 0x400 { base8 with cfg := { base8.cfg with extDup := [(0x02, 0)], extEx := [(0x02, 0)] } }))).map
        (·.decInfo)
      = some 0x00060000 := by decide

/-! ## The host's side -/

/-- 95 V9: `CONFIG` and a reserved offset. -/
theorem test_config :
    (nextOf (base.hostOp (.csrRead .w32 0x20))).map (·.hostReads) = some [.csr 0x20 0x10000040] ∧
      (nextOf (base8.hostOp (.csrRead .w32 0x20))).map (·.hostReads) = some [.csr 0x20 0x10000081] ∧
      (nextOf (base.hostOp (.csrRead .w32 0xFC))).map (·.hostReads) = some [.csr 0xFC 0] := by decide

/-- 95 V9: `CURSOR` with `CUR = 4096`; a write to `STATUS` does nothing. -/
theorem test_cursor :
    (nextOf ({ base with cur := 4096 }.hostOp (.csrRead .w32 0x0C))).map (·.hostReads) = some [.csr 0x0C 0x1000] ∧
      nextOf (base.hostOp (.csrWrite .w32 0x08 0x12345678)) = some base := by decide

/-- 95 V8, last row: reset during a flush; the answer that comes later is discarded. -/
theorem test_reset_cuts_off :
    (nextOf ((answering failed (flushing base)).hostOp .reset)).map (fun t => (t.phase, t.cur, t.abandoned))
        = some (.idle, 0, [.out [0x05, 0x00, 0x08, 0x00, 0xA5] true]) ∧
      (nextOf (step { base with abandoned := [.out [] true], answers := [failed] })).map (fun t => (t.statusWord, t.abandoned))
        = some (0, []) := by decide

/-- 70 R126 (1), 95 V5: a flush issued with the session closed fails, opened since or not. -/
theorem test_issued_closed :
    (nextOf (step { running 0x00080001 0x100 base with linkOpen := false })).map (·.issuedOpen) = some false ∧
      (nextOf (step (answering (ok []) { flushing base with issuedOpen := false, linkOpen := true }))).map (·.statusWord)
        = some 4 ∧
      (nextOf (step (answering (ok []) { flushing base with issuedOpen := true, linkOpen := false }))).map (·.statusWord)
        = some 0 := by decide

/-- 70 R138 (b): the bytes of a discarded `Ok` are part of the IN stream. -/
theorem test_discarded_read_is_recorded :
    (nextOf (step { base with abandoned := [.inn 1 true], answers := [ok [0x3C]] })).map (fun t => (t.inStream, t.hmem.read 0x300))
      = some ([⟨1, true, [0x3C], true⟩], 0) := by decide

/-- 20 R44: a host write of an address outside every open destination is read back. -/
theorem test_host_write_reads_back :
    (nextOf ((reading base).hostOp (.memWrite 0x500 [0x55]))).map (fun t => (t.hmem.read 0x500, t.hostByte 0 0x500, t.draws))
      = some (0x55, 0x55, 0) := by decide

/-- 20 R44, 70 R131: of a destination byte the host has raced, the received value is noted beside those it held. -/
theorem test_raced_read_notes_the_received_byte :
    (nextOf (step (answering (ok [0x3C])
        { reading base with hmem := [(0x300, 0x22)], windows := [⟨0x300, 1, [(0x300, 0x11)]⟩] }))).map (·.windows)
      = some [⟨0x300, 1, [(0x300, 0x3C), (0x300, 0x22), (0x300, 0x11)]⟩] := by decide

/-- 60 R121, 95 P2: a run that a fault halted, and that SRESET led out of the halt, ends, but it is a fault outcome. -/
theorem test_recovered_run_is_a_fault_outcome :
    let s := { halted base with host := [⟨0, .csrWrite .w32 0x00 0x0000000F⟩, ⟨0, .csrRead .w32 0x08⟩] }
    (∃ t, s.RunsTo 2 t ∧ t.Finished ∧ t.fault = false) ∧ s.FaultOutcome 2 :=
  ⟨⟨_, ⟨_, rfl, _, rfl, rfl⟩, ⟨rfl, rfl, rfl⟩, rfl⟩, ⟨0, _, by decide, rfl, rfl⟩⟩

/-- 95 P1, the `fail` run: `sreset` after a polled `append.sd` ends the run, with no later read of `STATUS`. -/
theorem test_sreset_ends_a_polled_run :
    (nextOf (step { base with linkErr := true, seenIdle := true, host := [⟨0, .csrWrite .w32 0x00 0x0000000F⟩] })).map
        (fun t => (decide t.Finished, t.statusWord))
      = some (true, 0) := by decide

/-- 70 R138: a command that has been accepted, and not polled, has not ended the run. -/
theorem test_unpolled_command_does_not_end_a_run :
    (nextOf (step { base with seenIdle := true, host := [⟨0, .csrWrite .w32 0x00 0x0000FF01⟩] })).map
        (fun t => decide t.Finished)
      = some false := by decide

/-- Reset has no program; a word placed by the host is run by the very next step (log 6). -/
theorem test_fetch_word :
    (nextOf (step (State.reset.withFetchWord 16 0xFF01))).map (·.phase) = some .exec ∧
      (nextOf (step (State.reset.withFetchWord 8 0x02))).map (·.decHdr) = some 0x00000200 := by decide

/-- 30 R69: assembly. -/
theorem test_assembly :
    parseLine "append.sd" ["0x8"] = .ok (.appendSd 8) ∧ parseLine "read.resp" ["65536"] = .ok (.readResp 65536) ∧
      assemble (.readResp 65536) = .error .countOutOfRange ∧ assemble (.appendTms 5) = .ok 0x00050101 ∧
      parseLine "append.hello" ["1"] = .error .badSyntax := by decide

/-- 30 R72: `sd 8` with its byte in braces. -/
theorem test_disassembly :
    disassemble (.frameSdH4 0x05 8 [0xA5]) = some ("sd 8 " ++ String.ofList [Char.ofNat 123, 'A', '5', Char.ofNat 125]) ∧
      disassemble (.frameHelloH4 0x04 0 []) = some "hello" := by decide

/-- 30 R71: `wait` polls while `BUSY = 1` and goes on when it is 0. -/
theorem test_wait :
    (match hostTurn ⟨Pseudo.expand .wait, 2, [("t", .num 1)]⟩ base with | .next h _ => h.pc | _ => 99) = 0 ∧
      (match hostTurn ⟨Pseudo.expand .wait, 2, [("t", .num 4)]⟩ base with | .next h _ => h.pc | _ => 99) = 3 := by decide

/-- 30 R70: `bne` compares the bytes that `memr` read. -/
theorem test_bytes_compare :
    (match hostTurn ⟨[.bne (.var "s") (.var "r") (.name "fail"), .label (.name "fail")], 0,
        [("s", .bytes [1]), ("r", .bytes [1])]⟩ base with | .next h _ => h.pc | _ => 99) = 1 ∧
      (match hostTurn ⟨[.label (.name "l"), .bne (.var "s") (.var "r") (.name "l")], 1,
        [("s", .bytes [1]), ("r", .bytes [2])]⟩ base with | .next h _ => h.pc | _ => 99) = 0 := by decide

/-! ## Witnesses: for every statement with hypotheses, states and operands that meet them all -/

/-- H4, reserved bytes and all. -/
def streamH4 : List Instr :=
  [.frameHelloH4 0x04 0 [], .frameTmsH4 0x05 5 [0x1F], .frameSdH4 0x06 9 [0xFF, 0x01],
    .frameReservedH4 0x00 0x02 1 [0x80]]

/-- The same in H8. -/
def streamH8 : List Instr :=
  [.frameHelloH8 0x08 ⟨1, 2, 3, 4⟩ 0 [], .frameTmsH8 0x09 ⟨1, 2, 3, 4⟩ 5 [0x1F],
    .frameSdH8 0x0A ⟨1, 2, 3, 4⟩ 9 [0xFF, 0x01], .frameReservedH8 0x00 0xFE ⟨1, 2, 3, 4⟩ 1 [0x80]]

theorem witness_DecodeReadsBackEveryEncoding :
    ((Instr.appendSd 65535).wellFormed = true ∧ (Instr.appendSd 65535).format = none) ∧
      (∀ i ∈ streamH4, i.wellFormed = true ∧ (i.format = none ∨ i.format = some .h4)) ∧
      ∀ i ∈ streamH8, i.wellFormed = true ∧ (i.format = none ∨ i.format = some .h8) := by decide

theorem witness_EveryCommandHasOneWord :
    decodeCommand 0xFFFF0002 = .ok (.readResp 65535) ∧ decodeCommand 0x0000FF01 = .ok .appendHello := by decide

theorem witness_FrameStreamsParseBack :
    (∀ i ∈ streamH4, i.wellFormed = true ∧ i.format = some .h4) ∧
      ∀ i ∈ streamH8, i.wellFormed = true ∧ i.format = some .h8 := by decide

theorem witness_AssemblyGivesTheListedWords : 65535 ≤ 65535 ∧ 65535 < 65536 ∧ 32736 < 32737 ∧ ¬ 32736 < 32736 := by
  decide

theorem witness_FramesHaveTheirLayout : base.cfg.hdrFmt = .h4 ∧ base8.cfg.hdrFmt = .h8 := by decide

/-- The host writes `w` to `CMD` when `after` device steps have passed. -/
def writing (w : Word) (after : Nat) (s : State) : State := { s with host := [⟨after, .csrWrite .w32 0x00 w⟩] }

theorem witness_StepRunsTheDecodedCommand :
    ((offering 0x00000003 base).cmdPort = some 0x00000003 ∧ decodeCommand 0x00000003 = .ok .decode) ∧
      ((writing 0x00000003 0 base).cmdPort = none ∧
        (writing 0x00000003 0 base).host = [⟨0, .csrWrite .w32 0x00 0x00000003⟩]) ∧
      ((flushing base).cmdPort = none ∧ (flushing base).host = [] ∧ (flushing base).abandoned = [] ∧
        (flushing base).busy = true ∧ decodeCommand (flushing base).lcmd = .ok (.appendSd 8)) ∧
      (writing 0x00000003 1 (flushing base)).host = [⟨1, .csrWrite .w32 0x00 0x00000003⟩] ∧
      (writing 0x00000003 1 (flushing base)).busy = true := by decide

theorem witness_DueHostAccessesAreMade :
    (let s := { flushing base with host := [⟨0, .memRead 0x100 1⟩] };
      s.cmdPort = none ∧ s.host = [⟨0, .memRead 0x100 1⟩]) ∧
      (let s := { base with host := [⟨3, .reset⟩] }; s.cmdPort = none ∧ s.deviceReady = false) ∧
      (let s := { flushing base with host := [⟨3, .session false⟩] }; s.cmdPort = none ∧ s.deviceReady = true) ∧
      (flushing base).host = [] := by decide

theorem witness_DecodeStepRunsTheFrameItReads :
    let s := running 0x00000003 0x420 base
    let i := Instr.frameSdH4 0x05 8 [0xA5]
    s.cmdPort = none ∧ s.phase = .exec ∧ s.lcmd = 0x00000003 ∧ s.displaced = [] ∧
      s.cfg.inRange s.laddr s.cfg.hdrFmt.hsz = true ∧ i.format = some s.cfg.hdrFmt ∧
      ∀ k < s.cfg.hdrFmt.hsz, s.hmem.read (s.laddr.toNat + k) = (encode i).bytes.getD k 0 := by decide

theorem witness_AppendStepRunsTheFrameItBuilds :
    (let s := running 0x00080001 0x100 base;
      s.cmdPort = none ∧ s.phase = .exec ∧ s.displaced = [] ∧ s.cfg.inRange s.laddr 1 = true ∧
        s.hmem.readBlock s.laddr.toNat 1 = [0xA5] ∧ s.lcmd = appendWord 0x00 8) ∧
      (running 0x00050101 0x200 base).lcmd = appendWord 0x01 5 ∧
      (running 0x0000FF01 0 base).lcmd = appendWord 0xFF 0 := by decide

theorem witness_AcceptedCommandsAreLatched :
    let s := offering 0x00080001 { base with cur := 4091, addr := 0xFFF }
    encode (.appendSd 8) = .word 0x00080001 ∧ encode (.appendTms 8) = .word 0x00080101 ∧
      encode .appendHello = .word 0x0000FF01 ∧ encode (.readResp 1) = .word 0x00010002 ∧
      encode .decode = .word 0x00000003 ∧ s.cmdPort = some 0x00080001 ∧ s.fault = false ∧ s.busy = false ∧
      (s.cur.toNat + s.cfg.hdrFmt.hsz + ceil8 8 = 4096 ∧ s.addr.toNat + ceil8 8 = s.cfg.hmemSize) := by decide

/-- The acceptance conditions of each command, at the edge of its range. -/
theorem witness_Acceptable :
    let s : State := { base with cur := 4091, addr := 0xFFF }
    s.Acceptable (.appendSd 8) ∧ s.Acceptable (.appendTms 8) ∧ s.Acceptable .appendHello ∧
      s.Acceptable (.readResp 1) ∧ s.Acceptable (.readResp 0) ∧ { base with addr := 0xFFC }.Acceptable .decode :=
  ⟨⟨by decide, by decide⟩, ⟨by decide, by decide⟩, show _ ≤ _ by decide, show _ ∨ _ by decide,
    show _ ∨ _ by decide, show _ ≤ _ by decide⟩

theorem witness_IllegalWordsRaiseTheirCause :
    (offering 0x00000011 base).fault = false ∧ (offering 0x00000011 base).busy = false ∧
      (0x00000011 : Word).extractLsb' 4 4 ≠ 0 ∧
      ((0x0000000E : Word).extractLsb' 4 4 = 0 ∧ (0x0000000E : Word).extractLsb' 0 4 = 0xE) ∧
      ((0x00000102 : Word).extractLsb' 0 4 = 0x2 ∧ (0x00000102 : Word).extractLsb' 8 8 ≠ 0) ∧
      ((0x0001000F : Word).extractLsb' 0 4 = 0xF ∧ (0x0001000F : Word).extractLsb' 8 24 ≠ 0) ∧
      ((0x0000FE01 : Word).extractLsb' 0 4 = 0x1 ∧ (0x0000FE01 : Word).extractLsb' 8 8 = 0xFE) ∧
      ((0x0001FF01 : Word).extractLsb' 8 8 = 0xFF ∧ (0x0001FF01 : Word).extractLsb' 16 16 ≠ 0) := by decide

theorem witness_AppendsThatDoNotFitFault :
    (let s := offering 0x00000001 { base with cur := 4093 };
      s.cmdPort = some 0x00000001 ∧ s.fault = false ∧ s.busy = false ∧
        s.cur.toNat + s.cfg.hdrFmt.hsz + ceil8 (0 : Half).toNat = 4097) ∧
      4096 < (offering 0xFFFF0101 base).cur.toNat + base.cfg.hdrFmt.hsz + ceil8 (65535 : Half).toNat ∧
      (let s := offering 0x00000001 { base with cur := 4092 };
        s.cur.toNat + s.cfg.hdrFmt.hsz + ceil8 (0 : Half).toNat = 4096) := by decide

theorem witness_CommandsOutOfRangeFault :
    (let s := offering 0x00080001 { base with addr := 0x1000 };
      s.cmdPort = some 0x00080001 ∧ s.fault = false ∧ s.busy = false ∧
        s.cur.toNat + s.cfg.hdrFmt.hsz + ceil8 (8 : Half).toNat ≤ 4096 ∧ s.cfg.hmemSize < s.addr.toNat + 1) ∧
      (offering 0x00020002 { base with addr := 0xFFF }).cfg.hmemSize < (0xFFF : Word).toNat + (2 : Half).toNat ∧
      (offering 0x00000003 base).cfg.hmemSize < (0xFFD : Word).toNat + base.cfg.hdrFmt.hsz := by decide

theorem witness_WordsOfferedWhileBusyFault :
    let s := offering 0x00050101 (flushing base)
    s.cmdPort = some 0x00050101 ∧ s.fault = false ∧ s.busy = true := by decide

theorem witness_TheHaltIgnoresCommands :
    ((offering 0x00000001 (halted base)).fault = true ∧ (0x00000001 : Word) ≠ 0x0000000F) ∧
      (offering 0x0000000F (flushing (halted base))).busy = true ∧
      ((offering 0x0000000F (halted base)).busy = false ∧
        (offering 0x0000000F (halted base)).cmdPort = some 0x0000000F) ∧
      ((flushing base).cmdPort = none ∧ (nextOf (exec (.appendSd 8) (flushing base))).isSome = true) := by decide

theorem witness_SresetWritesTheResetValues :
    ((offering 0x0000000F (halted base)).cmdPort = some 0x0000000F ∧ (offering 0x0000000F (halted base)).busy = false) ∧
      ((offering 0x0000000F (flushing base)).busy = true ∧ (offering 0x0000000F (flushing base)).fault = false) ∧
      (offering 0x0000000F (flushing (halted base))).busy = true ∧
      (offering 0x0000000F (flushing (halted base))).fault = true := by decide

/-- For both AppendSdStagesAndFlushes and AppendTmsStagesAndCompletes: an exact fit at the end of memory, and an
empty payload at an address outside it. -/
theorem witness_AppendsStage :
    (let s := { running 0x00080001 0xFFF base with cur := 4091 };
      s.cmdPort = none ∧ s.phase = .exec ∧ s.cur.toNat + s.cfg.hdrFmt.hsz + ceil8 (8 : Half).toNat = 4096 ∧
        s.laddr.toNat + ceil8 (8 : Half).toNat = s.cfg.hmemSize) ∧
      (ceil8 (0 : Half).toNat = 0 ∧ (running 0x00000101 0xFFFFFFFF base).phase = .exec) := by decide

theorem witness_AppendHelloStagesAndCompletes :
    let s := { running 0x0000FF01 0 base with cur := 4092 }
    s.cmdPort = none ∧ s.phase = .exec ∧ s.cur.toNat + s.cfg.hdrFmt.hsz = 4096 := by decide

theorem witness_TheAnswerEndsAnAppendSd :
    (flushing base).cmdPort = none ∧ (flushing base).phase = .waitOut [0x05, 0x00, 0x08, 0x00, 0xA5] ∧
      (answering (ok []) (flushing base)).nextAnswer.ok = true ∧
      (answering failed (flushing base)).nextAnswer.ok = false := by decide

theorem witness_AClosedSessionAnswersTransferError :
    let s := { flushing base with issuedOpen := false }
    let r := { reading base with issuedOpen := false }
    s.cmdPort = none ∧ s.issuedOpen = false ∧ s.phase = .waitOut [0x05, 0x00, 0x08, 0x00, 0xA5] ∧
      r.issuedOpen = false ∧ r.phase = .waitIn 1 ∧ r.laddr.toNat + 1 ≤ r.cfg.hmemSize ∧
      (flushing base).issuedOpen = true ∧ (reading base).issuedOpen = true := by decide

/-- A flush and a read issued with the session closed, and a session closed while a flush waits. -/
theorem witness_TheSessionCountsAtTheIssue :
    let s := { running 0x00080001 0x100 base with linkOpen := false }
    let r := { running 0x00010002 0x300 base with linkOpen := false }
    let w := { flushing base with host := [⟨0, .session false⟩] }
    (¬ s.Waiting ∧ (nextOf (step s)).map (fun t => decide t.Waiting) = some true) ∧
      (¬ r.Waiting ∧ (nextOf (step r)).map (fun t => decide t.Waiting) = some true) ∧
      w.Waiting ∧ (nextOf (step w)).map (fun t => (decide t.Waiting, t.issuedOpen, t.linkOpen))
        = some (true, true, false) := by decide

/-- 95 P3 in small: `append.hello`, `append.tms 5`, `append.sd 8` from an empty buffer. -/
theorem witness_OneFlushCarriesTheBatchInOrder :
    (base.fault = false ∧ base.phase = .idle ∧ base.cur = 0) ∧
      (∀ c ∈ ([(.appendHello, 0), (.appendTms 5, 0x200)] : List (Instr × Word)),
        (∃ m, c.1 = .appendTms m) ∨ c.1 = .appendHello) ∧
      ∃ t, base.RunsBatch ([(.appendHello, 0), (.appendTms 5, 0x200)] ++ [(.appendSd 8, 0x100)]) t :=
  ⟨by decide, by simp, ⟨_, _, ⟨_, _, rfl, rfl, rfl, rfl⟩, _, ⟨_, _, rfl, rfl, rfl, rfl⟩, _,
    ⟨_, _, rfl, rfl, rfl, rfl⟩, rfl⟩⟩

theorem witness_ReadRespIssuesItsRead :
    (running 0x00010002 0x300 base).cmdPort = none ∧ (running 0x00010002 0x300 base).phase = .exec ∧
      (1 : Half) ≠ 0 ∧ (running 0x00000002 0x300 base).phase = .exec := by decide

theorem witness_TheAnswerEndsAReadResp :
    (let s := answering (ok [0x3C]) { reading base with laddr := 0xFFF };
      s.cmdPort = none ∧ s.phase = .waitIn 1 ∧ s.laddr.toNat + 1 = s.cfg.hmemSize ∧ s.nextAnswer.ok = true ∧
        s.nextAnswer.data.length = 1 ∧ heldAt s.displaced 0xFFF = []) ∧
      heldAt (reading { base with windows := [⟨0x300, 1, [(0x100, 0xA5)]⟩] }).displaced 0x300 = [] ∧
      (∃ w ∈ (reading base).windows, w.covers 0x300 = true) ∧
      (answering failed (reading base)).nextAnswer.ok = false := by decide

theorem witness_DecodeReportsTheHeader :
    (let s := running 0x00000003 0xFFC base;
      s.cmdPort = none ∧ s.phase = .exec ∧ s.laddr.toNat + s.cfg.hdrFmt.hsz = s.cfg.hmemSize ∧ s.cfg.hdrFmt = .h4) ∧
      (let s := running 0x00000003 0xFF8 base8;
        s.laddr.toNat + s.cfg.hdrFmt.hsz = s.cfg.hmemSize ∧ s.cfg.hdrFmt = .h8) := by decide

/-- The bytes of a shift-data, a shift-TMS and a hello frame at `0x500`. -/
theorem witness_DecodeReadsBackEncodedFrames :
    let at' := fun (bs : List Byte) => running 0x00000003 0x500 { base with hmem := Memory.write [] 0x500 bs }
    (∀ i < 5, (at' [0x05, 0x00, 0x08, 0x00, 0xA5]).hmem.read (0x500 + i)
        = (base.cfg.encodeFrame 0x00 8 [0xA5]).getD i 0) ∧
      (∀ i < 5, (at' [0x05, 0x01, 0x05, 0x00, 0x1F]).hmem.read (0x500 + i)
        = (base.cfg.encodeFrame 0x01 5 [0x1F]).getD i 0) ∧
      (∀ i < 4, (at' [0x04, 0xFF, 0x00, 0x00]).hmem.read (0x500 + i) = (base.cfg.encodeFrame 0xFF 0 []).getD i 0) ∧
      [0xA5].length = ceil8 (8 : Half).toNat ∧ (at' []).cmdPort = none ∧ (at' []).phase = .exec ∧
      (at' []).displaced = [] ∧ (at' []).laddr.toNat + base.cfg.hdrFmt.hsz ≤ base.cfg.hmemSize := by decide

theorem witness_H4FramesReachTheStager :
    (let s := { running 0x00080001 0x100 base with cur := 4091 };
      s.cfg.hdrFmt = .h4 ∧ s.phase = .exec ∧ s.cur.toNat + 4 + [(0xA5 : Byte)].length = 4096 ∧
        s.lcmd = appendWord 0x00 8) ∧
      (running 0x00050101 0x200 base).lcmd = appendWord 0x01 5 ∧
      (running 0x0000FF01 0 base).lcmd = appendWord 0xFF 0 := by decide

theorem witness_H8FramesReachTheStager :
    (let s := { running 0x00080001 0x100 base8 with cur := 4087 };
      s.cfg.hdrFmt = .h8 ∧ s.phase = .exec ∧ s.cur.toNat + 8 + [(0xA5 : Byte)].length = 4096 ∧
        s.lcmd = appendWord 0x00 8) ∧
      (running 0x00050101 0x200 base8).lcmd = appendWord 0x01 5 ∧
      (running 0x0000FF01 0 base8).lcmd = appendWord 0xFF 0 := by decide

theorem witness_FramesAreReportedByDecode :
    (running 0x00000003 0x400 base).phase = .exec ∧ (running 0x00000003 0x400 base).lcmd = 0x00000003 ∧
      (∀ i ∈ streamH4, (frameHeader i).isSome = true ∧ i.format = some base.cfg.hdrFmt) ∧
      ∀ i ∈ streamH8, (frameHeader i).isSome = true ∧ i.format = some base8.cfg.hdrFmt := by decide

theorem witness_ReservedFramesAreNeverEmitted :
    (∃ hl op n p, Instr.frameReservedH4 0x05 0x02 8 [0xA5] = .frameReservedH4 hl op n p) ∧
      ∃ hl op x n p, Instr.frameReservedH8 0x09 0xFE ⟨1, 2, 3, 4⟩ 8 [0xA5] = .frameReservedH8 hl op x n p :=
  ⟨⟨_, _, _, _, rfl⟩, ⟨_, _, _, _, _, rfl⟩⟩

theorem witness_RegisterReadsReturnTheRegister :
    (0x24 : Byte).toNat % 4 = 0 ∧ (0xFC : Byte).toNat % 4 = 0 ∧ base.busy = false ∧
      ((0x08 : Byte).toNat % 4 = 0 ∧ (0x08 : Byte) ≠ 0x0C ∧ (0x08 : Byte) ≠ 0x10 ∧ (0x08 : Byte) ≠ 0x14 ∧
        (flushing base).busy = true) := by decide

theorem witness_BusyReadsChangeNoRegister : (flushing base).busy = true := by decide

theorem witness_RegisterWritesWriteOnlyAddr :
    (0x04 : Byte).toNat % 4 = 0 ∧ (0x04 : Byte) ≠ 0x00 ∧ (0xFC : Byte).toNat % 4 = 0 ∧ (0xFC : Byte) ≠ 0x04 := by decide

theorem witness_OddRegisterAccessesAreRefused :
    AccessWidth.w16 ≠ .w32 ∧ AccessWidth.w8 ≠ .w32 ∧ (0x02 : Byte).toNat % 4 ≠ 0 := by decide

theorem witness_HostWritesLandInMemory :
    (0xFFF : Word).toNat + [(0x55 : Byte)].length = base.cfg.hmemSize ∧ base.phase = .idle ∧
      ¬ base.Unseen 0xFFF ∧ ({ base with windows := [⟨0x300, 1, []⟩] } : State).Unseen 0x300 ∧
      ¬ ({ base with windows := [⟨0x300, 1, []⟩] } : State).Unseen 0x301 ∧
      ¬ (reading base).Unseen 0x300 ∧ (flushing base).hitsPayload 0x101 1 = false ∧
      (flushing base).hitsPayload 0x100 1 = true := by decide

/-- A write to the payload of a flush, and one beside it. -/
theorem witness_AWriteDuringAFlushMayReachItsPayload :
    (flushing base).phase = .waitOut [0x05, 0x00, 0x08, 0x00, 0xA5] ∧ (flushing base).latchedLen = 1 ∧
      (nextOf ((flushing base).hostOp (.memWrite 0x100 [0x11]))).isSome = true ∧
      (nextOf ((flushing base).hostOp (.memWrite 0x101 [0x11]))).map (·.phase)
        = some (.waitOut [0x05, 0x00, 0x08, 0x00, 0xA5]) := by decide

theorem witness_HostReadsReturnHeldValues :
    (0xFFF : Word).toNat + 1 = base.cfg.hmemSize ∧ (∀ w ∈ (reading base).windows, w.covers 0x301 = false) ∧
      (answering (ok [0x3C]) (reading base)).visibleValues 0x300 = [0x00, 0x3C] := by decide

theorem witness_HostAccessesOutsideHmemStop :
    0 < 1 ∧ [(0x55 : Byte)].length = 1 ∧ base.cfg.hmemSize < (0x1000 : Word).toNat + 1 := by decide

theorem witness_ObservedCompletionSynchronizes :
    base.busy = false ∧ (0xFFE : Word).toNat + 2 ≤ base.cfg.hmemSize := by decide

theorem witness_ResetLeavesTheStatedValues :
    (flushing base).phase = .waitOut [0x05, 0x00, 0x08, 0x00, 0xA5] ∧ (reading base).phase = .waitIn 1 := by decide

theorem witness_LateAnswersAreDiscarded :
    (let s := { base with abandoned := [.inn 1 true] };
      s.cmdPort = none ∧ s.host = [] ∧ s.abandoned = .inn 1 true :: []) ∧
      (let s := { base with abandoned := [.out [1] false], host := [⟨2, .reset⟩] };
        s.cmdPort = none ∧ s.host = [⟨2, .reset⟩] ∧ (2 : Nat) ≠ 0) := by decide

/-- A decode in its EXEC step meets the invariant, and its step answers a next state. -/
theorem witness_StepsKeepTheMachineInvariant :
    (running 0x00000003 0x400 base).Inv ∧ (nextOf (step (running 0x00000003 0x400 base))).isSome = true :=
  ⟨⟨by decide, by decide, by decide, by decide, ⟨.decode, by decide, show _ = _ by decide⟩, by decide⟩, by decide⟩

/-- For OnlyTheHostsAccessesStopTheModel: states that meet the invariant and stop in each of the two ways. -/
theorem witness_OnlyTheHostsAccessesStopTheModel :
    let s := { base with host := [⟨0, .memRead 0x1000 1⟩] }
    let r := { base with host := [⟨0, .csrRead .w16 0x08⟩] }
    (s.Inv ∧ step s = .fault .hostOutsideHmem) ∧ r.Inv ∧ step r = .refused .csrAccess :=
  ⟨⟨⟨by decide, by decide, by decide, by decide, trivial, by decide⟩, by rfl⟩,
    ⟨by decide, by decide, by decide, by decide, trivial, by decide⟩, by rfl⟩

/-- `base` before and after the host's one access, a read of `STATUS`. -/
def polling : State := { base with host := [⟨0, .csrRead .w32 0x08⟩] }
def polled : State := { base with hostReads := [.csr 0x08 0], seenIdle := true }

theorem polling_step : step polling = .next polled := by rfl

/-- A run of one step that succeeds; and one that reaches `FAULT = 1`. -/
theorem witness_SuccessfulRunsEndIdleWithNoFault :
    (polling.Inv ∧ polling.SucceedsAt 1 polled) ∧
      (halted base).Inv ∧ (halted base).RunsTo 0 (halted base) ∧ (halted base).fault = true :=
  ⟨⟨⟨by decide, by decide, by decide, by decide, trivial, by decide⟩, ⟨polled, polling_step, rfl⟩, by decide,
      by rw [State.faultOutcome_one polling_step]; decide⟩,
    ⟨by decide, by decide, by decide, by decide, trivial, by decide⟩, rfl, rfl⟩

theorem witness_StepsKeepTheParameters : (nextOf (step (running 0x00000003 0x400 base))).isSome = true := by decide

theorem witness_OnlySresetOrResetEndsTheHalt :
    (let s := offering 0x0000000F (halted base);
      s.fault = true ∧ (nextOf (step s)).map (·.fault) = some false) ∧
      (let s := { flushing (halted base) with host := [⟨0, .reset⟩] };
        s.fault = true ∧ (nextOf (step s)).map (·.fault) = some false) := by decide

theorem witness_TheHaltKeepsTheFirstFault :
    (let s := offering 0x00000000 (halted base);
      s.fault = true ∧ (nextOf (step s)).map (·.fault) = some true) ∧
      (let s := answering failed (flushing (halted base));
        s.fault = true ∧ s.cmdPort = none ∧ s.phase = .waitOut [0x05, 0x00, 0x08, 0x00, 0xA5] ∧
          s.nextAnswer.ok = false) := by decide

theorem witness_FaultsArePreciseAndComeFromOffers :
    (let s := offering 0x00000000 base;
      s.fault = false ∧ (nextOf (step s)).map (·.fault) = some true) ∧
      (let s := writing 0x00000000 0 (flushing base);
        s.fault = false ∧ (nextOf (step s)).map (fun t => (t.fault, t.cause)) = some (true, .cmdWhileBusy)) := by decide

theorem witness_OnlyShiftDataStartsAFlush :
    (nextOf (step (running 0x00080001 0x100 base))).map (·.phase) = some (.waitOut [0x05, 0x00, 0x08, 0x00, 0xA5]) ∧
      ∀ b, (running 0x00080001 0x100 base).phase ≠ .waitOut b :=
  ⟨by decide, fun b h => by cases h⟩

theorem witness_TheCursorMovesOnlyAsListed :
    (nextOf (step (running 0x00050101 0x200 base))).map (·.cur) = some 5 ∧
      (nextOf (step (answering failed (flushing base)))).map (·.cur) = some 0 ∧
      (nextOf (step (offering 0x0000000F (halted base)))).map (·.cur) = some 0 := by decide

/-- The host writes `ADDR` during a flush. -/
theorem witness_ACommandKeepsItsOperands :
    (let s := { flushing base with host := [⟨0, .csrWrite .w32 0x04 0x123⟩] };
      s.busy = true ∧ (nextOf (step s)).map (fun t => (t.addr, t.laddr)) = some (0x123, 0x100)) ∧
      ¬ State.ResetDue { flushing base with host := [⟨0, .csrWrite .w32 0x04 0x123⟩] } :=
  ⟨by decide, fun ⟨_, _, _, h, ho, _⟩ => by cases h; cases ho⟩

theorem witness_TheOutStreamGrowsByTheOutstandingFlush :
    (nextOf (step (answering (ok []) (flushing base)))).map (·.outStream)
        = some [⟨[0x05, 0x00, 0x08, 0x00, 0xA5], true, 5, false⟩] ∧
      (nextOf (step { base with abandoned := [.out [1, 2] true], answers := [⟨false, 1, []⟩] })).map (·.outStream)
        = some [⟨[1, 2], false, 1, true⟩] := by decide

/-- Two states that differ in a byte of `STAGE` past the cursor, as a fresh append overwrites it. -/
theorem witness_StagePastTheCursorIsUnobservable :
    let s := { running 0x00050101 0x200 base with stage := [(3, 0x55)] }
    let t := { running 0x00050101 0x200 base with stage := [(3, 0x66)] }
    s ≠ t ∧ s.AgreesUpToStage t ∧ (nextOf (step s)).isSome = true :=
  ⟨by decide, ⟨rfl, fun i h => absurd h (Nat.not_lt_zero i)⟩, by decide⟩

end Sys2Proof.Tests
end

section
/-! Whose step it is when nothing stands on the `CMD` port (00_scope.md R9, log 5): one equation for each case of
`step`, and the obligation about due host accesses. -/

namespace Sys2Proof.Machine

theorem step_of_host_due {s : State} {a : HostAccess} {rest : List HostAccess} (hp : s.cmdPort = none)
    (hh : s.host = a :: rest) (hd : a.after = 0 ∨ s.deviceReady = false) :
    step s = { s with host := rest }.hostOp a.op := by
  simp only [step, nextStep, hp, hh, if_pos hd]

theorem step_of_host_waiting {s : State} {a : HostAccess} {rest : List HostAccess} (hp : s.cmdPort = none)
    (hh : s.host = a :: rest) (ha : a.after ≠ 0) (hr : s.deviceReady = true) :
    step s = deviceStep { s with host := { a with after := a.after - 1 } :: rest } := by
  have notDue : ¬ (a.after = 0 ∨ s.deviceReady = false) := by simp [ha, hr]
  simp only [step, nextStep, hp, hh, if_neg notDue]

theorem step_of_host_empty {s : State} (hp : s.cmdPort = none) (hh : s.host = []) : step s = deviceStep s := by
  simp only [step, nextStep, hp, hh]

/-- Settles O8: each clause is the equation of `step` for one state of the host's list. -/
theorem dueHostAccessesAreMade : Obligations.DueHostAccessesAreMade :=
  ⟨fun _ _ _ => step_of_host_due, fun _ _ _ => step_of_host_waiting, fun _ => step_of_host_empty⟩

end Sys2Proof.Machine
end

section
/-! The control registers and reset (10_state.md R20 to R30, R39): the fields of `STATUS`, what a host access to a
register does, and the values the reset input leaves. -/

namespace Sys2Proof.Machine

/-- A bit of a placed one-bit field. -/
theorem getLsbD_placedBit (b : Bool) (i j : Nat) :
    (placedBit b i).getLsbD j = (decide (j = i ∧ j < 32) && b) := by
  rw [placedBit, getLsbD_placed, BitVec.getLsbD_ofBool]
  by_cases h : j = i
  · simp [h]
  · simp [h]
    omega

/-- A bit of `STATUS` (R21). -/
theorem State.getLsbD_statusWord (s : State) (i : Nat) :
    s.statusWord.getLsbD i =
      ((decide (i = 0) && s.busy) || (decide (i = 1) && s.fault) || (decide (i = 2) && s.linkErr)
        || (!decide (i < 8) && s.cause.code.getLsbD (i - 8))) := by
  simp only [State.statusWord, BitVec.getLsbD_or, getLsbD_placedBit, getLsbD_placed]
  by_cases hi : i < 16
  · simp [show i < 32 by omega]
  · simp [BitVec.getLsbD_of_ge s.cause.code (i - 8) (by omega), show i ≠ 0 by omega, show i ≠ 1 by omega,
      show i ≠ 2 by omega]

/-- Settles O33: each field of `STATUS` is read off its bits, one by one. -/
theorem statusHasItsFields : Obligations.StatusHasItsFields := by
  intro s
  refine ⟨?busy, ?fault, ?linkErr, ?low, ?cause, ?high⟩
  case busy =>
    rw [State.getLsbD_statusWord]
    simpa using State.busy_eq_true (s := s)
  case fault =>
    rw [State.getLsbD_statusWord]
    simp
  case linkErr =>
    rw [State.getLsbD_statusWord]
    simp
  case low =>
    apply BitVec.eq_of_getLsbD_eq
    intro i hi
    simp [State.getLsbD_statusWord, hi, show 3 + i ≠ 1 by omega, show 3 + i ≠ 2 by omega, show 3 + i < 8 by omega]
  case cause =>
    change s.statusWord.extractLsb' 8 8 = s.cause.code
    apply BitVec.eq_of_getLsbD_eq
    intro i hi
    rw [BitVec.getLsbD_extractLsb', State.getLsbD_statusWord, Nat.add_sub_cancel_left]
    simp [hi, show 8 + i ≠ 1 by omega, show 8 + i ≠ 2 by omega]
  case high =>
    apply BitVec.eq_of_getLsbD_eq
    intro i hi
    rw [BitVec.getLsbD_extractLsb', State.getLsbD_statusWord, BitVec.getLsbD_of_ge _ _ (by omega)]
    simp [show 16 + i ≠ 1 by omega, show 16 + i ≠ 2 by omega]

/-- An aligned 32-bit access is one the model gives a meaning (R30). -/
theorem csrAccessOk_iff {width : AccessWidth} {o : Byte} :
    csrAccessOk width o = true ↔ width = .w32 ∧ o.toNat % 4 = 0 := by
  simp [csrAccessOk]

theorem State.hostOp_csrRead {s : State} {o : Byte} (h : o.toNat % 4 = 0) :
    s.hostOp (.csrRead .w32 o) = .next (s.csrRead o) := by
  rw [State.hostOp, if_pos (csrAccessOk_iff.2 ⟨rfl, h⟩)]

theorem State.hostOp_csrWrite {s : State} {o : Byte} {v : Word} (h : o.toNat % 4 = 0) :
    s.hostOp (.csrWrite .w32 o v) = s.csrWrite o v := by
  rw [State.hostOp, if_pos (csrAccessOk_iff.2 ⟨rfl, h⟩)]

/-- The registers whose value is free while `BUSY = 1` (R24 to R26). -/
theorem freeWhileBusy_iff {o : Byte} : freeWhileBusy o = true ↔ o = 0x0C ∨ o = 0x10 ∨ o = 0x14 := by
  simp [freeWhileBusy, or_assoc]

/-- `CONFIG` of each format (R29). -/
theorem Params.configWord_eq (p : Params) :
    p.configWord = if p.hdrFmt = .h4 then 0x10000040 else 0x10000081 := by
  cases h : p.hdrFmt <;> simp only [Params.configWord, h] <;> decide

/-- `CURSOR` is the cursor, zero-extended (R24). -/
theorem State.cursorWord_eq (s : State) : s.cursorWord = s.cur.setWidth 32 := BitVec.shiftLeft_zero _

/-- What a read returns whose value is not free (R20 to R30). -/
theorem State.csrValue_fixed {s : State} {o : Byte} (h : (s.busy && freeWhileBusy o) = false) :
    s.csrValue o =
      if o = 0x04 then s.addr else if o = 0x08 then s.statusWord
      else if o = 0x0C then s.cur.setWidth 32 else if o = 0x10 then s.decHdr
      else if o = 0x14 then s.decInfo else if o = 0x18 then s.faultCmd
      else if o = 0x1C then s.faultAddr
      else if o = 0x20 then (if s.cfg.hdrFmt = .h4 then 0x10000040 else 0x10000081) else 0 := by
  rw [State.csrValue, h, State.cursorWord_eq, Params.configWord_eq]
  rfl

/-- Settles O34: the read is `State.csrRead`, which writes the host's record and the note of R52 only. -/
theorem registerReadsReturnTheRegister : Obligations.RegisterReadsReturnTheRegister := by
  intro s o ho hbusy
  have fixed : (s.busy && freeWhileBusy o) = false := by
    cases hf : freeWhileBusy o with
    | false => simp
    | true => simp [hbusy (freeWhileBusy_iff.1 hf)]
  refine ⟨s.csrRead o, s.csrValue o, State.hostOp_csrRead ho, rfl, State.csrValue_fixed fixed, ?_, ?_⟩
  · rw [State.csrRead, fixed]
    rfl
  · rw [State.csrRead_seenIdle]
    by_cases h8 : o = 0x08
    · cases s.busy <;> simp [h8]
    · rw [if_neg fun h => h8 h.1, beq_false_of_ne h8, Bool.false_and, Bool.or_false]

/-- Settles O35: such a read is no read of `STATUS`, so it closes no interval and notes nothing. -/
theorem busyReadsChangeNoRegister : Obligations.BusyReadsChangeNoRegister := by
  intro s o ho hb
  have aligned : o.toNat % 4 = 0 := by rcases ho with rfl | rfl | rfl <;> rfl
  refine ⟨s.csrRead o, s.csrValue o, State.hostOp_csrRead aligned, ?_⟩
  simp [State.csrRead, hb]

/-- Settles O36: of the aligned offsets only those of `CMD` and `ADDR` take a write. -/
theorem registerWritesWriteOnlyAddr : Obligations.RegisterWritesWriteOnlyAddr := by
  intro s o v ho hcmd
  rw [State.hostOp_csrWrite ho, State.csrWrite, if_neg hcmd]
  split_ifs <;> rfl

/-- Settles O37: such an access fails the check of R30 (b). -/
theorem oddRegisterAccessesAreRefused : Obligations.OddRegisterAccessesAreRefused := by
  intro s width o v h
  have bad : ¬ csrAccessOk width o = true := by
    rw [csrAccessOk_iff, not_and_or]
    exact h
  exact ⟨if_neg bad, if_neg bad⟩

/-- `STATUS` is 0 while the FES is idle with no fault recorded and no link error noted (R21). -/
theorem State.statusWord_eq_zero {s : State} (hp : s.phase = .idle) (hf : s.fault = false)
    (hl : s.linkErr = false) (hc : s.cause = .none) : s.statusWord = 0 := by
  rw [State.statusWord, State.busy_eq_false.2 hp, hf, hl, hc]
  decide

/-- Settles O43: every register is a field that `State.hardReset` writes, and the transaction it cuts off is the one
that `PHASE` holds. -/
theorem resetLeavesTheStatedValues : Obligations.ResetLeavesTheStatedValues := by
  have cut : ∀ (s : State) (x : LinkTxn), s.outstanding = [x] → s.hardReset.abandoned = s.abandoned ++ [x] :=
    fun s x h => by rw [State.hardReset_abandoned, h]
  refine ⟨fun s => ⟨s.hardReset, rfl, rfl, State.statusWord_eq_zero rfl rfl rfl rfl, rfl, ?_, rfl, rfl, rfl, rfl,
    rfl, rfl, rfl, rfl, rfl, rfl, rfl, fun bytes hp => cut s _ ?_, fun k hp => cut s _ ?_⟩,
    rfl, State.statusWord_eq_zero rfl rfl rfl rfl, rfl, rfl, rfl, rfl, rfl, rfl, rfl, rfl,
    Params.configWord_eq Params.reset⟩
  · rw [State.cursorWord_eq]
    rfl
  · rw [State.outstanding, hp]
  · rw [State.outstanding, hp]

end Sys2Proof.Machine
end

section
/-! Every way the device can move (R98, R99, R123), one constructor for each; that no step changes a parameter; how
the cursor and the latches move. -/

namespace Sys2Proof.Machine

/-- The moves of the FES and the link from `s`: none, a discarded answer, an APPEND's EXEC step that flushes or
completes, an answered flush, READ.RESP's EXEC step and its answer, DECODE's EXEC step. `d` is the count of free values
after the read of host memory that the EXEC step makes. -/
inductive DeviceMove (s : State) : State → Prop where
  | stay : DeviceMove s s
  | discard (x : LinkTxn) (rest : List LinkTxn) : DeviceMove s (State.discardAnswer x { s with abandoned := rest })
  | flush (n : Half) (d : Nat) (f : List Byte) (exec : s.phase = .exec)
      (latched : decodeCommand s.lcmd = .ok (.appendSd n)) (len : f.length = s.cfg.hdrFmt.frameLen n)
      (fits : s.frameFits f = true) : DeviceMove s (({ s with draws := d } : State).stageFrame f).issueOut
  | stage (d : Nat) (f : List Byte) (exec : s.phase = .exec) (fits : s.frameFits f = true) :
      DeviceMove s (({ s with draws := d } : State).stageFrame f).complete
  | answerOut (b : List Byte) : DeviceMove s (s.answerOut b)
  | readNone (exec : s.phase = .exec) : DeviceMove s s.complete
  | readIssue (k : Half) (exec : s.phase = .exec) (latched : decodeCommand s.lcmd = .ok (.readResp k)) :
      DeviceMove s (s.issueIn k.toNat)
  | answerIn (m : Nat) (inRange : s.cfg.inRange s.laddr m = true) : DeviceMove s (s.answerIn m)
  | decoded (d : Nat) (h : Header) : DeviceMove s (({ s with draws := d } : State).setDecoded h).complete

/-- The EXEC step of an APPEND is one of its two moves (R78, R80). -/
theorem State.appendExec_move {op : Byte} {n : Half} {s t : State} (hph : s.phase = .exec)
    (hsd : op = opSd → decodeCommand s.lcmd = .ok (.appendSd n)) (h : s.appendExec op n = .next t) :
    DeviceMove s t := by
  obtain ⟨-, h⟩ := State.appendExec_next h
  have hlen := s.fetch_length s.laddr.toNat (ceil8 n.toNat)
  rw [s.fetch_state] at h
  obtain ⟨hfit, ⟨ho, rfl⟩ | ⟨-, rfl⟩⟩ := State.stageAndMaybeFlush_next h
  · exact .flush n _ _ hph (hsd ho) (Params.encodeFrame_length hlen) hfit
  · exact .stage _ _ hph hfit

/-- Every device step is one of the moves. -/
theorem deviceStep_move {s t : State} (hp : s.cmdPort = none) (h : deviceStep s = .next t) : DeviceMove s t := by
  rcases deviceStep_next h with ⟨-, -, rfl⟩ | ⟨x, rest, -, rfl⟩ | ⟨i, -, -, hd, he⟩
  · exact .stay
  · exact .discard x rest
  · rcases exec_latched hd hp he with rfl | ⟨n, rfl, hph, h⟩ | ⟨n, b, -, -, rfl⟩ | ⟨n, -, hph, h⟩ |
      ⟨-, hph, h⟩ | ⟨k, rfl, hph, rfl⟩ | ⟨k, m, -, -, h⟩ | ⟨-, -, h⟩
    · exact .stay
    · exact State.appendExec_move hph (fun _ => hd) h
    · exact .answerOut b
    · exact State.appendExec_move hph (fun ho => absurd ho (by decide)) h
    · exact State.appendExec_move hph (fun ho => absurd ho (by decide)) h
    · unfold State.readRespExec
      split_ifs
      · exact .readNone hph
      · exact .readIssue k hph hd
    · obtain ⟨hr, rfl⟩ := State.readRespAnswer_next h
      exact .answerIn m hr
    · obtain ⟨-, rfl⟩ := State.decodeExec_next h
      rw [s.fetch_state]
      exact .decoded _ _

/-! ## The parameters -/

theorem DeviceMove.cfg_eq {s t : State} (h : DeviceMove s t) : t.cfg = s.cfg := by
  cases h with
  | discard x rest => cases x <;> rfl
  | _ => rfl

theorem offerWord_cfg {w : Word} {s t : State} (h : offerWord w s = .next t) : t.cfg = s.cfg := by
  rcases offerWord_cases h with ⟨rfl, -⟩ | ⟨rfl, -⟩ | ⟨c, -, -, rfl⟩ | ⟨-, -, rfl, -⟩ <;> rfl

/-- Settles O45: none of the four kinds of step writes the parameters. -/
theorem stepsKeepTheParameters : Obligations.StepsKeepTheParameters := by
  intro s t h
  rcases step_effect h with ⟨w, u, -, hw, hu⟩ | ⟨-, r, rfl⟩ | ⟨ht, -⟩ | ⟨r, hp, hd⟩
  · rw [offerWord_cfg hw, hu]
  · rfl
  · rw [ht]
  · exact (deviceStep_move (s := { s with host := r }) hp hd).cfg_eq

/-! ## The cursor and the latches -/

/-- Settles O54: an offered word moves the cursor only as SRESET, a host access moves it only as the reset input, and
a device step as `DeviceEffect.cur` says. -/
theorem theCursorMovesOnlyAsListed : Obligations.TheCursorMovesOnlyAsListed := by
  intro s t h
  rcases step_effect h with ⟨w, u, hdue, hw, hu⟩ | ⟨hdue, r, rfl⟩ | ⟨ht, -⟩ | ⟨r, hp, hd⟩
  · rw [hu] at hw
    rcases offerWord_cases hw with ⟨rfl, hb, rfl⟩ | ⟨rfl, -⟩ | ⟨c, -, -, rfl⟩ | ⟨-, -, rfl, -⟩
    · exact .inr (.inl ⟨rfl, .inr (.inl ⟨hb, hdue⟩)⟩)
    all_goals exact .inl rfl
  · exact .inr (.inl ⟨rfl, .inr (.inr hdue)⟩)
  · rw [ht]
    exact .inl rfl
  · rcases (deviceStep_effect (s := { s with host := r }) hp hd).cur with hc | ⟨hc, hflush⟩ | hgrow
    · exact .inl hc
    · exact .inr (.inl ⟨hc, .inl hflush⟩)
    · exact .inr (.inr hgrow)

/-- Settles O55: while `BUSY = 1` no offered word is latched or runs as SRESET, and nothing else writes the latches. -/
theorem aCommandKeepsItsOperands : Obligations.ACommandKeepsItsOperands := by
  intro s t hbusy h hreset
  rcases step_effect h with ⟨w, u, -, hw, hu⟩ | ⟨hdue, -⟩ | ⟨ht, -⟩ | ⟨r, hp, hd⟩
  · rw [hu] at hw
    have notIdle : ¬ s.busy = false := by simp [hbusy]
    rcases offerWord_cases hw with ⟨-, hidle, -⟩ | ⟨rfl, -⟩ | ⟨c, -, -, rfl⟩ | ⟨-, hidle, -⟩
    · exact absurd hidle notIdle
    · exact ⟨rfl, rfl⟩
    · exact ⟨rfl, rfl⟩
    · exact absurd hidle notIdle
  · exact absurd hdue hreset
  · rw [ht]
    exact ⟨rfl, rfl⟩
  · have effect := deviceStep_effect (s := { s with host := r }) hp hd
    exact ⟨effect.lcmd, effect.laddr⟩

end Sys2Proof.Machine
end

section
/-! The machine invariant (10_state.md R21, R26 to R28, R32, R37; 20_memory.md R41; 42_control.md R96): reset meets it,
and every kind of step keeps it. -/

namespace Sys2Proof.Machine

/-! ## The parts of the invariant -/

theorem State.latchOk_of_idle {s : State} (h : s.phase = .idle) : s.LatchOk := by
  rw [State.LatchOk, h]
  trivial

theorem State.latchOk_waitOut {s : State} {bytes : List Byte} (h : s.phase = .waitOut bytes) :
    s.LatchOk ↔ bytes = s.stageBytes s.cur.toNat ∧
      ∃ n : Half, decodeCommand s.lcmd = .ok (.appendSd n) ∧ ceil8 n.toNat ≤ s.cur.toNat := by
  rw [State.LatchOk, h]

theorem State.latchOk_exec {s : State} (h : s.phase = .exec) :
    s.LatchOk ↔ ∃ i, decodeCommand s.lcmd = .ok i ∧ s.LatchFits i := by
  rw [State.LatchOk, h]

theorem State.latchOk_waitIn {s : State} {m : Nat} (h : s.phase = .waitIn m) :
    s.LatchOk ↔ ∃ k : Half, decodeCommand s.lcmd = .ok (.readResp k) ∧ m = k.toNat ∧
      s.cfg.inRange s.laddr k.toNat = true := by
  rw [State.LatchOk, h]

/-- The `COUNT` of a latched APPEND.SD is the one its payload length is computed from (R73). -/
theorem State.latchedLen_eq {s : State} {n : Half} (h : decodeCommand s.lcmd = .ok (.appendSd n)) :
    s.latchedLen = ceil8 n.toNat := by
  rcases decodeCommand_cases h with ⟨e, -⟩ | ⟨e, -⟩ | ⟨e, -⟩ | ⟨e, -⟩ | ⟨e, -⟩ | ⟨e, -⟩ <;> cases e
  rfl

/-- The reserved bits of `DEC_INFO` are 0 for every header (R26). -/
theorem decInfoWord_reserved (p : Params) (h : Header) :
    (decInfoWord p h).extractLsb' 21 11 = 0 ∧ (decInfoWord p h).extractLsb' 14 2 = 0 := by
  have len_bits : ∀ i, 14 ≤ i → (BitVec.ofNat 14 (ceil8 h.bitCount.toNat)).getLsbD i = false := fun i =>
    BitVec.getLsbD_of_ge _ i
  constructor <;> apply BitVec.eq_of_getLsbD_eq <;> intro i hi <;>
    simp only [decInfoWord, BitVec.getLsbD_extractLsb', BitVec.getLsbD_or, getLsbD_placedBit, getLsbD_placed]
  · rw [len_bits _ (by omega)]
    simp [show 21 + i ≠ 16 by omega, show 21 + i ≠ 17 by omega, show 21 + i ≠ 18 by omega,
      show 21 + i ≠ 19 by omega, show 21 + i ≠ 20 by omega]
  · rw [len_bits _ (by omega)]
    simp [show 14 + i ≠ 16 by omega, show 14 + i ≠ 17 by omega, show 14 + i ≠ 18 by omega,
      show 14 + i ≠ 19 by omega, show 14 + i ≠ 20 by omega]

theorem Params.inRange_iff {p : Params} {a : Word} {n : Nat} :
    p.inRange a n = true ↔ n = 0 ∨ a.toNat + n ≤ p.hmemSize := by
  simp [Params.inRange]

/-- A write in range keeps host memory canonical and inside `HMEM_SIZE` (R41, R42). -/
theorem State.HmemOk.write {s : State} {a : Word} {bs : List Byte} (h : s.HmemOk)
    (hr : s.cfg.inRange a bs.length = true) :
    (s.hmem.write a.toNat bs).wf = true ∧ ∀ c ∈ s.hmem.write a.toNat bs, c.1 < s.cfg.hmemSize := by
  obtain ⟨hwf, hin⟩ := h
  refine ⟨Memory.write_wf _ _ hwf, fun c hc => ?_⟩
  rcases Memory.mem_write hc with hc | hc
  · exact hin c hc
  · rcases Params.inRange_iff.1 hr with h0 | h0 <;> omega

/-! ## The staged bytes -/

/-- A byte of `STAGE` where only `STAGE` has been written, with `p` from index `k` on. -/
theorem State.stageByte_put {s t : State} {k : Nat} {p : List Byte} (hs : t.stage = s.stage.put k p)
    (he : t.stageEpoch = s.stageEpoch) (i : Nat) :
    t.stageByte i = if k ≤ i ∧ i < k + p.length then p.getD (i - k) 0 else s.stageByte i := by
  unfold State.stageByte
  rw [hs, he, Memory.cell?_put]
  split_ifs with h
  · rw [List.getElem?_eq_getElem (by omega), List.getD_eq_getElem _ _ (by omega)]
    rfl
  · rfl

/-- `STAGE[0..n)` where `p` has been written from index `k` up to `n`. -/
theorem State.stageBytes_put {s t : State} {k n : Nat} {p : List Byte} (hs : t.stage = s.stage.put k p)
    (he : t.stageEpoch = s.stageEpoch) (hn : n = k + p.length) : t.stageBytes n = s.stageBytes k ++ p := by
  subst hn
  rw [State.stageBytes, State.stageBytes, List.range_add, List.map_append, List.map_map]
  congr 1
  · refine List.map_congr_left fun i hi => ?_
    rw [State.stageByte_put hs he, if_neg (by have := List.mem_range.1 hi; omega)]
  · refine List.ext_getElem (by simp) fun i hi _ => ?_
    have hi' : i < p.length := by simpa using hi
    simp [State.stageByte_put hs he, hi']

theorem State.take_stageBytes {s : State} {k n : Nat} (h : k ≤ n) : (s.stageBytes n).take k = s.stageBytes k := by
  rw [State.stageBytes, ← List.map_take, List.take_range, Nat.min_eq_left h]
  rfl

@[simp] theorem State.stageBytes_length (s : State) (n : Nat) : (s.stageBytes n).length = n := by
  simp [State.stageBytes]

/-- A host memory write keeps what holds of the command in progress: a flush that it lands on is still `STAGE[0..CUR)`,
for the late payload bytes are written to `STAGE` too (R43). -/
theorem State.raceFlush_latchOk {a : Nat} {bs kept : List Byte} {s : State} (h : s.LatchOk) :
    (s.raceFlush a bs kept).LatchOk := by
  cases hp : s.phase with
  | waitOut out =>
    obtain ⟨rfl, n, hd, hn⟩ := (State.latchOk_waitOut hp).1 h
    rw [State.raceFlush, hp]
    dsimp only
    split_ifs
    · rw [State.stageBytes_length, State.latchedLen_eq hd]
      generalize hlate : s.lateBytes a bs kept _ = late
      have hlen : late.length = ceil8 n.toNat := by
        rw [← hlate]
        simp
        omega
      have hcur : s.cur.toNat = s.cur.toNat - ceil8 n.toNat + late.length := by omega
      rw [State.take_stageBytes (by omega)]
      exact (State.latchOk_waitOut rfl).2 ⟨Eq.symm (State.stageBytes_put rfl rfl hcur), n, hd, hn⟩
    · exact h
  | idle => rwa [State.raceFlush_quiet fun out ho => by simp [hp] at ho]
  | exec => rwa [State.raceFlush_quiet fun out ho => by simp [hp] at ho]
  | waitIn m => rwa [State.raceFlush_quiet fun out ho => by simp [hp] at ho]

/-! ## The steps -/

/-- A command in progress is one whose end the host has not seen. -/
theorem State.SeenIdleOk.not_seen {s : State} (h : s.SeenIdleOk) (hb : s.phase ≠ .idle) : s.seenIdle ≠ true :=
  fun hs => hb (State.busy_eq_false.1 (h hs))

theorem State.Inv.clearPort {s : State} (h : s.Inv) : s.clearPort.Inv := h

theorem State.Inv.softReset {s : State} (h : s.Inv) : s.softReset.Inv := by
  obtain ⟨-, -, -, hmem, -, -⟩ := h
  exact ⟨Nat.zero_le _, ⟨fun _ => ⟨rfl, rfl, rfl⟩, nofun⟩, ⟨by simp, by simp⟩, hmem, State.latchOk_of_idle rfl,
    fun _ => rfl⟩

/-- Beside the values of an SRESET, the reset input writes only what the invariant does not read. -/
theorem State.Inv.hardReset {s : State} (h : s.Inv) : s.hardReset.Inv := h.softReset

theorem State.Inv.raise {s : State} {c : Cause} {w : Word} (h : s.Inv) (hc : c ≠ .none) : (s.raise c w).Inv := by
  obtain ⟨hcur, -, hdec, hmem, hlatch, hseen⟩ := h
  exact ⟨hcur, ⟨nofun, fun _ => hc⟩, hdec, hmem, hlatch, hseen⟩

theorem State.Inv.accept {s : State} {w : Word} (h : s.Inv) (hl : (s.accept w).LatchOk) : (s.accept w).Inv := by
  obtain ⟨hcur, hfault, hdec, hmem, -, -⟩ := h
  exact ⟨hcur, hfault, hdec, hmem, hl, nofun⟩

/-- An offered word keeps the invariant (R96, R97, R101, R108). -/
theorem State.Inv.offerWord {w : Word} {s t : State} (hs : s.Inv) (h : offerWord w s = .next t) : t.Inv := by
  rcases offerWord_cases h with ⟨rfl, -⟩ | ⟨rfl, -⟩ | ⟨c, hc, -, rfl⟩ | ⟨-, -, rfl, hl⟩
  · exact hs.clearPort.softReset
  · exact hs.clearPort
  · exact hs.clearPort.raise hc
  · exact hs.clearPort.accept hl

/-- A register read keeps the invariant: the note of R52 is taken while nothing is in progress. -/
theorem State.Inv.csrRead {s : State} (o : Byte) (h : s.Inv) : (s.csrRead o).Inv := by
  obtain ⟨hcur, hfault, hdec, hmem, hlatch, hseen⟩ := h
  refine ⟨hcur, hfault, hdec, hmem, hlatch, fun hs => ?_⟩
  rw [State.csrRead_seenIdle] at hs
  split_ifs at hs with ho
  · exact ho.2
  · exact hseen hs

/-- A host memory write completes no command and starts none. -/
theorem State.busy_hostMemWrite (a : Word) (bs : List Byte) (s : State) : (s.hostMemWrite a bs).busy = s.busy := by
  rw [State.busy, State.busy, State.hostMemWrite_state]
  rcases State.raceFlush_phase a.toNat bs (s.keptBytes a.toNat bs) (s.noteWritten a.toNat bs) with
    h | ⟨b, b', h, h'⟩
  · simp [h]
  · rw [State.noteWritten_phase] at h
    rw [h, h']
    rfl

/-- A host memory write keeps the invariant (R41, R43). -/
theorem State.Inv.hostMemWrite {s : State} {a : Word} {bs : List Byte} (h : s.Inv)
    (hr : s.cfg.inRange a bs.length = true) : (s.hostMemWrite a bs).Inv := by
  obtain ⟨hcur, hfault, hdec, hmem, hlatch, hseen⟩ := h
  have noted : (s.noteWritten a.toNat bs).LatchOk := by
    rw [State.noteWritten_state]
    exact hlatch
  have raced : (s.hostMemWrite a bs).LatchOk := State.raceFlush_latchOk noted
  have seen : (s.hostMemWrite a bs).seenIdle = s.seenIdle := by rw [State.hostMemWrite_state]
  refine ⟨?_, ?_, ?_, ?_, raced, fun hs => ?_⟩
  · rw [State.hostMemWrite_state]
    exact hcur
  · rw [State.hostMemWrite_state]
    exact hfault
  · rw [State.hostMemWrite_state]
    exact hdec
  · rw [State.hostMemWrite_state]
    exact State.HmemOk.write hmem (by rwa [State.keptBytes_length])
  · rw [State.busy_hostMemWrite]
    exact hseen (seen ▸ hs)

/-- A host access keeps the invariant. -/
theorem State.Inv.hostOp {op : HostOp} {s t : State} (hs : s.Inv) (h : s.hostOp op = .next t) : t.Inv := by
  rcases State.hostOp_next h with ⟨o, -, -, rfl⟩ | ⟨v, -, h⟩ | ⟨v, -, rfl⟩ | ⟨o, v, -, -, -, rfl⟩ |
    ⟨a, n, -, -, rfl⟩ | ⟨a, bs, -, hr, rfl⟩ | ⟨-, rfl⟩ | ⟨b, -, rfl⟩
  · exact hs.csrRead o
  · exact hs.offerWord h
  · exact hs
  · exact hs
  · exact hs
  · exact hs.hostMemWrite hr
  · exact hs.hardReset
  · exact hs

/-- The cursor of a frame that has been staged is in range (R79). -/
theorem State.CursorOk.stageFrame {s : State} {f : List Byte} (h : s.frameFits f = true) :
    (s.stageFrame f).CursorOk := by
  rw [State.CursorOk, State.stageFrame_cur_toNat h]
  exact of_decide_eq_true h

/-- A device move keeps the invariant (R78, R80 to R82, R88, R92, R123). -/
theorem State.Inv.deviceMove {s t : State} (hs : s.Inv) (h : DeviceMove s t) : t.Inv := by
  obtain ⟨hcur, hfault, hdec, hmem, hlatch, hseen⟩ := id hs
  have unseen : s.phase = .exec → s.seenIdle ≠ true := fun exec => State.SeenIdleOk.not_seen hseen (by simp [exec])
  cases h with
  | stay => exact hs
  | discard x rest => cases x <;> exact hs
  | flush n d f exec latched len fits =>
    refine ⟨State.CursorOk.stageFrame fits, hfault, hdec, hmem, ?_, fun h => absurd h (unseen exec)⟩
    refine (State.latchOk_waitOut rfl).2 ⟨rfl, n, latched, ?_⟩
    have grown := State.stageFrame_cur_toNat fits
    rw [len, HdrFmt.frameLen] at grown
    exact le_of_le_of_eq (by omega) grown.symm
  | stage d f exec fits =>
    exact ⟨State.CursorOk.stageFrame fits, hfault, hdec, hmem, State.latchOk_of_idle rfl, fun _ => rfl⟩
  | answerOut b => exact ⟨Nat.zero_le _, hfault, hdec, hmem, State.latchOk_of_idle rfl, fun _ => rfl⟩
  | readNone exec => exact ⟨hcur, hfault, hdec, hmem, State.latchOk_of_idle rfl, fun _ => rfl⟩
  | readIssue k exec latched =>
    refine ⟨hcur, hfault, hdec, hmem, ?_, fun h => absurd h (unseen exec)⟩
    obtain ⟨i, hi, fits⟩ := (State.latchOk_exec exec).1 hlatch
    obtain rfl : Instr.readResp k = i := by simpa [latched] using hi
    exact (State.latchOk_waitIn rfl).2 ⟨k, latched, rfl, fits⟩
  | answerIn m inRange =>
    exact ⟨hcur, hfault, hdec, State.HmemOk.write hmem (by simpa using inRange), State.latchOk_of_idle rfl,
      fun _ => rfl⟩
  | decoded d h =>
    exact ⟨hcur, hfault, decInfoWord_reserved s.cfg h, hmem, State.latchOk_of_idle rfl, fun _ => rfl⟩

/-- Settles O46: by whose step it is; the host's list of accesses is no part of the invariant. -/
theorem stepsKeepTheMachineInvariant : Obligations.StepsKeepTheMachineInvariant := by
  intro s t hs h
  rcases step_cases h with ⟨w, -, h⟩ | ⟨a, rest, -, -, -, h⟩ | ⟨rest, hp, h⟩
  · exact hs.offerWord h
  · exact State.Inv.hostOp (s := { s with host := rest }) hs h
  · exact State.Inv.deviceMove (s := { s with host := rest }) hs (deviceStep_move hp h)

/-- Settles O47: each part is a fact about the one state `State.reset`. -/
theorem resetMeetsTheMachineInvariant : Obligations.ResetMeetsTheMachineInvariant :=
  ⟨by decide, by decide, by decide, by decide, trivial, by decide⟩

end Sys2Proof.Machine
end

section
/-! The bytes of `STAGE` at and past the cursor (10_state.md R31): two states that agree on everything else step alike.
Every operation of the step keeps the agreement; most neither read nor write `STAGE`, and those that do touch the
bytes below the cursor alone. -/

namespace Sys2Proof.Machine

/-- The state with other bytes of `STAGE`. -/
def State.restage (m : Memory) (e : Nat) (s : State) : State := { s with stage := m, stageEpoch := e }

theorem State.AgreesUpToStage.eq_restage {s t : State} (h : s.AgreesUpToStage t) :
    t = s.restage t.stage t.stageEpoch := h.1

/-- What does not read `STAGE` reads the same. -/
theorem State.AgreesUpToStage.read {α : Type} {s t : State} (h : s.AgreesUpToStage t) (f : State → α)
    (hf : ∀ u m e, f (State.restage m e u) = f u) : f t = f s := by
  rw [h.eq_restage, hf]

/-- An operation that neither reads nor writes `STAGE`, and does not raise the cursor, keeps the agreement. -/
theorem State.AgreesUpToStage.map {s t : State} (h : s.AgreesUpToStage t) (F : State → State)
    (hF : ∀ u m e, F (State.restage m e u) = (F u).restage m e) (hcur : (F s).cur.toNat ≤ s.cur.toNat) :
    (F s).AgreesUpToStage (F t) := by
  have kept : F s = (F s).restage s.stage s.stageEpoch := hF s s.stage s.stageEpoch
  have moved : F t = (F s).restage t.stage t.stageEpoch := by rw [← hF, ← h.eq_restage]
  refine ⟨by rw [moved]; rfl, fun i hi => ?_⟩
  rw [moved, kept]
  exact h.2 i (lt_of_lt_of_le hi hcur)

/-- Two outcomes that are alike but for the bytes of `STAGE` at and past the cursor. -/
def OutcomesAgree : Host.Outcome State Fault Refusal → Host.Outcome State Fault Refusal → Prop
  | .next s, .next t => s.AgreesUpToStage t
  | .fault f, .fault g => f = g
  | .refused q, .refused r => q = r
  | _, _ => False

theorem OutcomesAgree.of_next {s : State} {o : Host.Outcome State Fault Refusal} (h : OutcomesAgree (.next s) o) :
    ∃ t, o = .next t ∧ s.AgreesUpToStage t := by
  cases o with
  | next t => exact ⟨t, rfl, h⟩
  | fault | refused => exact h.elim

theorem OutcomesAgree.of_fault {f : Fault} {o : Host.Outcome State Fault Refusal} (h : OutcomesAgree (.fault f) o) :
    o = .fault f := by
  cases o with
  | fault g => rw [show f = g from h]
  | next | refused => exact h.elim

theorem OutcomesAgree.of_refused {r : Refusal} {o : Host.Outcome State Fault Refusal}
    (h : OutcomesAgree (.refused r) o) : o = .refused r := by
  cases o with
  | refused q => rw [show r = q from h]
  | next | fault => exact h.elim

theorem step_of_cmdPort {s : State} {w : Word} (hp : s.cmdPort = some w) : step s = offerWord w s := by
  simp only [step, nextStep, hp]

/-! ## Acceptance -/

namespace State.AgreesUpToStage

variable {s t : State}

theorem busy_eq (h : s.AgreesUpToStage t) : t.busy = s.busy := h.read State.busy fun _ _ _ => rfl
theorem fault_eq (h : s.AgreesUpToStage t) : t.fault = s.fault := h.read State.fault fun _ _ _ => rfl
theorem phase_eq (h : s.AgreesUpToStage t) : t.phase = s.phase := h.read State.phase fun _ _ _ => rfl
theorem cfg_eq (h : s.AgreesUpToStage t) : t.cfg = s.cfg := h.read State.cfg fun _ _ _ => rfl
theorem cur_eq (h : s.AgreesUpToStage t) : t.cur = s.cur := h.read State.cur fun _ _ _ => rfl
theorem lcmd_eq (h : s.AgreesUpToStage t) : t.lcmd = s.lcmd := h.read State.lcmd fun _ _ _ => rfl
theorem laddr_eq (h : s.AgreesUpToStage t) : t.laddr = s.laddr := h.read State.laddr fun _ _ _ => rfl
theorem cmdPort_eq (h : s.AgreesUpToStage t) : t.cmdPort = s.cmdPort := h.read State.cmdPort fun _ _ _ => rfl
theorem host_eq (h : s.AgreesUpToStage t) : t.host = s.host := h.read State.host fun _ _ _ => rfl
theorem abandoned_eq (h : s.AgreesUpToStage t) : t.abandoned = s.abandoned := h.read State.abandoned fun _ _ _ => rfl

theorem clearPort (h : s.AgreesUpToStage t) : s.clearPort.AgreesUpToStage t.clearPort :=
  h.map State.clearPort (fun _ _ _ => rfl) le_rfl

theorem softReset (h : s.AgreesUpToStage t) : s.softReset.AgreesUpToStage t.softReset :=
  h.map State.softReset (fun _ _ _ => rfl) (Nat.zero_le _)

theorem raise (c : Cause) (w : Word) (h : s.AgreesUpToStage t) : (s.raise c w).AgreesUpToStage (t.raise c w) :=
  h.map (State.raise c w) (fun _ _ _ => rfl) le_rfl

theorem accept (w : Word) (h : s.AgreesUpToStage t) : (s.accept w).AgreesUpToStage (t.accept w) :=
  h.map (State.accept w) (fun _ _ _ => rfl) le_rfl

theorem complete (h : s.AgreesUpToStage t) : s.complete.AgreesUpToStage t.complete :=
  h.map State.complete (fun _ _ _ => rfl) le_rfl

/-- An offered word, where what runs when the FES is open keeps the agreement (R96, R97). -/
theorem offer {run : State → State} (w : Word)
    (hrun : ∀ {u v : State}, u.AgreesUpToStage v → (run u).AgreesUpToStage (run v)) (h : s.AgreesUpToStage t) :
    (s.offer w run).AgreesUpToStage (t.offer w run) := by
  unfold State.offer
  rw [h.fault_eq, h.busy_eq]
  split_ifs
  · exact h.clearPort.softReset
  · exact h.clearPort
  · exact h.clearPort.raise _ _
  · exact hrun h.clearPort

/-- An offered command whose check does not read `STAGE`. -/
theorem offerChecked {check : State → Option Cause} (w : Word)
    (hcheck : ∀ u m e, check (State.restage m e u) = check u) (h : s.AgreesUpToStage t) :
    OutcomesAgree (.next (s.offerChecked w check)) (.next (t.offerChecked w check)) := by
  refine h.offer w fun {u v} huv => ?_
  rw [huv.read check hcheck]
  cases check u with
  | some c => exact huv.raise c w
  | none => exact huv.accept w

/-! ## Staging, flushing and the commands' steps -/

theorem stageBytes_eq (h : s.AgreesUpToStage t) : t.stageBytes t.cur.toNat = s.stageBytes s.cur.toNat := by
  rw [h.cur_eq]
  exact List.map_congr_left fun i hi => h.2 i (List.mem_range.1 hi)

/-- The stage write covers the bytes between the old cursor and the new one (R78). -/
theorem stageFrame {f : List Byte} (fits : s.frameFits f = true) (h : s.AgreesUpToStage t) :
    (s.stageFrame f).AgreesUpToStage (t.stageFrame f) := by
  refine ⟨?_, fun i hi => ?_⟩
  · rw [h.eq_restage]
    rfl
  · rw [State.stageFrame_cur_toNat fits] at hi
    rw [State.stageByte_stageFrame, State.stageByte_stageFrame, h.cur_eq]
    split_ifs with hf
    · rfl
    · exact h.2 i (by omega)

/-- A flush carries the bytes below the cursor alone (R80). -/
theorem issueOut (h : s.AgreesUpToStage t) : s.issueOut.AgreesUpToStage t.issueOut := by
  refine ⟨?_, h.2⟩
  rw [State.issueOut, h.stageBytes_eq, h.eq_restage]
  rfl

theorem stageAndMaybeFlush (op : Byte) (f : List Byte) (h : s.AgreesUpToStage t) :
    OutcomesAgree (s.stageAndMaybeFlush op f) (t.stageAndMaybeFlush op f) := by
  unfold State.stageAndMaybeFlush
  rw [h.read (State.frameFits f) fun _ _ _ => rfl]
  split_ifs with fits
  · exact (h.stageFrame fits).issueOut
  · exact (h.stageFrame fits).complete
  · rfl

/-- A command's read of host memory returns the same bytes. -/
theorem fetch (a n : Nat) (h : s.AgreesUpToStage t) :
    (t.fetch a n).1 = (s.fetch a n).1 ∧ (s.fetch a n).2.AgreesUpToStage (t.fetch a n).2 := by
  have blind : ∀ u m e, State.fetch a n (State.restage m e u) = ((u.fetch a n).1, (u.fetch a n).2.restage m e) := by
    intro u m e
    unfold State.fetch
    rw [show (State.restage m e u).displaced = u.displaced from rfl]
    split <;> rfl
  have cur : (s.fetch a n).2.cur = s.cur := by rw [State.fetch_state]
  exact ⟨h.read (fun u => (u.fetch a n).1) fun u m e => by rw [blind],
    h.map (fun u => (u.fetch a n).2) (fun u m e => by rw [blind]) (by rw [cur])⟩

theorem appendExec (op : Byte) (n : Half) (h : s.AgreesUpToStage t) :
    OutcomesAgree (s.appendExec op n) (t.appendExec op n) := by
  unfold State.appendExec
  obtain ⟨same, agree⟩ := h.fetch s.laddr.toNat (ceil8 n.toNat)
  rw [h.cfg_eq, h.laddr_eq]
  split_ifs
  · dsimp only
    rw [same]
    exact agree.stageAndMaybeFlush _ _
  · rfl

theorem answerOut (b : List Byte) (h : s.AgreesUpToStage t) : (s.answerOut b).AgreesUpToStage (t.answerOut b) :=
  h.map (State.answerOut b) (fun _ _ _ => rfl) (Nat.zero_le _)

theorem readRespExec (k : Half) (h : s.AgreesUpToStage t) :
    (s.readRespExec k).AgreesUpToStage (t.readRespExec k) := by
  unfold State.readRespExec
  split_ifs
  · exact h.complete
  · exact h.map (State.issueIn k.toNat) (fun _ _ _ => rfl) le_rfl

theorem readRespAnswer (k : Nat) (h : s.AgreesUpToStage t) :
    OutcomesAgree (s.readRespAnswer k) (t.readRespAnswer k) := by
  unfold State.readRespAnswer
  rw [h.cfg_eq, h.laddr_eq]
  split_ifs
  · exact h.map (State.answerIn k) (fun _ _ _ => rfl) le_rfl
  · rfl

theorem setDecoded (x : Header) (h : s.AgreesUpToStage t) : (s.setDecoded x).AgreesUpToStage (t.setDecoded x) :=
  h.map (State.setDecoded x) (fun _ _ _ => rfl) le_rfl

theorem decodeExec (h : s.AgreesUpToStage t) : OutcomesAgree s.decodeExec t.decodeExec := by
  unfold State.decodeExec
  obtain ⟨same, agree⟩ := h.fetch s.laddr.toNat s.cfg.hdrFmt.hsz
  rw [h.cfg_eq, h.laddr_eq]
  split_ifs
  · dsimp only
    rw [same]
    exact (agree.setDecoded _).complete
  · rfl

theorem handleFrame (fmt : HdrFmt) (emitted : Bool) (x : Header) (p : List Byte) (h : s.AgreesUpToStage t) :
    OutcomesAgree (s.handleFrame fmt emitted x p) (t.handleFrame fmt emitted x p) := by
  unfold State.handleFrame
  rw [h.cfg_eq, h.read State.parsing fun _ _ _ => rfl, h.read (State.emitting x.opcode x.bitCount) fun _ _ _ => rfl]
  split_ifs
  · exact (h.setDecoded x).complete
  · exact h.stageAndMaybeFlush _ _
  · exact h
  · exact h

/-- The step of an instruction. -/
theorem exec (i : Instr) (h : s.AgreesUpToStage t) : OutcomesAgree (exec i s) (exec i t) := by
  cases i with
  | appendSd n =>
    simp only [Machine.exec, execAppendSd, h.cmdPort_eq, h.phase_eq]
    cases s.cmdPort with
    | some w => exact h.offerChecked w fun _ _ _ => rfl
    | none =>
      cases s.phase with
      | exec => exact h.appendExec opSd n
      | waitOut b => exact h.answerOut b
      | idle | waitIn m => exact h
  | appendTms n =>
    simp only [Machine.exec, execAppendTms, h.cmdPort_eq, h.phase_eq]
    cases s.cmdPort with
    | some w => exact h.offerChecked w fun _ _ _ => rfl
    | none =>
      cases s.phase with
      | exec => exact h.appendExec opTms n
      | idle | waitOut b | waitIn m => exact h
  | appendHello =>
    simp only [Machine.exec, execAppendHello, h.cmdPort_eq, h.phase_eq]
    cases s.cmdPort with
    | some w => exact h.offerChecked w fun _ _ _ => rfl
    | none =>
      cases s.phase with
      | exec => exact h.appendExec opHello 0
      | idle | waitOut b | waitIn m => exact h
  | readResp k =>
    simp only [Machine.exec, execReadResp, h.cmdPort_eq, h.phase_eq]
    cases s.cmdPort with
    | some w => exact h.offerChecked w fun _ _ _ => rfl
    | none =>
      cases s.phase with
      | exec => exact h.readRespExec k
      | waitIn m => exact h.readRespAnswer m
      | idle | waitOut b => exact h
  | decode =>
    simp only [Machine.exec, execDecode, h.cmdPort_eq, h.phase_eq]
    cases s.cmdPort with
    | some w => exact h.offerChecked w fun _ _ _ => rfl
    | none =>
      cases s.phase with
      | exec => exact h.decodeExec
      | idle | waitOut b | waitIn m => exact h
  | sreset =>
    simp only [Machine.exec, execSreset, h.cmdPort_eq]
    cases s.cmdPort with
    | some w => exact h.offer w softReset
    | none => exact h
  | frameSdH4 | frameTmsH4 | frameHelloH4 | frameReservedH4 | frameSdH8 | frameTmsH8 | frameHelloH8
  | frameReservedH8 => exact h.handleFrame _ _ _ _

theorem offerWord (w : Word) (h : s.AgreesUpToStage t) : OutcomesAgree (offerWord w s) (offerWord w t) := by
  unfold Machine.offerWord
  cases decodeCommand w with
  | ok i => exact (h.map (fun u => { u with cmdPort := some w }) (fun _ _ _ => rfl) le_rfl).exec i
  | error e => exact h.offer w (raise _ w)

/-- A device step. -/
theorem deviceStep (h : s.AgreesUpToStage t) : OutcomesAgree (deviceStep s) (deviceStep t) := by
  unfold Machine.deviceStep
  rw [h.abandoned_eq]
  cases s.abandoned with
  | cons x rest =>
    exact h.map (fun u => State.discardAnswer x { u with abandoned := rest }) (fun _ _ _ => by cases x <;> rfl)
      (by cases x <;> exact le_rfl)
  | nil =>
    dsimp only
    rw [h.busy_eq, h.lcmd_eq]
    split_ifs
    · cases decodeCommand s.lcmd with
      | ok i => exact h.exec i
      | error e => rfl
    · exact h

/-! ## The host's accesses -/

theorem noteWritten (a : Nat) (bs : List Byte) (h : s.AgreesUpToStage t) :
    (s.noteWritten a bs).AgreesUpToStage (t.noteWritten a bs) := by
  unfold State.noteWritten
  rw [h.read State.doneWindows fun _ _ _ => rfl]
  split_ifs
  · exact h
  · exact h.map (fun u => { u with windows := noteHeld a bs u.windows, draws := u.draws + 1 }) (fun _ _ _ => rfl) le_rfl

/-- The same bytes written to `STAGE` in both. -/
theorem put (k : Nat) (p : List Byte) (h : s.AgreesUpToStage t) :
    ({ s with stage := s.stage.put k p } : State).AgreesUpToStage { t with stage := t.stage.put k p } := by
  have byte : ∀ (u : State) (i : Nat), ({ u with stage := u.stage.put k p } : State).stageByte i
      = if k ≤ i ∧ i < k + p.length then p.getD (i - k) 0 else u.stageByte i :=
    fun u => State.stageByte_put rfl rfl
  refine ⟨?_, fun i hi => ?_⟩
  · rw [h.eq_restage]
    rfl
  · rw [byte, byte, h.2 i hi]

/-- The late payload bytes of a flush depend on no byte of `STAGE`, and are written in both (R43). -/
theorem raceFlush (a : Nat) (bs kept : List Byte) (h : s.AgreesUpToStage t) :
    (s.raceFlush a bs kept).AgreesUpToStage (t.raceFlush a bs kept) := by
  unfold State.raceFlush
  rw [h.phase_eq]
  cases s.phase with
  | waitOut out =>
    dsimp only
    rw [h.read (State.hitsPayload a bs.length) fun _ _ _ => rfl, h.read State.latchedLen fun _ _ _ => rfl,
      h.read (State.lateBytes a bs kept _) fun _ _ _ => rfl]
    split_ifs
    · exact (h.put _ _).map (fun u => { u with phase := .waitOut _, draws := u.draws + 1 }) (fun _ _ _ => rfl) le_rfl
    · exact h
  | idle | exec | waitIn m => exact h

theorem hostMemWrite (a : Word) (bs : List Byte) (h : s.AgreesUpToStage t) :
    (s.hostMemWrite a bs).AgreesUpToStage (t.hostMemWrite a bs) := by
  unfold State.hostMemWrite
  rw [h.read (State.keptBytes a.toNat bs) fun _ _ _ => rfl]
  exact ((h.noteWritten _ _).raceFlush _ _ _).map (State.storeHmem _ _) (fun _ _ _ => rfl) le_rfl

/-- The reset input leaves the two states equal. -/
theorem hardReset (h : s.AgreesUpToStage t) : s.hardReset.AgreesUpToStage t.hardReset := by
  rw [h.read State.hardReset fun _ _ _ => rfl]
  exact ⟨rfl, fun _ _ => rfl⟩

theorem hostOp (op : HostOp) (h : s.AgreesUpToStage t) : OutcomesAgree (s.hostOp op) (t.hostOp op) := by
  cases op with
  | csrRead width o =>
    unfold State.hostOp
    dsimp only
    split_ifs
    · exact h.map (State.csrRead o) (fun _ _ _ => rfl) le_rfl
    · rfl
  | csrWrite width o v =>
    unfold State.hostOp State.csrWrite
    dsimp only
    split_ifs
    · exact h.offerWord v
    · exact h.map (fun u => { u with addr := v }) (fun _ _ _ => rfl) le_rfl
    · exact h
    · rfl
  | memRead a n =>
    unfold State.hostOp
    dsimp only
    rw [h.cfg_eq]
    split_ifs
    · exact h.map (State.hostMemRead a n) (fun _ _ _ => rfl) le_rfl
    · rfl
  | memWrite a bs =>
    unfold State.hostOp
    dsimp only
    rw [h.cfg_eq]
    split_ifs
    · exact h.hostMemWrite a bs
    · rfl
  | reset => exact h.hardReset
  | session b => exact h.map (fun u => { u with linkOpen := b }) (fun _ _ _ => rfl) le_rfl

theorem withHost (r : List HostAccess) (h : s.AgreesUpToStage t) :
    ({ s with host := r } : State).AgreesUpToStage { t with host := r } :=
  h.map (fun u => { u with host := r }) (fun _ _ _ => rfl) le_rfl

theorem step (h : s.AgreesUpToStage t) : OutcomesAgree (step s) (step t) := by
  cases hp : s.cmdPort with
  | some w =>
    rw [step_of_cmdPort hp, step_of_cmdPort (h.cmdPort_eq.trans hp)]
    exact h.offerWord w
  | none =>
    have hp' := h.cmdPort_eq.trans hp
    cases hh : s.host with
    | nil =>
      rw [step_of_host_empty hp hh, step_of_host_empty hp' (h.host_eq.trans hh)]
      exact h.deviceStep
    | cons a rest =>
      have hh' := h.host_eq.trans hh
      have ready : t.deviceReady = s.deviceReady := h.read State.deviceReady fun _ _ _ => rfl
      by_cases due : a.after = 0 ∨ s.deviceReady = false
      · rw [step_of_host_due hp hh due, step_of_host_due hp' hh' (ready ▸ due)]
        exact (h.withHost rest).hostOp a.op
      · obtain ⟨ha, hr⟩ : a.after ≠ 0 ∧ s.deviceReady = true := by simpa using due
        rw [step_of_host_waiting hp hh ha hr, step_of_host_waiting hp' hh' ha (ready.trans hr)]
        exact (h.withHost _).deviceStep

end State.AgreesUpToStage

/-- Settles O57: the outcomes of the two steps agree (`State.AgreesUpToStage.step`). -/
theorem stagePastTheCursorIsUnobservable : Obligations.StagePastTheCursorIsUnobservable := by
  intro s t h
  have agree := h.step
  refine ⟨fun s' hs => ?_, fun f hs => ?_, fun r hs => ?_⟩ <;> rw [hs] at agree
  · exact agree.of_next
  · exact agree.of_fault
  · exact agree.of_refused

end Sys2Proof.Machine
end

section
/-! Host accesses to memory (20_memory.md R41 to R44, R52, R54; 70_reset_and_hazards.md R131): an access inside host
memory is made, one that reaches past it stops the model; what a write leaves at every address and makes of a flush in
progress, and what a read returns. -/

namespace Sys2Proof.Machine

/-- A range that is not in range has a byte, and one past host memory (R42). -/
theorem Params.inRange_eq_false {p : Params} {a : Word} {n : Nat} :
    p.inRange a n = false ↔ 0 < n ∧ p.hmemSize < a.toNat + n := by
  rw [← Bool.not_eq_true, Params.inRange_iff]
  omega

theorem State.hostOp_memRead {s : State} {a : Word} {n : Nat} (h : s.cfg.inRange a n = true) :
    s.hostOp (.memRead a n) = .next (s.hostMemRead a n) := if_pos h

theorem State.hostOp_memWrite {s : State} {a : Word} {bs : List Byte} (h : s.cfg.inRange a bs.length = true) :
    s.hostOp (.memWrite a bs) = .next (s.hostMemWrite a bs) := if_pos h

/-- Settles O41: such a range is not in range. -/
theorem hostAccessesOutsideHmemStop : Obligations.HostAccessesOutsideHmemStop := by
  rintro s a n bs hn rfl hout
  have outside : ¬ s.cfg.inRange a bs.length = true := by
    rw [Bool.not_eq_true]
    exact Params.inRange_eq_false.2 ⟨hn, hout⟩
  exact ⟨if_neg outside, if_neg outside⟩

/-! ## Writes -/

/-- What a host write leaves at every address (R41, R44). -/
theorem State.read_hostMemWrite (a : Word) (bs : List Byte) (s : State) (x : Nat) :
    (s.hostMemWrite a bs).hmem.read x
      = if a.toNat ≤ x ∧ x < a.toNat + bs.length then (s.keptBytes a.toNat bs).getD (x - a.toNat) 0
        else s.hmem.read x := by
  rw [State.hostMemWrite_state]
  simpa using Memory.read_write s.hmem a.toNat (s.keptBytes a.toNat bs) x

/-- A byte inside the range of a host write is the one the write keeps there. -/
theorem State.read_hostMemWrite_inside {a : Word} {bs : List Byte} {i : Nat} (h : i < bs.length) (s : State) :
    (s.hostMemWrite a bs).hmem.read (a.toNat + i) = (s.keptBytes a.toNat bs).getD i 0 := by
  rw [State.read_hostMemWrite, if_pos (by omega), Nat.add_sub_cancel_left]

/-- A host write that lands on no payload of a flush in progress changes host memory and the model's notes alone. -/
theorem State.hostMemWrite_quiet {a : Word} {bs : List Byte} {s : State}
    (h : ∀ out, s.phase = .waitOut out → s.hitsPayload a.toNat bs.length = false) :
    s.hostMemWrite a bs =
      { s with
        hmem := (s.hostMemWrite a bs).hmem, windows := (s.hostMemWrite a bs).windows
        draws := (s.hostMemWrite a bs).draws } := by
  have unraced : (s.noteWritten a.toNat bs).raceFlush a.toNat bs (s.keptBytes a.toNat bs) = s.noteWritten a.toNat bs :=
    State.raceFlush_quiet (by rw [State.noteWritten_state]; exact h)
  have stored : s.hostMemWrite a bs = (s.noteWritten a.toNat bs).storeHmem a.toNat (s.keptBytes a.toNat bs) :=
    congrArg (State.storeHmem a.toNat _) unraced
  rw [stored, State.noteWritten_state]
  rfl

/-- Settles O38: the bytes a write keeps are the ones written, or values the byte was given in the interval
(`State.keptBytes_seen`, `State.keptBytes_mem`). -/
theorem hostWritesLandInMemory : Obligations.HostWritesLandInMemory := by
  intro s a bs hin
  refine ⟨s.hostMemWrite a bs, State.hostOp_memWrite (Params.inRange_iff.2 (.inr hin)), fun x hx => ?elsewhere,
    fun i hi => ?written, ?frame, State.hostMemWrite_quiet⟩
  case elsewhere => rw [State.read_hostMemWrite, if_neg (by omega)]
  case written =>
    rw [State.read_hostMemWrite_inside hi]
    exact ⟨State.keptBytes_seen hi, State.keptBytes_mem hi⟩
  case frame => rw [State.hostMemWrite_state]

/-- Settles O39: the flush is raced in the state that has noted the write, whose latches are those of `s`
(`State.raceFlush_out`); the byte the write keeps is the one memory then holds. -/
theorem aWriteDuringAFlushMayReachItsPayload : Obligations.AWriteDuringAFlushMayReachItsPayload := by
  intro s t a bs out hp h
  obtain ⟨hr, rfl⟩ : s.cfg.inRange a bs.length = true ∧ t = s.hostMemWrite a bs := by
    rw [State.hostOp] at h
    split_ifs at h with hr
    exact ⟨hr, next_inj h⟩
  obtain ⟨out', hp', hlen, hbytes⟩ := State.raceFlush_out (a := a.toNat) (bs := bs)
    (kept := s.keptBytes a.toNat bs) ((State.noteWritten_phase a.toNat bs s).trans hp)
  have laddr : (s.noteWritten a.toNat bs).laddr = s.laddr := by rw [State.noteWritten_state]
  have latched : (s.noteWritten a.toNat bs).latchedLen = s.latchedLen := by rw [State.noteWritten_state]; rfl
  rw [laddr, latched] at hbytes
  refine ⟨out', hp', hlen, fun i hi => (hbytes i hi).imp_right ?_⟩
  rintro ⟨hi', x, hx, hlo, hhi, hb⟩
  refine ⟨hi', x, hx, hlo, hhi, hb.imp_right fun hb => ?_⟩
  rw [hb, State.read_hostMemWrite, if_pos ⟨hlo, hhi⟩]

/-! ## Reads -/

/-- The bytes a host read of `n` bytes at `a` returns. -/
def State.hostBytes (a : Word) (n : Nat) (s : State) : List Byte :=
  (List.range n).map fun i => s.hostByte i (a.toNat + i)

@[simp] theorem State.hostBytes_length (a : Word) (n : Nat) (s : State) : (s.hostBytes a n).length = n := by
  simp [State.hostBytes]

theorem State.hostBytes_getD {a : Word} {n i : Nat} (h : i < n) (s : State) :
    (s.hostBytes a n).getD i 0 = s.hostByte i (a.toNat + i) := by
  simp [State.hostBytes, List.getD_eq_getElem?_getD, h]

/-- With no interval open, a host read returns what memory holds. -/
theorem State.hostBytes_synchronized {a : Word} {n : Nat} {s : State} (h : s.windows = []) :
    s.hostBytes a n = s.hmem.readBlock a.toNat n :=
  List.map_congr_left fun _ _ => State.hostByte_seen (by simp [h])

/-- Settles O40: each byte is what the host sees at its address (`State.hostByte_mem`, `State.hostByte_seen`). -/
theorem hostReadsReturnHeldValues : Obligations.HostReadsReturnHeldValues := by
  intro s a n hin
  refine ⟨s.hostMemRead a n, s.hostBytes a n, State.hostOp_memRead (Params.inRange_iff.2 hin),
    State.hostBytes_length a n s, fun i hi => ?_, rfl⟩
  rw [State.hostBytes_getD hi]
  exact ⟨State.hostByte_mem i _ s, State.hostByte_seen⟩

/-- Settles O42: reading `STATUS` with `BUSY = 0` closes every interval. -/
theorem observedCompletionSynchronizes : Obligations.ObservedCompletionSynchronizes := by
  intro s a n hb hin
  have closed : (s.csrRead 0x08).windows = [] := by rw [State.csrRead_windows, if_pos ⟨rfl, hb⟩]
  refine ⟨s.csrRead 0x08, (s.csrRead 0x08).hostMemRead a n, State.hostOp_csrRead rfl,
    State.hostOp_memRead (Params.inRange_iff.2 hin), ?_⟩
  calc ((s.csrRead 0x08).hostMemRead a n).hostReads
    _ = (s.csrRead 0x08).hostReads ++ [.mem a ((s.csrRead 0x08).hostBytes a n)] := rfl
    _ = (s.csrRead 0x08).hostReads ++ [.mem a (s.hmem.readBlock a.toNat n)] := by
      rw [State.hostBytes_synchronized closed, State.csrRead_hmem]

end Sys2Proof.Machine
end

section
/-! The host memory range of an offered command (20_memory.md R42; 60_exceptions.md R105, R110), and the OUT stream
(20_memory.md R50, R51). -/

namespace Sys2Proof.Machine

/-! ## Commands whose range is not in range -/

theorem checkAppend_hostBusError {n : Half} {s : State}
    (fits : s.cur.toNat + s.cfg.hdrFmt.frameLen n ≤ Config.stageCap)
    (out : s.cfg.inRange s.addr (ceil8 n.toNat) = false) : checkAppend n s = some .hostBusError := by
  rw [checkAppend, if_neg (Nat.not_lt.2 fits), out]
  rfl

theorem checkReadResp_hostBusError {k : Half} {s : State} (out : s.cfg.inRange s.addr k.toNat = false) :
    checkReadResp k s = some .hostBusError := by
  rw [checkReadResp, out]
  rfl

theorem checkDecode_hostBusError {s : State} (out : s.cfg.inRange s.addr s.cfg.hdrFmt.hsz = false) :
    checkDecode s = some .hostBusError := by
  rw [checkDecode, out]
  rfl

/-- A command whose check refuses it, offered to an open FES, raises the check's cause (R96). -/
theorem State.offerChecked_refused {s : State} {w : Word} {check : State → Option Cause} {c : Cause}
    (hf : s.fault = false) (hb : s.busy = false) (hc : check s.clearPort = some c) :
    s.offerChecked w check = s.clearPort.raise c w := by
  rw [State.offerChecked_open hf hb, hc]

/-- Settles O14: each command's check answers `HOST_BUS_ERROR`, which fault entry records (R108). -/
theorem commandsOutOfRangeFault : Obligations.CommandsOutOfRangeFault := by
  intro s i w len hi hp hf hb hpos hlong
  have out : s.cfg.inRange s.addr len = false := Params.inRange_eq_false.2 ⟨hpos, hlong⟩
  obtain ⟨check, hexec, hcheck⟩ : ∃ check, exec i s = .next (s.offerChecked w check) ∧
      check s.clearPort = some .hostBusError := by
    rcases hi with ⟨n, rfl | rfl, rfl, hfit⟩ | ⟨k, rfl, rfl⟩ | ⟨rfl, rfl⟩
    · exact ⟨checkAppend n, by simp only [exec, execAppendSd, hp],
        checkAppend_hostBusError (by rwa [Nat.add_assoc] at hfit) out⟩
    · exact ⟨checkAppend n, by simp only [exec, execAppendTms, hp],
        checkAppend_hostBusError (by rwa [Nat.add_assoc] at hfit) out⟩
    · exact ⟨checkReadResp k, by simp only [exec, execReadResp, hp], checkReadResp_hostBusError out⟩
    · exact ⟨checkDecode, by simp only [exec, execDecode, hp], checkDecode_hostBusError out⟩
  rw [hexec, State.offerChecked_refused hf hb hcheck]
  rfl

/-! ## The OUT stream -/

theorem offerWord_outStream {w : Word} {s t : State} (h : offerWord w s = .next t) : t.outStream = s.outStream := by
  rcases offerWord_cases h with ⟨rfl, -⟩ | ⟨rfl, -⟩ | ⟨c, -, -, rfl⟩ | ⟨-, -, rfl, -⟩ <;> rfl

/-- Settles O56: neither an offered word nor a host access writes the stream, and a device step adds to it as
`DeviceEffect.outStream` says. -/
theorem theOutStreamGrowsByTheOutstandingFlush : Obligations.TheOutStreamGrowsByTheOutstandingFlush := by
  intro s t h
  rcases step_effect h with ⟨w, u, -, hw, hu⟩ | ⟨-, r, rfl⟩ | ⟨ht, -⟩ | ⟨r, hp, hd⟩
  · rw [offerWord_outStream hw, hu]
    exact .inl rfl
  · exact .inl rfl
  · rw [ht]
    exact .inl rfl
  · exact (deviceStep_effect (s := { s with host := r }) hp hd).outStream

end Sys2Proof.Machine
end

section
/-! The two languages read back (30_encoding.md R57 to R69): the words of the commands, the frame at the head of a byte
stream, and the assembler. -/

namespace Sys2Proof.Machine

/-! ## Command words -/

@[simp] theorem decodeCommand_appendSd (n : Half) : decodeCommand (appendWord opSd n) = .ok (.appendSd n) := by
  simp [decodeCommand, appendWord]

@[simp] theorem decodeCommand_appendTms (n : Half) : decodeCommand (appendWord opTms n) = .ok (.appendTms n) := by
  simp [decodeCommand, appendWord, show opTms ≠ opSd by decide]

@[simp] theorem decodeCommand_appendHello : decodeCommand (appendWord opHello 0) = .ok .appendHello := by decide

@[simp] theorem decodeCommand_readResp (k : Half) : decodeCommand (readRespWord k) = .ok (.readResp k) := by
  simp [decodeCommand, readRespWord]

@[simp] theorem decodeCommand_decode : decodeCommand decodeWord = .ok .decode := by decide

@[simp] theorem decodeCommand_sreset : decodeCommand sresetWord = .ok .sreset := by decide

/-- A command's word is read back in either format (R65). -/
theorem decode_encode_command {i : Instr} (fmt : HdrFmt) (h : i.format = none) : decode fmt (encode i) = .ok i := by
  cases i with
  | appendSd n => exact decodeCommand_appendSd n
  | appendTms n => exact decodeCommand_appendTms n
  | appendHello => exact decodeCommand_appendHello
  | readResp k => exact decodeCommand_readResp k
  | decode => exact decodeCommand_decode
  | sreset => exact decodeCommand_sreset
  | frameSdH4 | frameTmsH4 | frameHelloH4 | frameReservedH4 | frameSdH8 | frameTmsH8 | frameHelloH8
  | frameReservedH8 => cases h

/-- Settles O2: a command's word has `RSV = 0`, so it is the word of its other fields (`decodeCommand_cases`). -/
theorem everyCommandHasOneWord : Obligations.EveryCommandHasOneWord := by
  intro w i h
  rcases decodeCommand_cases h with ⟨rfl, hw⟩ | ⟨rfl, hw⟩ | ⟨rfl, hw⟩ | ⟨rfl, hw⟩ | ⟨rfl, hw⟩ | ⟨rfl, hw⟩ <;>
    exact congrArg Code.word hw.symm

/-! ## Wire frames -/

theorem payloadFits_iff {n : Half} {p : List Byte} : payloadFits n p = true ↔ p.length = ceil8 n.toNat := by
  simp [payloadFits]

theorem opReserved_iff {op : Byte} : opReserved op = true ↔ op ≠ opSd ∧ op ≠ opTms ∧ op ≠ opHello := by
  simp [opReserved, and_assoc]

/-- The row of a reserved opcode in each format (R60). -/
theorem frameInstr_reserved {op : Byte} (hop : opReserved op = true) (hl : Byte) (n : Half) (p : List Byte) :
    frameInstr ⟨hl, op, none, n⟩ p = .frameReservedH4 hl op n p ∧
      ∀ x, frameInstr ⟨hl, op, some x, n⟩ p = .frameReservedH8 hl op x n p := by
  obtain ⟨hsd, htms, hhello⟩ := opReserved_iff.1 hop
  simp [frameInstr, hsd, htms, hhello]

/-- A frame row is one header and one payload: they are its bytes (R57, R58), its step is what the FES does with that
header and payload (log 15), and a well-formed row is the one they name (R56, R60). -/
theorem frame_row {i : Instr} {fmt : HdrFmt} (hf : i.format = some fmt) :
    ∃ (h : Header) (p : List Byte), h.format = fmt ∧ encode i = .wire (h.bytes ++ p) ∧
      (∃ emitted, ∀ s, exec i s = s.handleFrame fmt emitted h p) ∧
      (i.wellFormed = true → p.length = ceil8 h.bitCount.toNat ∧ frameInstr h p = i) := by
  cases i with
  | appendSd | appendTms | appendHello | readResp | decode | sreset => cases hf
  | frameSdH4 hl n p =>
    cases hf
    exact ⟨⟨hl, opSd, none, n⟩, p, rfl, rfl, ⟨_, fun _ => rfl⟩, fun hw => ⟨payloadFits_iff.1 hw, rfl⟩⟩
  | frameTmsH4 hl n p =>
    cases hf
    exact ⟨⟨hl, opTms, none, n⟩, p, rfl, rfl, ⟨_, fun _ => rfl⟩, fun hw => ⟨payloadFits_iff.1 hw, rfl⟩⟩
  | frameHelloH4 hl n p =>
    cases hf
    exact ⟨⟨hl, opHello, none, n⟩, p, rfl, rfl, ⟨_, fun _ => rfl⟩, fun hw => ⟨payloadFits_iff.1 hw, rfl⟩⟩
  | frameSdH8 hl x n p =>
    cases hf
    exact ⟨⟨hl, opSd, some x, n⟩, p, rfl, rfl, ⟨_, fun _ => rfl⟩, fun hw => ⟨payloadFits_iff.1 hw, rfl⟩⟩
  | frameTmsH8 hl x n p =>
    cases hf
    exact ⟨⟨hl, opTms, some x, n⟩, p, rfl, rfl, ⟨_, fun _ => rfl⟩, fun hw => ⟨payloadFits_iff.1 hw, rfl⟩⟩
  | frameHelloH8 hl x n p =>
    cases hf
    exact ⟨⟨hl, opHello, some x, n⟩, p, rfl, rfl, ⟨_, fun _ => rfl⟩, fun hw => ⟨payloadFits_iff.1 hw, rfl⟩⟩
  | frameReservedH4 hl op n p =>
    cases hf
    refine ⟨⟨hl, op, none, n⟩, p, rfl, rfl, ⟨_, fun _ => rfl⟩, fun hw => ?_⟩
    obtain ⟨hop, hfits⟩ := (Bool.and_eq_true _ _).mp hw
    exact ⟨payloadFits_iff.1 hfits, (frameInstr_reserved hop hl n p).1⟩
  | frameReservedH8 hl op x n p =>
    cases hf
    refine ⟨⟨hl, op, some x, n⟩, p, rfl, rfl, ⟨_, fun _ => rfl⟩, fun hw => ?_⟩
    obtain ⟨hop, hfits⟩ := (Bool.and_eq_true _ _).mp hw
    exact ⟨payloadFits_iff.1 hfits, (frameInstr_reserved hop hl n p).2 x⟩

/-- A frame at the head of a stream is parsed, and what follows it is left (R61). -/
theorem decodeFrame_bytes_append {h : Header} {p : List Byte} (rest : List Byte)
    (hp : p.length = ceil8 h.bitCount.toNat) :
    decodeFrame h.format (h.bytes ++ (p ++ rest)) = .ok (frameInstr h p, rest) := by
  have header : ¬ (h.bytes ++ (p ++ rest)).length < h.format.hsz := by
    rw [List.length_append, h.bytes_length]
    omega
  have behind : (h.bytes ++ (p ++ rest)).drop h.format.hsz = p ++ rest := by
    rw [← h.bytes_length, List.drop_left]
  have payload : ¬ (p ++ rest).length < p.length := by simp
  rw [decodeFrame, if_neg header]
  simp only [behind, headerOfBytes_bytes, ← hp, if_neg payload, List.take_left, List.drop_left]

/-- The bytes of a well-formed frame, read back from the head of a stream (R61). -/
theorem decodeFrame_encode_append {i : Instr} {fmt : HdrFmt} (hw : i.wellFormed = true) (hf : i.format = some fmt)
    (rest : List Byte) : decodeFrame fmt ((encode i).bytes ++ rest) = .ok (i, rest) := by
  obtain ⟨h, p, rfl, he, -, hrow⟩ := frame_row hf
  obtain ⟨hp, hi⟩ := hrow hw
  rw [he, ← hi, Code.bytes, List.append_assoc]
  exact decodeFrame_bytes_append rest hp

/-- Settles O1: a command by its word, a frame as the one frame of its bytes. -/
theorem decodeReadsBackEveryEncoding : Obligations.DecodeReadsBackEveryEncoding := by
  rintro i fmt hw (hf | hf)
  · exact decode_encode_command fmt hf
  · have alone := decodeFrame_encode_append hw hf []
    obtain ⟨h, p, -, he, -⟩ := frame_row hf
    rw [he, List.append_nil] at alone
    rw [he, decode, show decodeFrame fmt (h.bytes ++ p) = .ok (i, []) from alone]

/-- One frame and the frames behind it (R61). -/
theorem decodeFrames_of_head {fmt : HdrFmt} {fuel : Nat} {w rest : List Byte} {i : Instr} {is : List Instr}
    (hhead : decodeFrame fmt w = .ok (i, rest)) (hrest : decodeFrames fmt fuel rest = .ok is) :
    decodeFrames fmt (fuel + 1) w = .ok (i :: is) := by
  cases w with
  | nil => cases fmt <;> cases hhead
  | cons b bs => simp only [decodeFrames, hhead, hrest]

/-- A frame takes at least one byte of the fuel (R57, R58). -/
theorem encode_bytes_pos {i : Instr} {fmt : HdrFmt} (hf : i.format = some fmt) : 0 < (encode i).bytes.length := by
  obtain ⟨h, p, -, he, -⟩ := frame_row hf
  rw [he, Code.bytes, List.length_append, h.bytes_length]
  cases h.format <;> simp [HdrFmt.hsz]

/-- With fuel for every byte, the frames of a stream are read back in order (R61). -/
theorem decodeFrames_flatMap_encode {fmt : HdrFmt} {frames : List Instr} {fuel : Nat}
    (hall : ∀ i ∈ frames, i.wellFormed = true ∧ i.format = some fmt)
    (hfuel : (frames.flatMap fun i => (encode i).bytes).length ≤ fuel) :
    decodeFrames fmt fuel (frames.flatMap fun i => (encode i).bytes) = .ok frames := by
  induction frames generalizing fuel with
  | nil => rw [List.flatMap_nil, decodeFrames]
  | cons i is ih =>
    obtain ⟨⟨hw, hf⟩, hrest⟩ := List.forall_mem_cons.1 hall
    have hpos := encode_bytes_pos hf
    rw [List.flatMap_cons, List.length_append] at hfuel
    obtain ⟨fuel, rfl⟩ : ∃ m, fuel = m + 1 := ⟨fuel - 1, by omega⟩
    rw [List.flatMap_cons]
    exact decodeFrames_of_head (decodeFrame_encode_append hw hf _) (ih hrest (by omega))

/-- Settles O3: the stream's length is fuel enough. -/
theorem frameStreamsParseBack : Obligations.FrameStreamsParseBack := fun _ _ hall =>
  decodeFrames_flatMap_encode hall le_rfl

/-- Settles O4: each word and frame is evaluated. -/
theorem specWordsDecodeAsListed : Obligations.SpecWordsDecodeAsListed := by
  unfold Obligations.SpecWordsDecodeAsListed
  decide

/-- Settles O6: the frame is the header's bytes in the FES's format, then the payload. -/
theorem framesHaveTheirLayout : Obligations.FramesHaveTheirLayout := by
  refine fun p op n payload => ⟨fun hfmt => ?_, fun hfmt => ?_⟩ <;>
    simp only [Params.encodeFrame, Params.fillerFor, hfmt, HdrFmt.frameLen, HdrFmt.hsz] <;> rfl

/-! ## The assembler -/

/-- The fields of a command word are its value's digits (R63). -/
theorem packCommand_toNat (c : BitVec 4) (f : Byte) (n : Half) :
    (packCommand c f n).toNat = n.toNat * 65536 + (f.toNat * 256 + c.toNat) := by
  have hc := c.isLt
  have hf := f.isLt
  have hn := n.isLt
  generalize hv : n.toNat * 65536 + (f.toNat * 256 + c.toNat) = v
  have small : v < 2 ^ 32 := by omega
  have field : ∀ {k lo len : Nat}, v / 2 ^ lo % 2 ^ len = k → ((BitVec.ofNat 32 v).extractLsb' lo len).toNat = k := by
    intro k lo len h
    rw [BitVec.extractLsb'_toNat, BitVec.toNat_ofNat, Nat.mod_eq_of_lt small, Nat.shiftRight_eq_div_pow, h]
  have hrsv : rsvOf (BitVec.ofNat 32 v) = 0 := BitVec.eq_of_toNat_eq (field (by simp; omega))
  have hcmdop : cmdopOf (BitVec.ofNat 32 v) = c := BitVec.eq_of_toNat_eq (field (by omega))
  have hfopc : fopcOf (BitVec.ofNat 32 v) = f := BitVec.eq_of_toNat_eq (field (by omega))
  have hcount : countOf (BitVec.ofNat 32 v) = n := BitVec.eq_of_toNat_eq (field (by omega))
  rw [← hcmdop, ← hfopc, ← hcount, packCommand_fields hrsv, BitVec.toNat_ofNat, Nat.mod_eq_of_lt small]

/-- A counted mnemonic's word is the command word with that `COUNT` (R69). -/
theorem countedWord_eq_packCommand {n : Nat} (hn : n ≤ 65535) (c : BitVec 4) (f : Byte) :
    countedWord n (f.toNat * 256 + c.toNat) = .ok (packCommand c f (BitVec.ofNat 16 n)) ∧
      (packCommand c f (BitVec.ofNat 16 n)).toNat = n * 65536 + (f.toNat * 256 + c.toNat) := by
  have value := packCommand_toNat c f (BitVec.ofNat 16 n)
  rw [BitVec.toNat_ofNat, Nat.mod_eq_of_lt (show n < 2 ^ 16 by omega)] at value
  refine ⟨?_, value⟩
  rw [countedWord, if_pos hn, ← value, BitVec.ofNat_toNat, BitVec.setWidth_eq]

/-- Settles O5: the word of a counted mnemonic is the one whose decoding stands above. -/
theorem assemblyGivesTheListedWords : Obligations.AssemblyGivesTheListedWords := by
  refine ⟨fun n hn => ⟨?sd, ?tms, ?resp⟩, fun n hn l hl => ?refused, rfl, rfl, rfl, fun n l hl => ?warning⟩
  case sd =>
    obtain ⟨asm, value⟩ := countedWord_eq_packCommand hn 0x1 opSd
    exact ⟨_, asm, value, decodeCommand_appendSd _⟩
  case tms =>
    obtain ⟨asm, value⟩ := countedWord_eq_packCommand hn 0x1 opTms
    exact ⟨_, asm, value, decodeCommand_appendTms _⟩
  case resp =>
    obtain ⟨asm, value⟩ := countedWord_eq_packCommand hn 0x2 0
    exact ⟨_, asm, value, decodeCommand_readResp _⟩
  case refused =>
    rcases hl with rfl | rfl | rfl <;> exact if_neg (Nat.not_le.2 hn)
  case warning =>
    rcases hl with rfl | rfl <;> exact ⟨decide_eq_true_iff, decide_eq_true_iff⟩

end Sys2Proof.Machine
end

section
/-! What the FES does with a frame (30_encoding.md R60, log 15), and what it does with an illegal word (R67,
60_exceptions.md R108). -/

namespace Sys2Proof.Machine

/-! ## Frames in the EXEC step of a DECODE -/

/-- A frame of the FES's format in the EXEC step of a DECODE is parsed (R92). -/
theorem State.handleFrame_parsing {s : State} {fmt : HdrFmt} (e : Bool) (h : Header) (p : List Byte)
    (hfmt : s.cfg.hdrFmt = fmt) (hparse : s.parsing = true) :
    s.handleFrame fmt e h p = .next (s.setDecoded h).complete := by
  rw [State.handleFrame, if_pos hfmt, if_pos hparse]

theorem State.parsing_iff {s : State} : s.parsing = true ↔ s.phase = .exec ∧ s.lcmd = decodeWord := by
  simp [State.parsing]

/-- The block that holds a list's bytes is that list. -/
theorem Memory.readBlock_eq {m : Memory} {a : Nat} {bs : List Byte}
    (h : ∀ k < bs.length, m.read (a + k) = bs.getD k 0) : m.readBlock a bs.length = bs := by
  refine List.ext_getElem (Memory.readBlock_length m a bs.length) fun k _ hk => ?_
  rw [List.getElem_eq_getD 0, List.getElem_eq_getD 0, Memory.readBlock_getD m a hk, h k hk]

/-- The EXEC step of a DECODE at whose `LADDR` a header stands, not raced by the host (R92). -/
theorem State.decodeExec_header {s : State} {h : Header} (hquiet : s.displaced = [])
    (hin : s.cfg.inRange s.laddr s.cfg.hdrFmt.hsz = true) (hfmt : h.format = s.cfg.hdrFmt)
    (hmem : ∀ k < h.bytes.length, s.hmem.read (s.laddr.toNat + k) = h.bytes.getD k 0) :
    s.decodeExec = .next (s.setDecoded h).complete := by
  have read : s.fetch s.laddr.toNat s.cfg.hdrFmt.hsz = (h.bytes, s) := by
    rw [State.fetch_quiet hquiet, ← hfmt, ← h.bytes_length, Memory.readBlock_eq hmem]
  have parsed : headerOfBytes s.cfg.hdrFmt h.bytes = h := by
    simpa [hfmt] using headerOfBytes_bytes h []
  rw [State.decodeExec, if_pos hin]
  simp only [read, parsed]

/-- Settles O9: both steps report the frame's header. -/
theorem decodeStepRunsTheFrameItReads : Obligations.DecodeStepRunsTheFrameItReads := by
  intro s i hport hexec hlcmd hquiet hin hf hmem
  obtain ⟨h, p, hfmt, he, ⟨e, hrun⟩, -⟩ := frame_row hf
  have header : ∀ k < h.bytes.length, s.hmem.read (s.laddr.toNat + k) = h.bytes.getD k 0 := by
    intro k hk
    rw [hmem k (by rwa [← hfmt, ← h.bytes_length]), he]
    exact List.getD_append _ _ _ _ hk
  calc exec .decode s
    _ = s.decodeExec := by simp only [exec, execDecode, hport, hexec]
    _ = .next (s.setDecoded h).complete := State.decodeExec_header hquiet hin hfmt header
    _ = exec i s := by
      rw [hrun, State.handleFrame_parsing e h p rfl (State.parsing_iff.2 ⟨hexec, hlcmd⟩)]

/-! ## Frames the FES emits -/

/-- The frames the FES emits: shift-data, shift-TMS, and hello with no bits (R60, R67). -/
def isEmitted (h : Header) : Bool :=
  h.opcode == opSd || h.opcode == opTms || (h.opcode == opHello && h.bitCount == 0)

/-- The step of the frame of a header and a payload is what the FES does with them (log 15). -/
theorem exec_frameInstr (h : Header) (p : List Byte) (s : State) :
    exec (frameInstr h p) s = s.handleFrame h.format (isEmitted h) h p := by
  obtain ⟨hl, op, x, n⟩ := h
  by_cases hsd : op = opSd
  · subst hsd
    cases x <;> rfl
  by_cases htms : op = opTms
  · subst htms
    cases x <;> rfl
  by_cases hhello : op = opHello
  · subst hhello
    cases x <;> rfl
  · have unemitted : isEmitted ⟨hl, op, x, n⟩ = false := by simp [isEmitted, hsd, htms, hhello]
    rw [unemitted]
    cases x <;> simp only [frameInstr, if_neg hsd, if_neg htms, if_neg hhello] <;> rfl

theorem appendWord_ne_decodeWord (op : Byte) (n : Half) : appendWord op n ≠ decodeWord := fun h => by
  have := congrArg cmdopOf h
  simp [appendWord, decodeWord] at this

/-- The step of a frame that the FES emits, its APPEND in its EXEC step: the frame reaches the stager (R60). -/
theorem exec_frameInstr_emitting {s : State} {h : Header} (p : List Byte) (hfmt : s.cfg.hdrFmt = h.format)
    (hexec : s.phase = .exec) (hlcmd : s.lcmd = appendWord h.opcode h.bitCount) (he : isEmitted h = true) :
    exec (frameInstr h p) s = s.stageAndMaybeFlush h.opcode (h.bytes ++ p) := by
  have notParsing : ¬ s.parsing = true := fun hp =>
    appendWord_ne_decodeWord _ _ (hlcmd.symm.trans (State.parsing_iff.1 hp).2)
  have emitting : s.emitting h.opcode h.bitCount = true := by simp [State.emitting, hexec, hlcmd]
  rw [exec_frameInstr, State.handleFrame, if_pos hfmt, if_neg notParsing, he, emitting]
  rfl

/-- The header of a frame the FES builds is of its own format (R57, R58). -/
theorem Params.fillerFor_format (p : Params) (hl op : Byte) (n : Half) :
    Header.format ⟨hl, op, p.fillerFor op, n⟩ = p.hdrFmt := by
  cases hf : p.hdrFmt <;> simp [Header.format, Params.fillerFor, hf]

/-- The EXEC step of an APPEND whose payload the host has not raced is the step of the frame it builds (R74, R80). -/
theorem State.appendExec_eq_exec_frameInstr {s : State} {op : Byte} {n : Half} (hexec : s.phase = .exec)
    (hquiet : s.displaced = []) (hin : s.cfg.inRange s.laddr (ceil8 n.toNat) = true)
    (hlcmd : s.lcmd = appendWord op n)
    (he : isEmitted ⟨u8 (s.cfg.hdrFmt.frameLen n), op, s.cfg.fillerFor op, n⟩ = true) :
    s.appendExec op n =
      exec (frameInstr ⟨u8 (s.cfg.hdrFmt.frameLen n), op, s.cfg.fillerFor op, n⟩
        (s.hmem.readBlock s.laddr.toNat (ceil8 n.toNat))) s := by
  rw [exec_frameInstr_emitting _ (s.cfg.fillerFor_format _ _ _).symm hexec hlcmd he, State.appendExec, if_pos hin,
    State.fetch_quiet hquiet]
  rfl

/-- Settles O10: `State.appendExec_eq_exec_frameInstr` for the opcode of each APPEND. -/
theorem appendStepRunsTheFrameItBuilds : Obligations.AppendStepRunsTheFrameItBuilds := by
  rintro s n p hport hexec hquiet hin rfl
  refine ⟨fun hlcmd => ?sd, fun hlcmd => ?tms, ?hello⟩
  case sd =>
    rw [← State.appendExec_eq_exec_frameInstr hexec hquiet hin hlcmd rfl]
    simp only [exec, execAppendSd, hport, hexec]
    rfl
  case tms =>
    rw [← State.appendExec_eq_exec_frameInstr hexec hquiet hin hlcmd rfl]
    simp only [exec, execAppendTms, hport, hexec]
    rfl
  case hello =>
    rintro hlcmd rfl
    rw [← State.appendExec_eq_exec_frameInstr hexec hquiet hin hlcmd rfl]
    simp only [exec, execAppendHello, hport, hexec]
    rfl

/-! ## Frames in the stager -/

/-- A state with a frame staged, whatever becomes of `PHASE` (R78). -/
theorem State.staged_of_stageFrame {s t : State} {f : List Byte} (hfits : s.frameFits f = true)
    (ht : t = { s.stageFrame f with phase := t.phase, issuedOpen := t.issuedOpen }) : s.Staged f t := by
  have byte : ∀ i, t.stageByte i = (s.stageFrame f).stageByte i := fun i => by rw [ht]; rfl
  refine ⟨?cursor, fun i hi => ?frame, fun i hi => ?elsewhere, ?others, fun a => ?memory⟩
  case cursor =>
    rw [ht]
    exact State.stageFrame_cur_toNat hfits
  case frame => rw [byte, State.stageByte_stageFrame, if_pos (by omega), Nat.add_sub_cancel_left]
  case elsewhere => rw [byte, State.stageByte_stageFrame, if_neg (by omega)]
  case others =>
    rw [ht]
    rfl
  case memory =>
    rw [ht]
    rfl

/-- A frame that fits and reaches the stager is staged; shift-data is flushed, any other frame is kept (R60, R78,
R80). -/
theorem State.stageAndMaybeFlush_staged {s : State} {f : List Byte} (op : Byte) (hfits : s.frameFits f = true) :
    ∃ t, s.stageAndMaybeFlush op f = .next t ∧ s.Staged f t ∧
      t.phase = if op = opSd then .waitOut (t.stageBytes t.cur.toNat) else .idle := by
  rw [State.stageAndMaybeFlush, if_pos hfits]
  split_ifs
  · exact ⟨_, rfl, State.staged_of_stageFrame hfits rfl, rfl⟩
  · exact ⟨_, rfl, State.staged_of_stageFrame hfits rfl, rfl⟩

/-- The step of a frame that the FES emits, its APPEND in its EXEC step and with room for it: staged, and flushed if
it is shift-data (R60, R79). -/
theorem exec_frameInstr_staged {s : State} {h : Header} {p : List Byte} (hfmt : s.cfg.hdrFmt = h.format)
    (hexec : s.phase = .exec) (hroom : s.cur.toNat + h.format.hsz + p.length ≤ 4096)
    (hlcmd : s.lcmd = appendWord h.opcode h.bitCount) (he : isEmitted h = true) :
    ∃ t, exec (frameInstr h p) s = .next t ∧ s.Staged (h.bytes ++ p) t ∧
      t.phase = if h.opcode = opSd then .waitOut (t.stageBytes t.cur.toNat) else .idle := by
  have fits : s.frameFits (h.bytes ++ p) = true := by
    rw [State.frameFits, List.length_append, h.bytes_length, ← Nat.add_assoc]
    exact decide_eq_true hroom
  rw [exec_frameInstr_emitting p hfmt hexec hlcmd he]
  exact State.stageAndMaybeFlush_staged h.opcode fits

/-- Settles O29: each row is the frame of its H4 header. -/
theorem h4FramesReachTheStager : Obligations.H4FramesReachTheStager := by
  intro s hl n p hfmt hexec hroom
  refine ⟨fun hlcmd => ?sd, fun hlcmd => ?tms, ?hello⟩
  case sd => exact exec_frameInstr_staged (h := ⟨hl, opSd, none, n⟩) hfmt hexec hroom hlcmd rfl
  case tms => exact exec_frameInstr_staged (h := ⟨hl, opTms, none, n⟩) hfmt hexec hroom hlcmd rfl
  case hello =>
    rintro hlcmd rfl
    exact exec_frameInstr_staged (h := ⟨hl, opHello, none, 0⟩) hfmt hexec hroom hlcmd rfl

/-- Settles O30: each row is the frame of its H8 header. -/
theorem h8FramesReachTheStager : Obligations.H8FramesReachTheStager := by
  intro s hl x n p hfmt hexec hroom
  refine ⟨fun hlcmd => ?sd, fun hlcmd => ?tms, ?hello⟩
  case sd => exact exec_frameInstr_staged (h := ⟨hl, opSd, some x, n⟩) hfmt hexec hroom hlcmd rfl
  case tms => exact exec_frameInstr_staged (h := ⟨hl, opTms, some x, n⟩) hfmt hexec hroom hlcmd rfl
  case hello =>
    rintro hlcmd rfl
    exact exec_frameInstr_staged (h := ⟨hl, opHello, some x, 0⟩) hfmt hexec hroom hlcmd rfl

/-- A frame the FES does not emit is parsed by a DECODE, and else leaves the state as it is (R67, R92). -/
theorem State.handleFrame_unemitted (fmt : HdrFmt) (h : Header) (p : List Byte) (s : State) :
    s.handleFrame fmt false h p = .next (s.setDecoded h).complete ∨ s.handleFrame fmt false h p = .next s := by
  rw [State.handleFrame, Bool.false_and, if_neg Bool.false_ne_true]
  split_ifs
  · exact .inl rfl
  · exact .inr rfl
  · exact .inr rfl

/-- Settles O32: the row of a reserved opcode is none the FES emits. -/
theorem reservedFramesAreNeverEmitted : Obligations.ReservedFramesAreNeverEmitted := by
  intro s i hi
  obtain ⟨fmt, h, p, hrun⟩ : ∃ fmt h p, exec i s = s.handleFrame fmt false h p := by
    rcases hi with ⟨hl, op, n, p, rfl⟩ | ⟨hl, op, x, n, p, rfl⟩
    · exact ⟨_, _, _, rfl⟩
    · exact ⟨_, _, _, rfl⟩
  rcases s.handleFrame_unemitted fmt h p with hnext | hnext
  · exact ⟨_, hrun.trans hnext, rfl, .inr rfl⟩
  · exact ⟨_, hrun.trans hnext, rfl, .inl rfl⟩

/-! ## Illegal words -/

/-- The bits above `CMDOP` and `RSV` are `FOPC` and `COUNT` (R63). -/
theorem fopcOf_or_countOf_ne_zero {w : Word} (h : w.extractLsb' 8 24 ≠ 0) : fopcOf w ≠ 0 ∨ countOf w ≠ 0 := by
  by_contra hzero
  obtain ⟨hfopc, hcount⟩ := not_or.1 hzero
  have hf := congrArg BitVec.toNat (not_not.1 hfopc)
  have hc := congrArg BitVec.toNat (not_not.1 hcount)
  refine h (BitVec.eq_of_toNat_eq ?_)
  simp only [fopcOf, countOf, BitVec.extractLsb'_toNat, Nat.shiftRight_eq_div_pow] at hf hc ⊢
  simp at hf hc ⊢
  omega

section
variable {w : Word}

theorem decodeCommand_of_rsv (hrsv : rsvOf w ≠ 0) : decodeCommand w = .error .illegalCommand := if_pos hrsv

theorem decodeCommand_of_reserved_cmdop (hrsv : rsvOf w = 0) (h1 : cmdopOf w ≠ 0x1) (h2 : cmdopOf w ≠ 0x2)
    (h3 : cmdopOf w ≠ 0x3) (hF : cmdopOf w ≠ 0xF) : decodeCommand w = .error .illegalCommand := by
  rw [decodeCommand, if_neg (not_not.2 hrsv), if_neg h1, if_neg h2, if_neg h3, if_neg hF]

theorem decodeCommand_of_readResp_fopc (hrsv : rsvOf w = 0) (hop : cmdopOf w = 0x2) (hfopc : fopcOf w ≠ 0) :
    decodeCommand w = .error .illegalCommand := by
  simpa [decodeCommand, hrsv, hop] using hfopc

theorem decodeCommand_of_unused_field (hrsv : rsvOf w = 0) (hop : cmdopOf w = 0x3 ∨ cmdopOf w = 0xF)
    (hused : fopcOf w ≠ 0 ∨ countOf w ≠ 0) : decodeCommand w = .error .illegalCommand := by
  rcases hop with hop | hop <;> simpa [decodeCommand, hrsv, hop, imp_iff_not_or] using hused

theorem decodeCommand_of_reserved_fopc (hrsv : rsvOf w = 0) (hop : cmdopOf w = 0x1)
    (hfopc : opReserved (fopcOf w) = true) : decodeCommand w = .error .illegalOpcode := by
  obtain ⟨hsd, htms, hhello⟩ := opReserved_iff.1 hfopc
  rw [decodeCommand, if_neg (not_not.2 hrsv), if_pos hop, if_neg hsd, if_neg htms, if_neg hhello]

theorem decodeCommand_of_hello_count (hrsv : rsvOf w = 0) (hop : cmdopOf w = 0x1) (hfopc : fopcOf w = opHello)
    (hcount : countOf w ≠ 0) : decodeCommand w = .error .helloPayload := by
  simpa [decodeCommand, hrsv, hop, hfopc, show opHello ≠ opSd by decide, show opHello ≠ opTms by decide] using hcount

end

/-- An illegal word offered to an open FES: fault entry with its cause (R97, R108). -/
theorem step_of_illegal_word {s : State} {w : Word} {e : DecodeError} (hp : s.cmdPort = some w)
    (hf : s.fault = false) (hb : s.busy = false) (hd : decodeCommand w = .error e) :
    step s = .next (s.clearPort.raise (Cause.ofDecode e) w) := by
  rw [step_of_cmdPort hp, offerWord, hd]
  simp only [State.offer, hf, hb]
  rfl

/-- Settles O12: each class decodes to the error whose cause it is. -/
theorem illegalWordsRaiseTheirCause : Obligations.IllegalWordsRaiseTheirCause := by
  intro s w c hp hf hb hclass
  obtain ⟨e, hd, rfl⟩ : ∃ e, decodeCommand w = .error e ∧ Cause.ofDecode e = c := by
    rcases hclass with ⟨hrsv, rfl⟩ | ⟨hrsv, ⟨h1, h2, h3, hF, rfl⟩ | ⟨hop, hfopc, rfl⟩ | ⟨hop, hhigh, rfl⟩ |
      ⟨hop, hsd, htms, hhello, rfl⟩ | ⟨hop, hfopc, hcount, rfl⟩⟩
    · exact ⟨_, decodeCommand_of_rsv hrsv, rfl⟩
    · exact ⟨_, decodeCommand_of_reserved_cmdop hrsv h1 h2 h3 hF, rfl⟩
    · exact ⟨_, decodeCommand_of_readResp_fopc hrsv hop hfopc, rfl⟩
    · exact ⟨_, decodeCommand_of_unused_field hrsv hop (fopcOf_or_countOf_ne_zero hhigh), rfl⟩
    · exact ⟨_, decodeCommand_of_reserved_fopc hrsv hop (opReserved_iff.2 ⟨hsd, htms, hhello⟩), rfl⟩
    · exact ⟨_, decodeCommand_of_hello_count hrsv hop hfopc hcount, rfl⟩
  exact step_of_illegal_word hp hf hb hd

end Sys2Proof.Machine
end

section
/-! The APPEND family (40_append.md R73 to R87): its acceptance by the capacity of the staging buffer, its EXEC step, the
link's answer to a flush, and the batch of APPENDs that one flush carries. -/

namespace Sys2Proof.Machine

/-- The APPEND of an opcode and a bit count (R73). -/
inductive IsAppend : Instr → Byte → Half → Prop where
  | sd (n : Half) : IsAppend (.appendSd n) opSd n
  | tms (n : Half) : IsAppend (.appendTms n) opTms n
  | hello : IsAppend .appendHello opHello 0

/-- An APPEND that is offered (R77, R96). -/
theorem IsAppend.exec_offered {i : Instr} {op : Byte} {n : Half} {s : State} {w : Word} (h : IsAppend i op n)
    (hp : s.cmdPort = some w) : exec i s = .next (s.offerChecked w (checkAppend n)) := by
  cases h with
  | sd => simp only [exec, execAppendSd, hp]
  | tms => simp only [exec, execAppendTms, hp]
  | hello => simp only [exec, execAppendHello, hp]

/-- An APPEND in its EXEC step (R78, R80, R98). -/
theorem IsAppend.exec_running {i : Instr} {op : Byte} {n : Half} {s : State} (h : IsAppend i op n)
    (hp : s.cmdPort = none) (hexec : s.phase = .exec) : exec i s = s.appendExec op n := by
  cases h with
  | sd => simp only [exec, execAppendSd, hp, hexec]
  | tms => simp only [exec, execAppendTms, hp, hexec]
  | hello => simp only [exec, execAppendHello, hp, hexec]

/-! ## Capacity -/

theorem checkAppend_capacityExceeded {n : Half} {s : State}
    (full : 4096 < s.cur.toNat + s.cfg.hdrFmt.hsz + ceil8 n.toNat) : checkAppend n s = some .capacityExceeded :=
  if_pos (by rwa [Nat.add_assoc] at full)

/-- Settles O13: the offer raises or accepts as `check_append` answers (R77), and that is `CAPACITY_EXCEEDED` past 4096
bytes and nothing up to there. -/
theorem appendsThatDoNotFitFault : Obligations.AppendsThatDoNotFitFault := by
  intro s i n w hi hp hf hb
  obtain ⟨op, isAppend⟩ : ∃ op, IsAppend i op n := by
    rcases hi with rfl | rfl | ⟨rfl, rfl⟩
    · exact ⟨_, .sd n⟩
    · exact ⟨_, .tms n⟩
    · exact ⟨_, .hello⟩
  rw [isAppend.exec_offered hp]
  refine ⟨fun full => ?refused, fun room inRange => ?accepted⟩
  case refused =>
    rw [State.offerChecked_refused hf hb (checkAppend_capacityExceeded full)]
    rfl
  case accepted =>
    have passed : checkAppend n s.clearPort = none :=
      checkAppend_eq_none.2 ⟨by rwa [Nat.add_assoc] at room, Params.inRange_iff.2 inRange⟩
    rw [State.offerChecked_open hf hb, passed]
    exact ⟨_, rfl, State.busy_accept w _, hf⟩

/-! ## The EXEC step -/

/-- The EXEC step of an APPEND that fits: it stages its frame, of payload bytes that host memory may be read as (R43),
and flushes if it is shift-data (R76, R78, R80). -/
theorem State.appendExec_staged {s : State} {n : Half} (op : Byte)
    (room : s.cur.toNat + s.cfg.hdrFmt.hsz + ceil8 n.toNat ≤ 4096)
    (inRange : ceil8 n.toNat = 0 ∨ s.laddr.toNat + ceil8 n.toNat ≤ s.cfg.hmemSize) :
    ∃ (t : State) (p : List Byte), s.appendExec op n = .next t ∧ p.length = ceil8 n.toNat ∧
      (∀ i < p.length, p.getD i 0 ∈ s.sourceValues (s.laddr.toNat + i)) ∧ s.Staged (s.cfg.encodeFrame op n p) t ∧
      t.phase = if op = opSd then .waitOut (t.stageBytes t.cur.toNat) else .idle := by
  rw [State.appendExec, if_pos (Params.inRange_iff.2 inRange)]
  have source : ∀ i < ceil8 n.toNat, (s.fetch s.laddr.toNat (ceil8 n.toNat)).1.getD i 0 ∈
      s.sourceValues (s.laddr.toNat + i) := fun i hi => State.fetch_mem hi
  have drawn := s.fetch_state s.laddr.toNat (ceil8 n.toNat)
  have len := s.fetch_length s.laddr.toNat (ceil8 n.toNat)
  generalize s.fetch s.laddr.toNat (ceil8 n.toNat) = r at *
  have fits : r.2.frameFits (s.cfg.encodeFrame op n r.1) = true := by
    rw [State.frameFits, Params.encodeFrame_length len, drawn, HdrFmt.frameLen, ← Nat.add_assoc]
    exact decide_eq_true room
  obtain ⟨t, next, staged, phase⟩ := State.stageAndMaybeFlush_staged op fits
  rw [drawn] at staged
  exact ⟨t, r.1, next, len, fun i hi => source i (len ▸ hi), staged, phase⟩

/-- Settles O18: `State.appendExec_staged` with the opcode of shift-data, which flushes. -/
theorem appendSdStagesAndFlushes : Obligations.AppendSdStagesAndFlushes := by
  intro s n hp hexec room inRange
  rw [(IsAppend.sd n).exec_running hp hexec]
  exact State.appendExec_staged opSd room inRange

/-- Settles O19: `State.appendExec_staged` with another opcode, which completes. -/
theorem appendTmsStagesAndCompletes : Obligations.AppendTmsStagesAndCompletes := by
  intro s n hp hexec room inRange
  rw [(IsAppend.tms n).exec_running hp hexec]
  exact State.appendExec_staged opTms room inRange

/-- Settles O20: `State.appendExec_staged` with bit count 0, where the payload is empty and no range matters. -/
theorem appendHelloStagesAndCompletes : Obligations.AppendHelloStagesAndCompletes := by
  intro s hp hexec room
  obtain ⟨t, p, next, len, -, staged, phase⟩ := State.appendExec_staged (n := 0) opHello room (.inl rfl)
  obtain rfl : p = [] := List.length_eq_zero_iff.1 len
  exact ⟨t, (IsAppend.hello.exec_running hp hexec).trans next, staged, phase⟩

/-! ## The answer -/

/-- On `Ok` every byte has been delivered (R50). -/
theorem deliveredOf_ok {a : LinkAnswer} (h : a.ok = true) (bytes : List Byte) : deliveredOf a bytes = bytes.length :=
  if_pos h

/-- Settles O21: the step is `State.answerOut`. -/
theorem theAnswerEndsAnAppendSd : Obligations.TheAnswerEndsAnAppendSd := by
  intro s n bytes hp hwait
  have answered : exec (.appendSd n) s = .next (s.answerOut bytes) := by simp only [exec, execAppendSd, hp, hwait]
  refine ⟨s.answerOut bytes, deliveredOf s.nextAnswer bytes, answered, rfl, rfl, fun ok => ⟨?kept, deliveredOf_ok ok _⟩,
    fun failed => ?set, deliveredOf_le _ _, rfl, rfl, fun _ => rfl⟩
  case kept => simp [ok]
  case set => simp [failed]

/-! ## What starts a flush -/

/-- Settles O53: no offered word and no host access issues a transaction, and a device step issues a flush only as
`DeviceEffect.flush` says. -/
theorem onlyShiftDataStartsAFlush : Obligations.OnlyShiftDataStartsAFlush := by
  intro s t bytes h hwait hnew
  rcases step_effect h with ⟨w, u, -, hw, hu⟩ | ⟨-, r, rfl⟩ | ⟨-, hkept | ⟨b, -, hb, -⟩, -⟩ | ⟨r, hp, hd⟩
  · rw [hu] at hw
    rcases offerWord_cases hw with ⟨rfl, -⟩ | ⟨rfl, -⟩ | ⟨c, -, -, rfl⟩ | ⟨-, -, rfl, -⟩
    · cases hwait
    · exact absurd hwait (hnew bytes)
    · exact absurd hwait (hnew bytes)
    · cases hwait
  · cases hwait
  · exact absurd (hkept.symm.trans hwait) (hnew bytes)
  · exact absurd hb (hnew b)
  · exact (deviceStep_effect (s := { s with host := r }) hp hd).flush bytes hwait hnew

/-! ## Batches -/

/-- From `s` to `t` the bytes `f` have been staged behind those that stood in `STAGE` (R78), and nothing has been sent;
what the frames of the next APPENDs and their acceptance depend on has stayed. -/
structure State.Grown (s : State) (f : List Byte) (t : State) : Prop where
  staged : t.stageBytes t.cur.toNat = s.stageBytes s.cur.toNat ++ f
  cfg : t.cfg = s.cfg
  hmem : t.hmem = s.hmem
  fault : t.fault = s.fault
  outStream : t.outStream = s.outStream

theorem State.Grown.trans {s t u : State} {f g : List Byte} (hst : s.Grown f t) (htu : t.Grown g u) :
    s.Grown (f ++ g) u where
  staged := by rw [htu.staged, hst.staged, List.append_assoc]
  cfg := htu.cfg.trans hst.cfg
  hmem := htu.hmem.trans hst.hmem
  fault := htu.fault.trans hst.fault
  outStream := htu.outStream.trans hst.outStream

/-- The frame of an APPEND depends on the parameters and on host memory alone. -/
theorem State.Grown.frameOf_eq {s t : State} {f : List Byte} (h : s.Grown f t) (i : Instr) (a : Word) :
    t.frameOf i a = s.frameOf i a := by
  unfold State.frameOf
  rw [h.cfg, h.hmem]

theorem IsAppend.frameOf_eq {i : Instr} {op : Byte} {n : Half} (h : IsAppend i op n) (s : State) (a : Word) :
    s.frameOf i a = s.cfg.encodeFrame op n (s.hmem.readBlock a.toNat (ceil8 n.toNat)) := by
  cases h <;> rfl

/-- The stage write adds the frame to the staged bytes, whatever becomes of `PHASE` (R78). -/
theorem State.grown_stageFrame {s : State} {f : List Byte} (fits : s.frameFits f = true) (p : Phase) (o : Bool) :
    s.Grown f { s.stageFrame f with phase := p, issuedOpen := o } :=
  ⟨State.stageBytes_put rfl rfl (State.stageFrame_cur_toNat fits), rfl, rfl, rfl, rfl⟩

/-- Acceptance stages nothing (R96). -/
theorem State.grown_accept (a w : Word) (s : State) :
    s.Grown [] (({ s with addr := a, cmdPort := some w } : State).clearPort.accept w) :=
  ⟨(List.append_nil _).symm, rfl, rfl, rfl, rfl⟩

/-- The EXEC step of an APPEND whose payload the host has not raced (R78, R80). -/
theorem State.appendExec_grown {s t : State} {op : Byte} {n : Half} (hquiet : s.displaced = [])
    (h : s.appendExec op n = .next t) :
    s.Grown (s.cfg.encodeFrame op n (s.hmem.readBlock s.laddr.toNat (ceil8 n.toNat))) t ∧
      t.phase = if op = opSd then .waitOut (t.stageBytes t.cur.toNat) else .idle := by
  obtain ⟨-, reached⟩ := State.appendExec_next h
  rw [State.fetch_quiet hquiet] at reached
  obtain ⟨fits, ⟨rfl, rfl⟩ | ⟨hop, rfl⟩⟩ := State.stageAndMaybeFlush_next reached
  · exact ⟨State.grown_stageFrame fits _ _, rfl⟩
  · exact ⟨State.grown_stageFrame fits _ _, (if_neg hop).symm⟩

/-- An APPEND that reaches its EXEC step from an open FES has been accepted (R96). -/
theorem IsAppend.eq_accept {i : Instr} {op : Byte} {n : Half} {s u : State} {w : Word} (h : IsAppend i op n)
    (hf : s.fault = false) (hidle : s.phase = .idle) (hp : s.cmdPort = some w) (hoffer : exec i s = .next u)
    (hexec : u.phase = .exec) : u = s.clearPort.accept w := by
  rw [h.exec_offered hp, State.offerChecked_open hf (State.busy_eq_false.2 hidle)] at hoffer
  obtain rfl := next_inj hoffer
  cases hcheck : checkAppend n s.clearPort with
  | none => rfl
  | some c =>
    rw [hcheck] at hexec
    cases hidle.symm.trans hexec

/-- One APPEND of a batch: its frame joins the staged bytes, and shift-data flushes them all (R78, R80). -/
theorem State.RunsCommand.grown {i : Instr} {op : Byte} {n : Half} {s t : State} {a : Word} (hi : IsAppend i op n)
    (hf : s.fault = false) (hidle : s.phase = .idle) (h : s.RunsCommand i a t) :
    s.Grown (s.frameOf i a) t ∧ t.phase = if op = opSd then .waitOut (t.stageBytes t.cur.toNat) else .idle := by
  obtain ⟨w, u, -, hoffer, hexec, hrun⟩ := h
  obtain rfl := hi.eq_accept (s := { s with addr := a, cmdPort := some w }) hf hidle rfl hoffer hexec
  rw [hi.exec_running rfl rfl] at hrun
  obtain ⟨grown, phase⟩ := State.appendExec_grown rfl hrun
  rw [hi.frameOf_eq]
  exact ⟨(State.grown_accept a w s).trans grown, phase⟩

/-- An APPEND.TMS or APPEND.HELLO. -/
abbrev KeepsStaged (i : Instr) : Prop := (∃ m, i = .appendTms m) ∨ i = .appendHello

/-- Such a command leaves the FES idle, its frame staged (R80). -/
theorem State.RunsCommand.grown_idle {i : Instr} {s t : State} {a : Word} (hi : KeepsStaged i)
    (hf : s.fault = false) (hidle : s.phase = .idle) (h : s.RunsCommand i a t) :
    s.Grown (s.frameOf i a) t ∧ t.phase = .idle := by
  rcases hi with ⟨m, rfl⟩ | rfl
  · exact h.grown (.tms m) hf hidle
  · exact h.grown .hello hf hidle

/-- A batch that ends with an APPEND.SD stages its frames in order and then flushes all that is staged (R86). -/
theorem State.RunsBatch.grown {s t : State} {batch : List (Instr × Word)} {n : Half} {a : Word}
    (hall : ∀ c ∈ batch, KeepsStaged c.1) (hf : s.fault = false) (hidle : s.phase = .idle)
    (h : s.RunsBatch (batch ++ [(.appendSd n, a)]) t) :
    s.Grown ((batch ++ [(Instr.appendSd n, a)]).flatMap fun c => s.frameOf c.1 c.2) t ∧
      t.phase = .waitOut (t.stageBytes t.cur.toNat) := by
  induction batch generalizing s with
  | nil =>
    obtain ⟨u, hcmd, rfl⟩ := h
    simpa using hcmd.grown (.sd n) hf hidle
  | cons c cs ih =>
    obtain ⟨hc, hcs⟩ := List.forall_mem_cons.1 hall
    obtain ⟨u, hcmd, hrest⟩ := h
    obtain ⟨first, uidle⟩ := hcmd.grown_idle hc hf hidle
    obtain ⟨rest, flushed⟩ := ih hcs (first.fault.trans hf) uidle hrest
    simp only [first.frameOf_eq] at rest
    exact ⟨first.trans rest, flushed⟩

/-- Settles O24: what is flushed is all that is staged, and before the batch nothing was. -/
theorem oneFlushCarriesTheBatchInOrder : Obligations.OneFlushCarriesTheBatchInOrder := by
  intro s t batch n a hf hidle hcur hall h
  obtain ⟨grown, flushed⟩ := h.grown hall hf hidle
  have empty : s.stageBytes s.cur.toNat = [] := by
    rw [hcur]
    rfl
  rw [grown.staged, empty, List.nil_append] at flushed
  exact ⟨flushed, grown.outStream, fun x => by rw [grown.hmem]⟩

end Sys2Proof.Machine
end

section
/-! READ.RESP and DECODE (41_read_decode.md R88 to R94): the EXEC step and the answer of a read, the registers that
report a header, and the DECODE that meets a header or a frame. -/

namespace Sys2Proof.Machine

/-! ## READ.RESP -/

/-- A READ.RESP in its EXEC step (R88, R98). -/
theorem exec_readResp_running {s : State} (k : Half) (hp : s.cmdPort = none) (hexec : s.phase = .exec) :
    exec (.readResp k) s = .next (s.readRespExec k) := by
  simp only [exec, execReadResp, hp, hexec]

/-- Settles O25: the step is `State.readRespExec`, which asks whether `COUNT` is 0. -/
theorem readRespIssuesItsRead : Obligations.ReadRespIssuesItsRead := by
  intro s k hp hexec
  rw [exec_readResp_running k hp hexec]
  exact ⟨fun zero => congrArg _ (if_pos zero), fun nonzero => congrArg _ (if_neg nonzero)⟩

/-- The link's answer to the read of a READ.RESP whose destination is in range (R88, R89). -/
theorem exec_readResp_answered {s : State} {m : Nat} (k : Half) (hp : s.cmdPort = none) (hwait : s.phase = .waitIn m)
    (hin : s.cfg.inRange s.laddr m = true) : exec (.readResp k) s = .next (s.answerIn m) := by
  simp only [exec, execReadResp, hp, hwait, State.readRespAnswer, if_pos hin]

/-- A byte of an answer that the answer lists is the one listed (R7). -/
theorem State.answerBytes_listed {s : State} {m i : Nat} (hi : i < m) (listed : i < s.nextAnswer.data.length) :
    (s.answerBytes m).getD i 0 = s.nextAnswer.data.getD i 0 := by
  have byte : (s.answerBytes m).getD i 0 = s.answerByteAt 0 i := by
    simp [State.answerBytes, List.getD_eq_getElem?_getD, hi]
  have inList : i < (s.answerAt 0).data.length := listed
  rw [byte, State.answerByteAt, List.getD_eq_getElem _ _ inList]
  exact (List.getD_eq_getElem _ _ inList).symm

/-- What the answer of a read leaves at every address (R44, R88, R89). -/
theorem State.read_answerIn (m : Nat) (s : State) (x : Nat) :
    (s.answerIn m).hmem.read x =
      if s.laddr.toNat ≤ x ∧ x < s.laddr.toNat + m then
        (s.landed s.laddr.toNat (s.answerBytes m)).getD (x - s.laddr.toNat) 0
      else s.hmem.read x := by
  rw [State.answerIn_hmem, Memory.read_write, State.landed_length, State.answerBytes_length]

/-- A byte of the destination is the one that landed there. -/
theorem State.read_answerIn_inside {m i : Nat} (hi : i < m) (s : State) :
    (s.answerIn m).hmem.read (s.laddr.toNat + i) = (s.landed s.laddr.toNat (s.answerBytes m)).getD i 0 := by
  rw [State.read_answerIn, if_pos (by omega), Nat.add_sub_cancel_left]

/-- Settles O26: the step is `State.answerIn`; its bytes land as `State.landed_untouched` and `State.landed_mem` say,
and stay visible by `State.answerIn_visible`. -/
theorem theAnswerEndsAReadResp : Obligations.TheAnswerEndsAReadResp := by
  intro s k m hp hwait hin
  refine ⟨s.answerIn m, s.answerBytes m, exec_readResp_answered k hp hwait (Params.inRange_iff.2 hin), rfl,
    s.answerBytes_length m, fun i hi => State.answerBytes_listed hi,
    fun ok => ⟨?kept, ?received, fun i hi => ?landed⟩, fun failed => ⟨?set, ?nothing⟩, fun a ha => ?elsewhere, rfl⟩
  case kept => simp [ok]
  case received => simp [ok]
  case landed =>
    have inAnswer : i < (s.answerBytes m).length := (s.answerBytes_length m).symm ▸ hi
    rw [State.read_answerIn_inside hi]
    exact ⟨State.landed_untouched inAnswer, State.landed_mem inAnswer, State.answerIn_visible hi⟩
  case set => simp [failed]
  case nothing => simp [failed]
  case elsewhere => rw [State.read_answerIn, if_neg (by omega)]

/-! ## The registers that report a header -/

/-- The fields of `DEC_HDR` (R25). -/
theorem decHdrWord_fields (h : Header) :
    (decHdrWord h).extractLsb' 0 8 = h.headerLen ∧ (decHdrWord h).extractLsb' 8 8 = h.opcode ∧
      (decHdrWord h).extractLsb' 16 16 = h.bitCount := by
  refine ⟨?len, ?opcode, ?bits⟩ <;> apply BitVec.eq_of_getLsbD_eq <;> intro i hi
  case len => simp [decHdrWord, hi, show i < 32 by omega, show i < 16 by omega]
  case opcode => simp [decHdrWord, hi, show 8 + i < 32 by omega, show 8 + i < 16 by omega]
  case bits =>
    simp [decHdrWord, hi, show 16 + i < 32 by omega, BitVec.getLsbD_of_ge h.headerLen (16 + i) (by omega),
      BitVec.getLsbD_of_ge h.opcode (16 + i - 8) (by omega)]

/-- A bit of `DEC_INFO` (R26). -/
theorem getLsbD_decInfoWord (p : Params) (h : Header) (i : Nat) :
    (decInfoWord p h).getLsbD i =
      ((BitVec.ofNat 14 (ceil8 h.bitCount.toNat)).getLsbD i || (decide (i = 16) && headerValid p h)
        || (decide (i = 17) && lenMismatch p h) || (decide (i = 18) && opcodeUndef h)
        || (decide (i = 19) && helloBits h) || (decide (i = 20) && extMismatch p h)) := by
  simp only [decInfoWord, BitVec.getLsbD_or, getLsbD_placedBit, getLsbD_placed]
  by_cases hi : i < 32
  · simp [hi]
  · rw [BitVec.getLsbD_of_ge (BitVec.ofNat 14 _) i (by omega)]
    simp [hi, show i ≠ 16 by omega, show i ≠ 17 by omega, show i ≠ 18 by omega, show i ≠ 19 by omega,
      show i ≠ 20 by omega]

/-- `DPLEN` is the whole payload length, which fits its 14 bits (R26). -/
theorem decInfoWord_dplen (p : Params) (h : Header) :
    ((decInfoWord p h).extractLsb' 0 14).toNat = ceil8 h.bitCount.toNat := by
  have field : (decInfoWord p h).extractLsb' 0 14 = BitVec.ofNat 14 (ceil8 h.bitCount.toNat) := by
    apply BitVec.eq_of_getLsbD_eq
    intro i hi
    rw [BitVec.getLsbD_extractLsb', Nat.zero_add, getLsbD_decInfoWord]
    simp [hi, show i ≠ 16 by omega, show i ≠ 17 by omega, show i ≠ 18 by omega, show i ≠ 19 by omega,
      show i ≠ 20 by omega]
  have fits : ceil8 h.bitCount.toNat < 2 ^ 14 := by
    have := h.bitCount.isLt
    rw [ceil8]
    omega
  rw [field, BitVec.toNat_ofNat, Nat.mod_eq_of_lt fits]

/-- The flags of `DEC_INFO` (R26). -/
theorem decInfoWord_flags (p : Params) (h : Header) :
    (decInfoWord p h).getLsbD 16 = headerValid p h ∧ (decInfoWord p h).getLsbD 17 = lenMismatch p h ∧
      (decInfoWord p h).getLsbD 18 = opcodeUndef h ∧ (decInfoWord p h).getLsbD 19 = helloBits h ∧
      (decInfoWord p h).getLsbD 20 = extMismatch p h := by
  simp only [getLsbD_decInfoWord]
  simp

theorem lenMismatch_iff {p : Params} {h : Header} :
    lenMismatch p h = true ↔ h.headerLen.toNat ≠ (p.hdrFmt.hsz + ceil8 h.bitCount.toNat) % 256 := by
  rw [lenMismatch, bne_iff_ne, ne_eq, ← BitVec.toNat_inj, u8_toNat, HdrFmt.frameLen]

theorem helloBits_iff {h : Header} : helloBits h = true ↔ h.opcode = opHello ∧ h.bitCount ≠ 0 := by
  simp [helloBits]

theorem extMismatch_iff {p : Params} {h : Header} :
    extMismatch p h = true ↔
      p.hdrFmt = .h8 ∧ h.filler ≠ some ⟨p.r1, p.r2, p.dup h.opcode, p.ex h.opcode⟩ := by
  cases hf : p.hdrFmt <;> simp [extMismatch, Params.fillerFor, hf]

theorem headerValid_iff {p : Params} {h : Header} :
    headerValid p h = true ↔
      lenMismatch p h = false ∧ opcodeUndef h = false ∧ helloBits h = false ∧ extMismatch p h = false := by
  simp [headerValid, and_assoc]

/-- The results of a DECODE that found header `h` report it (R25, R26, R92). -/
theorem State.reports_setDecoded (h : Header) (s : State) : (s.setDecoded h).complete.Reports s.cfg h := by
  obtain ⟨len, opcode, bits⟩ := decHdrWord_fields h
  obtain ⟨high, low⟩ := decInfoWord_reserved s.cfg h
  obtain ⟨valid, lenFlag, undef, hello, ext⟩ := decInfoWord_flags s.cfg h
  rw [State.Reports, State.complete_decHdr, State.complete_decInfo, State.setDecoded_decHdr, State.setDecoded_decInfo,
    valid, lenFlag, undef, hello, ext]
  exact ⟨len, opcode, bits, decInfoWord_dplen s.cfg h, low, lenMismatch_iff, opReserved_iff, helloBits_iff,
    extMismatch_iff, headerValid_iff, high⟩

/-! ## DECODE -/

/-- A DECODE in its EXEC step (R92, R98). -/
theorem exec_decode_running {s : State} (hp : s.cmdPort = none) (hexec : s.phase = .exec) :
    exec .decode s = s.decodeExec := by
  simp only [exec, execDecode, hp, hexec]

/-- The EXEC step of a DECODE in range reports the header whose bytes it reads, and changes nothing else (R92, R94). -/
theorem State.decodeExec_reports {s : State} (hin : s.cfg.inRange s.laddr s.cfg.hdrFmt.hsz = true) :
    ∃ t, s.decodeExec = .next t ∧
      t.Reports s.cfg (headerOfBytes s.cfg.hdrFmt (s.fetch s.laddr.toNat s.cfg.hdrFmt.hsz).1) ∧
      t = { s with decHdr := t.decHdr, decInfo := t.decInfo, phase := .idle, draws := t.draws } := by
  rw [State.decodeExec, if_pos hin]
  dsimp only
  rw [s.fetch_state]
  exact ⟨_, rfl, State.reports_setDecoded _ { s with draws := _ }, rfl⟩

/-- A bit count as the value of its two bytes (R45). -/
theorem ofLe16_eq_ofNat (lo hi : Byte) : ofLe16 lo hi = BitVec.ofNat 16 (lo.toNat + 256 * hi.toNat) := by
  generalize hn : BitVec.ofNat 16 (lo.toNat + 256 * hi.toNat) = n
  have value : n.toNat = lo.toNat + 256 * hi.toNat := by
    rw [← hn, BitVec.toNat_ofNat, Nat.mod_eq_of_lt (by omega)]
  have low : n.extractLsb' 0 8 = lo := BitVec.eq_of_toNat_eq (by simp [value, Nat.mod_eq_of_lt lo.isLt])
  have high : n.extractLsb' 8 8 = hi :=
    BitVec.eq_of_toNat_eq (by rw [BitVec.extractLsb'_toNat, value, Nat.shiftRight_eq_div_pow]; omega)
  simpa [le16, low, high] using ofLe16_le16 n

/-- Settles O27: the header reported is the one whose bytes are read, laid out as its format says (R57, R58). -/
theorem decodeReportsTheHeader : Obligations.DecodeReportsTheHeader := by
  intro s hp hexec hin
  obtain ⟨t, next, reports, frame⟩ := State.decodeExec_reports (Params.inRange_iff.2 (.inr hin))
  refine ⟨t, (s.fetch s.laddr.toNat s.cfg.hdrFmt.hsz).1, (exec_decode_running hp hexec).trans next,
    s.fetch_length _ _, fun i hi => State.fetch_mem (by simpa using hi), fun h4 => ?h4, fun h8 => ?h8, frame,
    fun a => by rw [frame]⟩
  case h4 =>
    rw [← ofLe16_eq_ofNat]
    simpa only [h4, headerOfBytes] using reports
  case h8 =>
    rw [← ofLe16_eq_ofNat]
    simpa only [h8, headerOfBytes] using reports

/-! ## Frames that DECODE meets -/

/-- The step of a frame row is what the FES does with the header it carries (log 15). -/
theorem exec_of_frameHeader {i : Instr} {h : Header} (hh : frameHeader i = some h) :
    ∃ fmt e p, i.format = some fmt ∧ ∀ s, exec i s = s.handleFrame fmt e h p := by
  cases i with
  | appendSd | appendTms | appendHello | readResp | decode | sreset => cases hh
  | frameSdH4 | frameTmsH4 | frameHelloH4 | frameReservedH4 | frameSdH8 | frameTmsH8 | frameHelloH8
  | frameReservedH8 =>
    cases hh
    exact ⟨_, _, _, rfl, fun _ => rfl⟩

/-- Settles O31: such a frame is parsed (`State.handleFrame_parsing`). -/
theorem framesAreReportedByDecode : Obligations.FramesAreReportedByDecode := by
  intro s i h hh hf hexec hlcmd
  obtain ⟨fmt, e, p, hfmt, hrun⟩ := exec_of_frameHeader hh
  obtain rfl : fmt = s.cfg.hdrFmt := Option.some_inj.1 (hfmt.symm.trans hf)
  exact ⟨(s.setDecoded h).complete,
    (hrun s).trans (State.handleFrame_parsing e h p rfl (State.parsing_iff.2 ⟨hexec, hlcmd⟩)),
    State.reports_setDecoded h s, rfl, fun _ => rfl⟩

/-! ## Frames the FES can emit -/

/-- The header of the frame the FES builds for an opcode and a bit count (R57 to R59, R74). -/
def Params.headerFor (p : Params) (op : Byte) (n : Half) : Header :=
  ⟨u8 (p.hdrFmt.frameLen n), op, p.fillerFor op, n⟩

theorem Params.headerFor_format (p : Params) (op : Byte) (n : Half) : (p.headerFor op n).format = p.hdrFmt :=
  p.fillerFor_format _ op n

theorem Params.encodeFrame_eq (p : Params) (op : Byte) (n : Half) (payload : List Byte) :
    p.encodeFrame op n payload = (p.headerFor op n).bytes ++ payload := rfl

theorem Params.headerFor_bytes_length (p : Params) (op : Byte) (n : Half) :
    (p.headerFor op n).bytes.length = p.hdrFmt.hsz := by
  rw [Header.bytes_length, p.headerFor_format]

/-- The header of a frame that the FES emits has no flag set (R26, R93). -/
theorem headerValid_headerFor {p : Params} {op : Byte} {n : Half} (he : isEmitted (p.headerFor op n) = true) :
    headerValid p (p.headerFor op n) = true := by
  have len : lenMismatch p (p.headerFor op n) = false := by simp [lenMismatch, Params.headerFor]
  have ext : extMismatch p (p.headerFor op n) = false := by
    cases hf : p.hdrFmt <;> simp [extMismatch, Params.headerFor, hf]
  simp only [isEmitted, Params.headerFor, Bool.or_eq_true, Bool.and_eq_true, beq_iff_eq] at he
  refine headerValid_iff.2 ⟨len, ?_, ?_, ext⟩
  · rcases he with (rfl | rfl) | ⟨rfl, -⟩ <;> rfl
  · rcases he with (rfl | rfl) | ⟨rfl, rfl⟩ <;> rfl

/-- Settles O28: the header found at `LADDR` is the frame's own, which has no flag set; DECODE writes no memory. -/
theorem decodeReadsBackEncodedFrames : Obligations.DecodeReadsBackEncodedFrames := by
  intro s op n p hop hlen hp hexec hquiet hin hmem
  have hsz := s.cfg.headerFor_bytes_length op n
  have header : ∀ k < (s.cfg.headerFor op n).bytes.length,
      s.hmem.read (s.laddr.toNat + k) = (s.cfg.headerFor op n).bytes.getD k 0 := fun k hk => by
    rw [hmem k (by omega), s.cfg.encodeFrame_eq]
    exact List.getD_append _ _ _ _ hk
  have payload : ∀ k < p.length, s.hmem.read (s.laddr.toNat + s.cfg.hdrFmt.hsz + k) = p.getD k 0 := fun k hk => by
    rw [Nat.add_assoc, hmem _ (by omega), s.cfg.encodeFrame_eq, ← hsz]
    rw [List.getD_append_right _ _ _ _ (by omega), Nat.add_sub_cancel_left]
  have emitted : isEmitted (s.cfg.headerFor op n) = true := by
    rcases hop with rfl | rfl | ⟨rfl, rfl⟩ <;> rfl
  have run : exec .decode s = .next (s.setDecoded (s.cfg.headerFor op n)).complete :=
    (exec_decode_running hp hexec).trans
      (State.decodeExec_header hquiet (Params.inRange_iff.2 (.inr hin)) (s.cfg.headerFor_format op n) header)
  obtain ⟨len, opcode, bits⟩ := decHdrWord_fields (s.cfg.headerFor op n)
  obtain ⟨valid, -⟩ := decInfoWord_flags s.cfg (s.cfg.headerFor op n)
  exact ⟨_, run, len, opcode, bits, decInfoWord_dplen _ _, valid.trans (headerValid_headerFor emitted),
    hlen ▸ Memory.readBlock_eq payload⟩

end Sys2Proof.Machine
end

section
/-! Control (42_control.md R96 to R101): the instruction that a step runs, what an offered word does to an open, a busy
and a halted FES, SRESET, and that `FAULT` plays no part in the command in progress. -/

namespace Sys2Proof.Machine

/-! ## Which instruction a step runs -/

/-- An offered word that is a command is run as that command (R96). -/
theorem offerWord_of_command {s : State} {w : Word} {i : Instr} (hd : decodeCommand w = .ok i) :
    offerWord w s = exec i { s with cmdPort := some w } := by
  rw [offerWord, hd]

/-- With no discarded answer to come, the command in progress is the one that `LCMD` decodes to (R98, R99). -/
theorem deviceStep_of_latched {s : State} {i : Instr} (ha : s.abandoned = []) (hb : s.busy = true)
    (hd : decodeCommand s.lcmd = .ok i) : deviceStep s = exec i s := by
  rw [deviceStep, ha]
  dsimp only
  rw [if_pos hb, hd]

theorem State.with_cmdPort_self {s : State} {w : Word} (hp : s.cmdPort = some w) :
    ({ s with cmdPort := some w } : State) = s := by
  rw [← hp]

/-- Settles O7: the clauses are the word on the port, the due write to `CMD`, and the device step with the host's list
empty and with an access waiting. -/
theorem stepRunsTheDecodedCommand : Obligations.StepRunsTheDecodedCommand := by
  refine ⟨fun s w i hp hd => ?offered, fun s a rest w i hp hh due hop hd => ?written,
    fun s i hp hh ha hb hd => ?alone, fun s a rest i hp hh hafter ha hb hd => ?waiting⟩
  case offered => rw [step_of_cmdPort hp, offerWord_of_command hd, State.with_cmdPort_self hp]
  case written =>
    rw [step_of_host_due hp hh due, hop, State.hostOp_csrWrite rfl]
    exact offerWord_of_command hd
  case alone => rw [step_of_host_empty hp hh, deviceStep_of_latched ha hb hd]
  case waiting =>
    have ready : s.deviceReady = true := by rw [State.deviceReady, hb, Bool.true_or]
    rw [step_of_host_waiting hp hh hafter ready]
    exact deviceStep_of_latched ha hb hd

/-! ## Offered words -/

/-- Whatever word stands on the port, a command or not, its step is an offer: the words differ only in what they do to
an open FES (R96, R97). -/
theorem step_eq_offer {s : State} {w : Word} (hp : s.cmdPort = some w) : ∃ run, step s = .next (s.offer w run) := by
  rw [step_of_cmdPort hp]
  cases hd : decodeCommand w with
  | error e => exact ⟨_, by rw [offerWord, hd]⟩
  | ok i =>
    rw [offerWord_of_command hd, State.with_cmdPort_self hp]
    rcases exec_offered hd hp with ⟨-, hexec⟩ | ⟨check, hexec, -⟩
    · exact ⟨_, hexec⟩
    · exact ⟨_, hexec⟩

theorem State.offer_open {s : State} {w : Word} {run : State → State} (hf : s.fault = false) (hb : s.busy = false) :
    s.offer w run = run s.clearPort := by
  simp [State.offer, hf, hb]

/-- The way out of the fault halt (R97, R113). -/
theorem State.offer_sreset_halted {s : State} {run : State → State} (hf : s.fault = true) (hb : s.busy = false) :
    s.offer sresetWord run = s.clearPort.softReset := by
  simp [State.offer, hf, hb]

/-- Settles O15: the offer of any word meets the busy check first (R110). -/
theorem wordsOfferedWhileBusyFault : Obligations.WordsOfferedWhileBusyFault := by
  intro s w hp hf hb
  obtain ⟨run, offered⟩ := step_eq_offer hp
  rw [offered, State.offer_busy hf hb]
  rfl

/-! ## Acceptance -/

theorem checkReadResp_eq_none {k : Half} {s : State} (inRange : s.cfg.inRange s.addr k.toNat = true) :
    checkReadResp k s = none := if_pos inRange

theorem checkDecode_eq_none {s : State} (inRange : s.cfg.inRange s.addr s.cfg.hdrFmt.hsz = true) :
    checkDecode s = none := if_pos inRange

/-- An acceptable command is one of the five that are latched, and its check refuses nothing (R96). -/
theorem State.Acceptable.exec_offered {s : State} {i : Instr} {w : Word} (h : s.Acceptable i)
    (hp : s.cmdPort = some w) :
    ∃ check, exec i s = .next (s.offerChecked w check) ∧ check s.clearPort = none := by
  have append : ∀ {op : Byte} {n : Half}, IsAppend i op n →
      s.cur.toNat + s.cfg.hdrFmt.hsz + ceil8 n.toNat ≤ 4096 →
      (ceil8 n.toNat = 0 ∨ s.addr.toNat + ceil8 n.toNat ≤ s.cfg.hmemSize) →
      ∃ check, exec i s = .next (s.offerChecked w check) ∧ check s.clearPort = none :=
    fun isAppend room inRange => ⟨_, isAppend.exec_offered hp,
      checkAppend_eq_none.2 ⟨by rwa [Nat.add_assoc] at room, Params.inRange_iff.2 inRange⟩⟩
  cases i with
  | appendSd n => exact append (.sd n) h.1 h.2
  | appendTms n => exact append (.tms n) h.1 h.2
  | appendHello => exact append .hello h (.inl rfl)
  | readResp k =>
    have inRange : k.toNat = 0 ∨ s.addr.toNat + k.toNat ≤ s.cfg.hmemSize := h.imp_left (congrArg BitVec.toNat)
    exact ⟨checkReadResp k, by simp only [exec, execReadResp, hp],
      checkReadResp_eq_none (Params.inRange_iff.2 inRange)⟩
  | decode =>
    exact ⟨checkDecode, by simp only [exec, execDecode, hp], checkDecode_eq_none (Params.inRange_iff.2 (.inr h))⟩
  | sreset | frameSdH4 | frameTmsH4 | frameHelloH4 | frameReservedH4 | frameSdH8 | frameTmsH8 | frameHelloH8
  | frameReservedH8 => exact h.elim

/-- Settles O11: the check passes, so the next state is the one `State.accept` leaves. -/
theorem acceptedCommandsAreLatched : Obligations.AcceptedCommandsAreLatched := by
  intro s i w _ hp hf hb acceptable
  obtain ⟨check, offered, passed⟩ := acceptable.exec_offered hp
  rw [State.offerChecked_open hf hb, passed] at offered
  exact ⟨s.clearPort.accept w, offered, State.busy_accept w _, rfl, rfl, rfl, rfl, rfl, fun _ => rfl⟩

/-! ## The command in progress during the fault halt -/

/-- The state with `FAULT = 1` (R97). -/
def State.halt (s : State) : State := { s with fault := true }

@[simp] theorem State.halt_cfg (s : State) : s.halt.cfg = s.cfg := rfl
@[simp] theorem State.halt_laddr (s : State) : s.halt.laddr = s.laddr := rfl
@[simp] theorem State.halt_phase (s : State) : s.halt.phase = s.phase := rfl
@[simp] theorem State.halt_cmdPort (s : State) : s.halt.cmdPort = s.cmdPort := rfl
@[simp] theorem State.halt_displaced (s : State) : s.halt.displaced = s.displaced := rfl
@[simp] theorem State.halt_frameFits (f : List Byte) (s : State) : s.halt.frameFits f = s.frameFits f := rfl
@[simp] theorem State.halt_parsing (s : State) : s.halt.parsing = s.parsing := rfl
@[simp] theorem State.halt_emitting (op : Byte) (n : Half) (s : State) : s.halt.emitting op n = s.emitting op n := rfl

/-- The outcome with `FAULT = 1` in its next state. -/
def haltNext : Host.Outcome State Fault Refusal → Host.Outcome State Fault Refusal
  | .next s => .next s.halt
  | .fault f => .fault f
  | .refused r => .refused r

theorem State.fetch_halt (a n : Nat) (s : State) : s.halt.fetch a n = ((s.fetch a n).1, (s.fetch a n).2.halt) := by
  unfold State.fetch
  rw [State.halt_displaced]
  split <;> rfl

theorem State.stageAndMaybeFlush_halt (op : Byte) (f : List Byte) (s : State) :
    s.halt.stageAndMaybeFlush op f = haltNext (s.stageAndMaybeFlush op f) := by
  unfold State.stageAndMaybeFlush
  rw [State.halt_frameFits]
  split_ifs <;> rfl

theorem State.appendExec_halt (op : Byte) (n : Half) (s : State) :
    s.halt.appendExec op n = haltNext (s.appendExec op n) := by
  unfold State.appendExec
  rw [State.halt_cfg, State.halt_laddr, State.fetch_halt]
  split_ifs
  · exact State.stageAndMaybeFlush_halt _ _ _
  · rfl

theorem State.readRespExec_halt (k : Half) (s : State) : s.halt.readRespExec k = (s.readRespExec k).halt := by
  unfold State.readRespExec
  split_ifs <;> rfl

theorem State.readRespAnswer_halt (k : Nat) (s : State) :
    s.halt.readRespAnswer k = haltNext (s.readRespAnswer k) := by
  unfold State.readRespAnswer
  rw [State.halt_cfg, State.halt_laddr]
  split_ifs <;> rfl

theorem State.decodeExec_halt (s : State) : s.halt.decodeExec = haltNext s.decodeExec := by
  unfold State.decodeExec
  rw [State.halt_cfg, State.halt_laddr, State.fetch_halt]
  split_ifs <;> rfl

theorem State.handleFrame_halt (fmt : HdrFmt) (emitted : Bool) (h : Header) (p : List Byte) (s : State) :
    s.halt.handleFrame fmt emitted h p = haltNext (s.handleFrame fmt emitted h p) := by
  unfold State.handleFrame
  rw [State.halt_cfg, State.halt_parsing, State.halt_emitting]
  split_ifs
  · rfl
  · exact State.stageAndMaybeFlush_halt _ _ _
  · rfl
  · rfl

/-- With no word offered, an instruction neither reads nor writes `FAULT`: only acceptance does (R97). -/
theorem exec_halt (i : Instr) {s : State} (hp : s.cmdPort = none) : exec i s.halt = haltNext (exec i s) := by
  cases i with
  | appendSd n =>
    simp only [exec, execAppendSd, State.halt_cmdPort, State.halt_phase, hp]
    cases s.phase with
    | exec => exact s.appendExec_halt opSd n
    | idle | waitOut | waitIn => rfl
  | appendTms n =>
    simp only [exec, execAppendTms, State.halt_cmdPort, State.halt_phase, hp]
    cases s.phase with
    | exec => exact s.appendExec_halt opTms n
    | idle | waitOut | waitIn => rfl
  | appendHello =>
    simp only [exec, execAppendHello, State.halt_cmdPort, State.halt_phase, hp]
    cases s.phase with
    | exec => exact s.appendExec_halt opHello 0
    | idle | waitOut | waitIn => rfl
  | readResp k =>
    simp only [exec, execReadResp, State.halt_cmdPort, State.halt_phase, hp]
    cases s.phase with
    | exec => exact congrArg _ (s.readRespExec_halt k)
    | waitIn m => exact s.readRespAnswer_halt m
    | idle | waitOut => rfl
  | decode =>
    simp only [exec, execDecode, State.halt_cmdPort, State.halt_phase, hp]
    cases s.phase with
    | exec => exact s.decodeExec_halt
    | idle | waitOut | waitIn => rfl
  | sreset =>
    simp only [exec, execSreset, State.halt_cmdPort, hp]
    rfl
  | frameSdH4 | frameTmsH4 | frameHelloH4 | frameReservedH4 | frameSdH8 | frameTmsH8 | frameHelloH8
  | frameReservedH8 => exact s.handleFrame_halt _ _ _ _

/-- Settles O16: the offer of any word meets the halt first, and a command in progress does not see it (`exec_halt`). -/
theorem theHaltIgnoresCommands : Obligations.TheHaltIgnoresCommands := by
  refine ⟨fun s w hp hf => ?offered, fun s t i hp hexec => ?inProgress⟩
  case offered =>
    obtain ⟨run, offered⟩ := step_eq_offer hp
    refine ⟨fun ignored => ?_, fun hb hw => ⟨s.clearPort.softReset, ?_, rfl⟩⟩
    · rw [offered, State.offer_halted hf ignored]
      rfl
    · obtain rfl : w = sresetWord := hw
      rw [offered, State.offer_sreset_halted hf hb]
  case inProgress => exact (exec_halt i hp).trans (congrArg haltNext hexec)

/-! ## SRESET -/

theorem exec_sreset_offered {s : State} {w : Word} (hp : s.cmdPort = some w) :
    exec .sreset s = .next (s.offer w State.softReset) := by
  simp only [exec, execSreset, hp]

/-- While `BUSY = 0`, SRESET runs, halted or not (R101). -/
theorem State.offer_sreset_idle {s : State} (hb : s.busy = false) :
    s.offer sresetWord State.softReset = s.clearPort.softReset := by
  cases hf : s.fault with
  | false => exact State.offer_open hf hb
  | true => exact State.offer_sreset_halted hf hb

/-- Settles O17: SRESET is offered to an idle, a busy, and a busy and halted FES. -/
theorem sresetWritesTheResetValues : Obligations.SresetWritesTheResetValues := by
  intro s hp
  rw [exec_sreset_offered hp]
  refine ⟨fun hb => ?idle, fun hb hf => ?busy, fun hb hf => ?busyHalted⟩
  case idle => exact congrArg _ (State.offer_sreset_idle hb)
  case busy => exact congrArg _ (State.offer_busy hf hb)
  case busyHalted => exact congrArg _ (State.offer_halted hf (.inl hb))

end Sys2Proof.Machine
end

section
/-! Stops (60_exceptions.md R109, R121): from a state that meets the invariant every word, EXEC step and answer has a
next state, so that only the host's own accesses can stop the model (log 17, log 18). -/

namespace Sys2Proof.Machine

/-- The answer to the flush of an APPEND.SD (R81, R99). -/
theorem exec_appendSd_answered {s : State} {bytes : List Byte} (n : Half) (hp : s.cmdPort = none)
    (hwait : s.phase = .waitOut bytes) : exec (.appendSd n) s = .next (s.answerOut bytes) := by
  simp only [exec, execAppendSd, hp, hwait]

/-- The EXEC step of an APPEND for which acceptance has established room and range has a next state (R96, R98). -/
theorem IsAppend.exec_isNext {i : Instr} {op : Byte} {n : Half} {s : State} (h : IsAppend i op n)
    (hp : s.cmdPort = none) (hexec : s.phase = .exec)
    (room : s.cur.toNat + s.cfg.hdrFmt.frameLen n ≤ Config.stageCap)
    (inRange : s.cfg.inRange s.laddr (ceil8 n.toNat) = true) : ∃ t, exec i s = .next t := by
  obtain ⟨t, p, next, -⟩ := State.appendExec_staged op (by rwa [Nat.add_assoc]) (Params.inRange_iff.1 inRange)
  exact ⟨t, (h.exec_running hp hexec).trans next⟩

/-- The EXEC step of a command that fits has a next state (R96, R98). -/
theorem State.LatchFits.exec_isNext {s : State} {i : Instr} (h : s.LatchFits i) (hp : s.cmdPort = none)
    (hexec : s.phase = .exec) : ∃ t, exec i s = .next t := by
  cases i with
  | appendSd n => exact (IsAppend.sd n).exec_isNext hp hexec h.1 h.2
  | appendTms n => exact (IsAppend.tms n).exec_isNext hp hexec h.1 h.2
  | appendHello => exact IsAppend.hello.exec_isNext hp hexec h (Params.inRange_iff.2 (.inl rfl))
  | readResp k => exact ⟨_, exec_readResp_running k hp hexec⟩
  | decode => exact ⟨_, (exec_decode_running hp hexec).trans (if_pos h)⟩
  | sreset | frameSdH4 | frameTmsH4 | frameHelloH4 | frameReservedH4 | frameSdH8 | frameTmsH8 | frameHelloH8
  | frameReservedH8 => exact h.elim

/-- A command in progress of which holds what acceptance has established has a next state (R98, R99). -/
theorem State.LatchOk.exec_isNext {s : State} (h : s.LatchOk) (hp : s.cmdPort = none) (hb : s.busy = true) :
    ∃ i t, decodeCommand s.lcmd = .ok i ∧ exec i s = .next t := by
  cases hphase : s.phase with
  | idle => exact absurd hphase (State.busy_eq_true.1 hb)
  | exec =>
    obtain ⟨i, hd, fits⟩ := (State.latchOk_exec hphase).1 h
    obtain ⟨t, next⟩ := fits.exec_isNext hp hphase
    exact ⟨i, t, hd, next⟩
  | waitOut bytes =>
    obtain ⟨-, n, hd, -⟩ := (State.latchOk_waitOut hphase).1 h
    exact ⟨_, _, hd, exec_appendSd_answered n hp hphase⟩
  | waitIn m =>
    obtain ⟨k, hd, rfl, inRange⟩ := (State.latchOk_waitIn hphase).1 h
    exact ⟨_, _, hd, exec_readResp_answered k hp hphase inRange⟩

/-- A device step has a next state (R98, R99, R123). -/
theorem State.LatchOk.deviceStep_isNext {s : State} (h : s.LatchOk) (hp : s.cmdPort = none) :
    ∃ t, deviceStep s = .next t := by
  cases ha : s.abandoned with
  | cons x rest => exact ⟨State.discardAnswer x { s with abandoned := rest }, by rw [deviceStep, ha]⟩
  | nil =>
    cases hb : s.busy with
    | false => exact ⟨s, by simp [deviceStep, ha, hb]⟩
    | true =>
      obtain ⟨i, t, hd, next⟩ := h.exec_isNext hp hb
      exact ⟨t, (deviceStep_of_latched ha hb hd).trans next⟩

/-- Every offered word has a next state: a refusal is one too (R96, R97, R108). -/
theorem offerWord_isNext (w : Word) (s : State) : ∃ t, offerWord w s = .next t := by
  cases hd : decodeCommand w with
  | error e => exact ⟨_, by rw [offerWord, hd]⟩
  | ok i =>
    rw [offerWord_of_command hd]
    rcases exec_offered (s := { s with cmdPort := some w }) hd rfl with ⟨-, next⟩ | ⟨check, next, -⟩
    · exact ⟨_, next⟩
    · exact ⟨_, next⟩

/-- An outcome that is a next state or one of the two stops of the host's own accesses (R30, R41). -/
def StopsOnlyForHost : Host.Outcome State Fault Refusal → Prop
  | .next _ => True
  | .fault f => f = .hostOutsideHmem
  | .refused r => r = .csrAccess

theorem StopsOnlyForHost.of_isNext {o : Host.Outcome State Fault Refusal} (h : ∃ t, o = .next t) :
    StopsOnlyForHost o := by
  obtain ⟨t, rfl⟩ := h
  trivial

theorem State.csrWrite_isNext (o : Byte) (v : Word) (s : State) : ∃ t, s.csrWrite o v = .next t := by
  unfold State.csrWrite
  split_ifs
  · exact offerWord_isNext v s
  · exact ⟨_, rfl⟩
  · exact ⟨_, rfl⟩

/-- Whatever the state, a host access stops the model only past host memory or at a register access that R30
refuses. -/
theorem State.hostOp_stopsOnlyForHost (op : HostOp) (s : State) : StopsOnlyForHost (s.hostOp op) := by
  cases op with
  | csrRead | memRead | memWrite =>
    unfold State.hostOp
    dsimp only
    split_ifs
    · trivial
    · rfl
  | csrWrite width o v =>
    unfold State.hostOp
    dsimp only
    split_ifs
    · exact .of_isNext (s.csrWrite_isNext o v)
    · rfl
  | reset | session => trivial

/-- By whose step it is: only what holds of the command in progress is needed of the state. -/
theorem State.LatchOk.step_stopsOnlyForHost {s : State} (h : s.LatchOk) : StopsOnlyForHost (step s) := by
  cases hp : s.cmdPort with
  | some w =>
    rw [step_of_cmdPort hp]
    exact .of_isNext (offerWord_isNext w s)
  | none =>
    cases hh : s.host with
    | nil =>
      rw [step_of_host_empty hp hh]
      exact .of_isNext (h.deviceStep_isNext hp)
    | cons a rest =>
      by_cases due : a.after = 0 ∨ s.deviceReady = false
      · rw [step_of_host_due hp hh due]
        exact State.hostOp_stopsOnlyForHost a.op _
      · obtain ⟨hafter, ready⟩ : a.after ≠ 0 ∧ s.deviceReady = true := by simpa using due
        rw [step_of_host_waiting hp hh hafter ready]
        exact .of_isNext (State.LatchOk.deviceStep_isNext
          (s := { s with host := { a with after := a.after - 1 } :: rest }) h hp)

/-- Settles O48: the invariant gives what holds of the command in progress (`State.LatchOk.step_stopsOnlyForHost`). -/
theorem onlyTheHostsAccessesStopTheModel : Obligations.OnlyTheHostsAccessesStopTheModel := by
  intro s hs
  obtain ⟨-, -, -, -, latch, -⟩ := hs
  have stops := latch.step_stopsOnlyForHost
  refine ⟨fun f hf => ?_, fun r hr => ?_⟩
  · rwa [hf] at stops
  · rwa [hr] at stops

end Sys2Proof.Machine
end

section
/-! Faults (60_exceptions.md R108 to R113, R121): what a step can do to the fault registers, and what a run that reached
no fault shows at its end. -/

namespace Sys2Proof.Machine

/-- All that a step can do to the fault registers: keep them (R112), clear them by SRESET or by reset (R113), or enter
a fault for the word that is offered (R108, R109). -/
inductive FaultMove (s t : State) : Prop where
  | kept (fault : t.fault = s.fault) (cause : t.cause = s.cause) (faultCmd : t.faultCmd = s.faultCmd)
      (faultAddr : t.faultAddr = s.faultAddr)
  | cleared (fault : t.fault = false) (cur : t.cur = 0)
      (way : (s.busy = false ∧ s.OfferDue sresetWord) ∨ s.ResetDue)
  | raised (w : Word) (c : Cause) (running : s.fault = false) (offered : s.OfferDue w)
      (entry : t = ({ s with host := t.host } : State).clearPort.raise c w)

/-- Every step makes one of these moves: an offered word by the ways of `offerWord_cases`; reset clears; any other host
access and a device step keep the registers. -/
theorem step_faultMove {s t : State} (h : step s = .next t) : FaultMove s t := by
  rcases step_effect h with ⟨w, u, due, hw, hu⟩ | ⟨due, r, rfl⟩ | ⟨ht, -⟩ | ⟨r, hp, hd⟩
  · rw [hu] at hw
    rcases offerWord_cases hw with ⟨rfl, idle, rfl⟩ | ⟨rfl, -⟩ | ⟨c, -, running, rfl⟩ | ⟨-, -, rfl, -⟩
    · exact .cleared rfl rfl (.inl ⟨idle, due⟩)
    · exact .kept rfl rfl rfl rfl
    · exact .raised w c running due rfl
    · exact .kept rfl rfl rfl rfl
  · exact .cleared rfl rfl (.inr due)
  · rw [ht]
    exact .kept rfl rfl rfl rfl
  · have effect := deviceStep_effect (s := { s with host := r }) hp hd
    exact .kept effect.fault effect.cause effect.faultCmd effect.faultAddr

/-- Settles O50: of the moves of the fault registers only `FaultMove.cleared` ends the halt. -/
theorem onlySresetOrResetEndsTheHalt : Obligations.OnlySresetOrResetEndsTheHalt := by
  intro s t halted h ended
  cases step_faultMove h with
  | kept fault => simp [fault, halted] at ended
  | cleared _ cur way => exact ⟨cur, way⟩
  | raised w c running => simp [halted] at running

/-- Settles O52: of the moves of the fault registers only `FaultMove.raised` sets `FAULT`. -/
theorem faultsArePreciseAndComeFromOffers : Obligations.FaultsArePreciseAndComeFromOffers := by
  intro s t running h halted
  cases step_faultMove h with
  | kept fault => simp [fault, running] at halted
  | cleared fault => simp [fault] at halted
  | raised w c _ offered entry =>
    refine ⟨w, offered, ?_, ?_, ?_⟩ <;> rw [entry] <;> rfl

/-- Settles O51: the moves that clear and that raise do not lead from a halted state to a halted one; and the answer
writes `LINK_ERR` alone of `STATUS`. -/
theorem theHaltKeepsTheFirstFault : Obligations.TheHaltKeepsTheFirstFault := by
  refine ⟨fun s t halted h still => ?first, fun s n bytes halted hp hwait failed => ?answer⟩
  case first =>
    cases step_faultMove h with
    | kept _ cause faultCmd faultAddr => exact ⟨cause, faultCmd, faultAddr⟩
    | cleared fault => simp [fault] at still
    | raised w c running => simp [halted] at running
  case answer =>
    exact ⟨s.answerOut bytes, exec_appendSd_answered n hp hwait, halted, rfl, by simp [failed]⟩

/-- `STATUS` of an idle FES with no fault recorded: `BUSY`, `FAULT` and `CAUSE` read 0 (R21). -/
theorem State.statusWord_idle {s : State} (hb : s.busy = false) (hf : s.fault = false) (hc : s.cause = .none) :
    s.statusWord.getLsbD 0 = false ∧ s.statusWord.getLsbD 1 = false ∧ s.statusWord.extractLsb' 8 8 = 0 := by
  obtain ⟨busy, fault, -, -, cause, -⟩ := statusHasItsFields s
  refine ⟨?_, fault.trans hf, ?_⟩
  · rw [Bool.eq_false_iff, ne_eq, busy, not_not]
    exact State.busy_eq_false.1 hb
  · rw [cause, hc]

/-- Settles O49: the end of the run meets the invariant, so that nothing is in progress once `BUSY = 0` has been seen
and the fault registers are 0 where `FAULT` is. -/
theorem successfulRunsEndIdleWithNoFault : Obligations.SuccessfulRunsEndIdleWithNoFault := by
  refine fun s t n hs =>
    ⟨fun ⟨run, ⟨hostDone, _, seen⟩, noFault⟩ => ?shows, fun m u hm run halted success => ?fails⟩
  case shows =>
    obtain ⟨-, ⟨registers, -⟩, -, -, -, seenIdle⟩ := run.keeps stepsKeepTheMachineInvariant hs
    have running : t.fault = false := Bool.eq_false_iff.2 fun halted => noFault ⟨n, t, le_rfl, run, halted⟩
    obtain ⟨cause, faultCmd, faultAddr⟩ := registers running
    obtain ⟨busy, fault, causeField⟩ := State.statusWord_idle (seenIdle seen) running cause
    exact ⟨busy, fault, causeField, faultCmd, faultAddr, hostDone⟩
  case fails =>
    obtain ⟨-, -, noFault⟩ := success
    exact noFault ⟨m, u, hm, run, halted⟩

end Sys2Proof.Machine
end

section
/-! Reset and the link session (70_reset_and_hazards.md R123, R126): the answer to a transaction issued in a closed or an
open session, the note of that session (log 8), and the answers that a reset made void. -/

namespace Sys2Proof.Machine

/-! ## The answer by the session of the issue -/

/-- A transaction issued in a closed session is answered `TransferError` (R126 1). -/
theorem State.nextAnswer_ok_of_closed {s : State} (closed : s.issuedOpen = false) : s.nextAnswer.ok = false := by
  rw [State.nextAnswer, closed]
  exact Bool.and_false _

/-- A transaction issued in an open session gets the link's own answer, whether the session still is open or not
(log 8). -/
theorem State.nextAnswer_ok_of_open {s : State} (opened : s.issuedOpen = true) :
    s.nextAnswer.ok = (s.answerAt 0).ok := by
  rw [State.nextAnswer, opened]
  exact Bool.and_true _

/-- Settles O22: the answers are `State.answerOut` and `State.answerIn`, and of the answer both ask whether it is
`Ok`. -/
theorem aClosedSessionAnswersTransferError : Obligations.AClosedSessionAnswersTransferError := by
  intro s n k bytes m hp
  have flushed (hwait : s.phase = .waitOut bytes) : exec (.appendSd n) s = .next (s.answerOut bytes) :=
    exec_appendSd_answered n hp hwait
  have read (hwait : s.phase = .waitIn m) (hin : m = 0 ∨ s.laddr.toNat + m ≤ s.cfg.hmemSize) :
      exec (.readResp k) s = .next (s.answerIn m) :=
    exec_readResp_answered k hp hwait (Params.inRange_iff.2 hin)
  refine ⟨fun closed => ?closed, fun opened => ?opened⟩
  case closed =>
    have failed := State.nextAnswer_ok_of_closed closed
    exact ⟨fun hwait => ⟨s.answerOut bytes, flushed hwait, by simp [failed], rfl, rfl,
        deliveredOf s.nextAnswer bytes, by simp [failed]⟩,
      fun hwait hin => ⟨s.answerIn m, read hwait hin, by simp [failed], rfl, rfl, by simp [failed]⟩⟩
  case opened =>
    have own := State.nextAnswer_ok_of_open opened
    exact ⟨fun hwait => ⟨s.answerOut bytes, flushed hwait, by simp [own]⟩,
      fun hwait hin => ⟨s.answerIn m, read hwait hin, by simp [own]⟩⟩

/-! ## The note of the session -/

/-- Whether a transaction is outstanding is a matter of the phase alone (R33, R36). -/
theorem State.Waiting.of_phase_eq {s t : State} (h : t.Waiting) (phase : t.phase = s.phase) : s.Waiting :=
  ⟨phase ▸ h.1, phase ▸ h.2⟩

theorem State.waiting_of_waitOut {s : State} {bytes : List Byte} (h : s.phase = .waitOut bytes) : s.Waiting := by
  simp [State.Waiting, h]

/-- After an offered word a transaction is outstanding only if it was before, in the session noted then: SRESET and an
accepted command leave none (R96, R97, R101). -/
theorem offerWord_waiting {w : Word} {s t : State} (h : offerWord w s = .next t) (hwait : t.Waiting) :
    s.Waiting ∧ t.issuedOpen = s.issuedOpen := by
  rcases offerWord_cases h with ⟨rfl, -⟩ | ⟨rfl, -⟩ | ⟨c, -, -, rfl⟩ | ⟨-, -, rfl, -⟩
  · exact absurd rfl hwait.1
  · exact ⟨hwait, rfl⟩
  · exact ⟨hwait, rfl⟩
  · exact absurd rfl hwait.2

/-- The note of the session after a step, of whichever kind: only a device step issues a transaction, and it writes the
note as `DeviceEffect.issued` says. -/
theorem step_issuedOpen {s t : State} (h : step s = .next t) (hwait : t.Waiting) :
    t.issuedOpen = if s.Waiting then s.issuedOpen else s.linkOpen := by
  rcases step_effect h with ⟨w, u, -, hw, hu⟩ | ⟨-, r, rfl⟩ | ⟨ht, phase, -⟩ | ⟨r, hp, hd⟩
  · rw [hu] at hw
    obtain ⟨waited, kept⟩ := offerWord_waiting hw hwait
    exact kept.trans (if_pos waited).symm
  · exact absurd rfl hwait.1
  · have waited : s.Waiting := by
      rcases phase with same | ⟨b, -, out, -⟩
      · exact hwait.of_phase_eq same
      · exact State.waiting_of_waitOut out
    rw [if_pos waited, ht]
  · exact (deviceStep_effect (s := { s with host := r }) hp hd).issued hwait

/-- Settles O23: the two cases of `step_issuedOpen`. -/
theorem theSessionCountsAtTheIssue : Obligations.TheSessionCountsAtTheIssue := fun _ _ h hwait =>
  ⟨fun issued => (step_issuedOpen h hwait).trans (if_neg issued),
    fun waited => (step_issuedOpen h hwait).trans (if_pos waited)⟩

/-! ## Answers that a reset made void -/

/-- The device's step with a transaction cut off takes the answer of the oldest (R123, log 14). -/
theorem deviceStep_of_abandoned {s : State} {x : LinkTxn} {rest : List LinkTxn} (ha : s.abandoned = x :: rest) :
    deviceStep s = .next (State.discardAnswer x { s with abandoned := rest }) := by
  rw [deviceStep, ha]

/-- A discarded answer writes the record of its stream and the used-up answer (R123). -/
theorem State.discardAnswer_state (x : LinkTxn) (s : State) :
    s.discardAnswer x = { s with
      answers := s.answers.tail, answered := s.answered + 1, outStream := (s.discardAnswer x).outStream
      inStream := (s.discardAnswer x).inStream, draws := (s.discardAnswer x).draws } := by
  cases x <;> rfl

/-- Settles O44: with no access or a waiting one the step is the device's, which discards the answer. -/
theorem lateAnswersAreDiscarded : Obligations.LateAnswersAreDiscarded := by
  intro s x rest h hp ha hhost
  have device : step s = deviceStep { s with host := h } := by
    rcases hhost with ⟨empty, rfl⟩ | ⟨a, hs, waiting, hafter, rfl⟩
    · rw [step_of_host_empty hp empty, ← empty]
    · have ready : s.deviceReady = true := by simp [State.deviceReady, ha]
      exact step_of_host_waiting hp waiting hafter ready
  exact ⟨_, device.trans (deviceStep_of_abandoned ha),
    State.discardAnswer_state x { s with host := h, abandoned := rest }⟩

end Sys2Proof.Machine
end
